-- ==== Sys2Proof/Word.lean ====
section
/-! DEFINITION. The machine word and the two command ports: what the instruction syntax is written over. -/

namespace Sys2Proof

/-- Every register, operand, command word and buffer word has 32 bits (R10, R21, R60; decision D2). -/
abbrev Word := BitVec 32

/-- The two command ports (R20, R60): `bp` drives the Builder engine, `pp` the Parser engine. -/
inductive Port where
  | bp
  | pp
  deriving DecidableEq, Repr

end Sys2Proof
end

