-- ==== Sys2Proof/Syntax.lean ====
section
/-! DEFINITION. The fifteen operations of the block, one constructor per row of the opcode table (R97). -/

namespace Sys2Proof

/-- An operation a host can issue by writing a command word to a port's COMMAND register (R96, R97).
A command word carries no operand field (R95): operands are the port's ARG and CFG_ registers.
Only CONV is legal on both ports, so it alone names its port; the port of every other operation is
fixed by the table. -/
inductive Instr where
  /-- CONV, 0x01: evaluate the Tick Converter on the port it was written to (R132). -/
  | conv (port : Port)
  /-- BNEW, 0x10: construct the Builder (R150). -/
  | bnew
  /-- BDEL, 0x11: release the Builder (R162). -/
  | bdel
  /-- MKHEAD, 0x12: reset the cursor and emit the head symbol (R152). -/
  | mkhead
  /-- MKL0, 0x13: emit a logic-0 symbol (R153). -/
  | mkl0
  /-- MKL1, 0x14: emit a logic-1 symbol (R154). -/
  | mkl1
  /-- MKEND, 0x15: emit the end symbol and the terminator (R155). -/
  | mkend
  /-- MKGAP, 0x16: emit the gap symbol of a family that has one (R156). -/
  | mkgap
  /-- BFRAME, 0x18: build the data frame of an address and a command (R157). -/
  | bframe
  /-- BREPEAT, 0x19: build the repeat frame of a family that has one (R160). -/
  | brepeat
  /-- BRESULT, 0x1A: publish the symbol count (R161). -/
  | bresult
  /-- PNEW, 0x20: construct the Parser (R192). -/
  | pnew
  /-- PDEL, 0x21: release the Parser (R193). -/
  | pdel
  /-- PINPUT, 0x22: bind the receive buffer and frame by length (R194). -/
  | pinput
  /-- PSCAN, 0x23: decode the bound buffer (R198). -/
  | pscan
  deriving DecidableEq, Repr

end Sys2Proof
end

