-- ==== Sys2Proof/Decode.lean ====
section
/-! DEFINITION. Command words: the opcode map, the decoder and the encoder (R95, R97, R98). -/

namespace Sys2Proof

/-- Why a command word is illegal on a port (R98). -/
inductive CommandError where
  /-- Bits 31:8 are not all 0. -/
  | reservedBits
  /-- The opcode is not in the table. -/
  | noSuchOpcode
  /-- The opcode belongs to the other port. -/
  | wrongPort
  deriving DecidableEq, Repr

/-- A row of the opcode map: opcode, the port the row is legal on, the operation (R97). -/
structure OpcodeRow where
  opcode : BitVec 8
  port : Port
  instr : Instr
  deriving DecidableEq, Repr

/-- The opcode map of R97. CONV is legal on both ports and so has a row for each. -/
def opcodeMap : List OpcodeRow :=
  [⟨0x01, .bp, .conv .bp⟩, ⟨0x01, .pp, .conv .pp⟩,
   ⟨0x10, .bp, .bnew⟩, ⟨0x11, .bp, .bdel⟩, ⟨0x12, .bp, .mkhead⟩, ⟨0x13, .bp, .mkl0⟩,
   ⟨0x14, .bp, .mkl1⟩, ⟨0x15, .bp, .mkend⟩, ⟨0x16, .bp, .mkgap⟩,
   ⟨0x18, .bp, .bframe⟩, ⟨0x19, .bp, .brepeat⟩, ⟨0x1A, .bp, .bresult⟩,
   ⟨0x20, .pp, .pnew⟩, ⟨0x21, .pp, .pdel⟩, ⟨0x22, .pp, .pinput⟩, ⟨0x23, .pp, .pscan⟩]

/-- The operation a command word names on a port, or why the word is illegal there (R95, R97, R98). -/
def decode (p : Port) (w : Word) : Except CommandError Instr :=
  if w.extractLsb' 8 24 ≠ 0 then .error .reservedBits
  else
    match opcodeMap.find? (fun r => r.opcode == w.setWidth 8 && r.port == p) with
    | some r => .ok r.instr
    | none =>
      if opcodeMap.any (fun r => r.opcode == w.setWidth 8) then .error .wrongPort
      else .error .noSuchOpcode

/-- The port an operation is issued on (R97, column "port"). -/
def Instr.port : Instr → Port
  | .conv p => p
  | .bnew | .bdel | .mkhead | .mkl0 | .mkl1 | .mkend | .mkgap | .bframe | .brepeat | .bresult => .bp
  | .pnew | .pdel | .pinput | .pscan => .pp

/-- The command word of an operation (R95, R97): the opcode in bits 7:0, zeros above. -/
def encode : Instr → Word
  | .conv _ => 0x01
  | .bnew => 0x10
  | .bdel => 0x11
  | .mkhead => 0x12
  | .mkl0 => 0x13
  | .mkl1 => 0x14
  | .mkend => 0x15
  | .mkgap => 0x16
  | .bframe => 0x18
  | .brepeat => 0x19
  | .bresult => 0x1A
  | .pnew => 0x20
  | .pdel => 0x21
  | .pinput => 0x22
  | .pscan => 0x23

/-- The port a bare opcode-table word is written to: opcodes 0x20 to 0x2F belong to the Parser, all others are taken
on the Builder port (R97; notes/assumptions/12.md). -/
def tablePort (w : Word) : Port := if w.extractLsb' 4 4 = 2 then .pp else .bp

/-- The command word of an opcode-table row: its `nbits` low bits, zeros above (R62: one 32-bit word, no byte order). -/
def tableWord (nbits w : Nat) : Word := BitVec.ofNat 32 (w % 2 ^ nbits)

/-- What the decoder reads from an opcode-table word, on the port the word's opcode belongs to. -/
def decodeTableWord (nbits w : Nat) : Option Instr :=
  match decode (tablePort (tableWord nbits w)) (tableWord nbits w) with
  | .ok i => some i
  | .error _ => none

end Sys2Proof
end

