-- ==== Sys2Proof/Family.lean ====
section
/-! DEFINITION. Protocol family descriptors: the static data both engines are parameterised by (R230 to R235, R246). -/

namespace Sys2Proof

/-- What a FIELD segment carries (R232). -/
inductive Source where
  | addr
  | cmd
  | aux
  deriving DecidableEq, Repr

/-- The order of a field's bits on the wire (R99). -/
inductive BitOrder where
  | lsb
  | msb
  deriving DecidableEq, Repr

/-- A segment of a data frame's template (R232). -/
inductive Segment where
  /-- HEAD: one head symbol. -/
  | head
  /-- FIELD(src, w, order, inv): `width` bit symbols carrying `src`; `inv` sends every bit complemented. -/
  | field (src : Source) (width : Nat) (order : BitOrder) (inv : Bool)
  /-- GAP: one inter-message-gap symbol. -/
  | gap
  /-- END: the end symbol followed by the terminator. -/
  | endMark
  deriving DecidableEq, Repr

/-- A structural check of a family (R235). -/
inductive Check where
  /-- INV_HALVES(src, h, bypass_b, bypass_p). -/
  | invHalves (src : Source) (h : Nat) (bypassB bypassP : Bool)
  /-- AUX_MATCH(bypass_p). -/
  | auxMatch (bypassP : Bool)
  deriving DecidableEq, Repr

/-- A family descriptor (R231). The microsecond constants and the repeat period are 32-bit unsigned.
`auxFn` is an arbitrary total function of the address and the command (R246). -/
structure Descriptor where
  name : String
  leadHiUs : Word
  leadLoUs : Word
  l0HiUs : Word
  l0LoUs : Word
  l1HiUs : Word
  l1LoUs : Word
  endHiUs : Word
  hasRepeat : Bool
  repHiUs : Word
  repLoUs : Word
  hasGap : Bool
  gapHiUs : Word
  gapLoUs : Word
  template : List Segment
  auxBits : Nat
  auxFn : Word → Word → Word
  checks : List Check
  copyBypassP : Bool
  repeatPeriodMs : Word

end Sys2Proof
end

