-- ==== Sys2Proof/Machine/Layout.lean ====
section
/-! DEFINITION. What a descriptor's template fixes: field widths, frame lengths and capability bits (R233, R234, R238). -/

namespace Sys2Proof.Machine

open Sys2Proof

/-- The source and width of a FIELD segment; nothing for the other segments (R232). -/
def fieldOf : Segment → Option (Source × Nat)
  | .field src w _ _ => some (src, w)
  | _ => none

/-- The FIELD segments of a template in order, each as its source and width (R232). -/
def fieldsOf (t : List Segment) : List (Source × Nat) := t.filterMap fieldOf

/-- `w_addr`, `w_cmd`, `w_aux` (R232, R233): the width of the first FIELD with this source, 0 when there is none. -/
def fieldWidth (t : List Segment) (src : Source) : Nat :=
  match (fieldsOf t).find? (fun f => f.1 == src) with
  | some f => f.2
  | none => 0

/-- The number of GAP segments of a template (R234). -/
def gapCount (t : List Segment) : Nat := t.countP (fun g => g == .gap)

/-- DATA_LEN(D) (R234): head symbol, the bits of every field, the gaps, end symbol and terminator. -/
def dataLen (d : Descriptor) : Nat :=
  1 + ((fieldsOf d.template).map (·.2)).sum + gapCount d.template + 2

/-- REPEAT_LEN(D) (R234): repeat symbol, end symbol and terminator; 0 for a family with no repeat frame. -/
def repeatLen (d : Descriptor) : Nat := if d.hasRepeat then 3 else 0

/-- CAPS (R238): bit 0 HAS_REPEAT, bit 1 HAS_GAP, bit 2 HAS_AUX. -/
def capsWord (d : Descriptor) : Word :=
  BitVec.ofNat 32 ((if d.hasRepeat then 1 else 0) + (if d.hasGap then 2 else 0)
    + (if 0 < d.auxBits then 4 else 0))

/-- The low `n` bits of a word, the others 0 (R99, R157: "higher operand bits ignored"). -/
def lowBits (n : Nat) (v : Word) : Word := BitVec.ofNat 32 (v.toNat % 2 ^ n)

/-- `aux_fn(a, c)` as an `aux_bits`-bit value (R231, R246). -/
def auxValue (d : Descriptor) (a c : Word) : Word := lowBits d.auxBits (d.auxFn a c)

end Sys2Proof.Machine
end

