-- ==== Sys2Proof/WellFormed.lean ====
section
/-! DEFINITION. The premises on the family table: `WF(D)` (R232, R235) and what the spec states of named families (R237, R239).
Instructions need no check of their own: an operation carries no operand field (R95), so every term of `Instr` is well-formed. -/

namespace Sys2Proof

open Sys2Proof.Machine

/-- WF(D) clause (1): the first segment is HEAD and no other segment is HEAD (R232). -/
def headFirst (t : List Segment) : Bool := t.head? == some .head && t.tail.all (· != .head)

/-- WF(D) clause (2): the last segment is END and no other segment is END (R232). -/
def endLast (t : List Segment) : Bool := t.getLast? == some .endMark && t.dropLast.all (· != .endMark)

/-- WF(D) clause (3): an ADDR field and a CMD field exist and the first ADDR comes before the first CMD (R232). -/
def addrBeforeCmd (t : List Segment) : Bool :=
  let srcs := (fieldsOf t).map (·.1)
  srcs.contains .addr && srcs.contains .cmd && decide (srcs.idxOf .addr < srcs.idxOf .cmd)

/-- WF(D) clause (4): every width is 1 to 32, and all fields of one source have one width (R232). -/
def widthsAgree (t : List Segment) : Bool :=
  (fieldsOf t).all fun f => decide (1 ≤ f.2) && decide (f.2 ≤ 32) && f.2 == fieldWidth t f.1

/-- WF(D) clause (5): an AUX field exists exactly when `aux_bits` > 0, and then has that width (R232). -/
def auxDeclared (d : Descriptor) : Bool :=
  if ((fieldsOf d.template).map (·.1)).contains .aux then
    decide (0 < d.auxBits) && fieldWidth d.template .aux == d.auxBits
  else d.auxBits == 0

/-- WF(D) clause (6): a GAP segment exists only if the family has a gap symbol (R232). -/
def gapDeclared (d : Descriptor) : Bool := !d.template.contains .gap || d.hasGap

/-- WF(D) clause (7), one check: INV_HALVES has a source ADDR or CMD, 1 ≤ h and 2h ≤ w_src; AUX_MATCH needs an aux field (R235). -/
def checkDeclared (d : Descriptor) : Check → Bool
  | .invHalves src h _ _ => src != .aux && decide (1 ≤ h) && decide (2 * h ≤ fieldWidth d.template src)
  | .auxMatch _ => decide (0 < d.auxBits)

/-- WF(D) clause (8): the data frame fits both buffer memories (R232, R9). -/
def fitsBuffers (txCap rxCap : Nat) (d : Descriptor) : Bool :=
  decide (dataLen d ≤ txCap) && decide (dataLen d ≤ rxCap)

/-- `WF(D)` of R232 for buffer memories of `txCap` and `rxCap` words. -/
def Descriptor.wf (txCap rxCap : Nat) (d : Descriptor) : Bool :=
  headFirst d.template && endLast d.template && addrBeforeCmd d.template && widthsAgree d.template
    && auxDeclared d && gapDeclared d && d.checks.all (checkDeclared d) && fitsBuffers txCap rxCap d

/-- The twelve families the source names, tags 0x01 to 0x0C in the source's order (R3, R237). -/
def familyNames : List String :=
  ["NEC-like fixed-width", "Sony variable-width", "Samsung", "Gree", "JVC", "LEGO", "LG-AC",
   "Panasonic", "DISH", "Sharp", "Toshiba-AC", "Airton"]

/-- The name R237 gives a tag, for the twelve named families. -/
def tagName (tag : BitVec 8) : Option String :=
  if tag = 0 then none else familyNames[tag.toNat - 1]?

/-- R237: a descriptor at a named family's tag is that family's. -/
def namedAsTagged (tag : BitVec 8) (d : Descriptor) : Bool :=
  match tagName tag with
  | some n => d.name == n
  | none => true

/-- R239: "For DISH and Panasonic the descriptor therefore contains INV_HALVES(ADDR, 8, bypass_b = true, bypass_p)
provided w_addr >= 16"; the value of `bypass_p` is open. -/
def complementStated (tag : BitVec 8) (d : Descriptor) : Bool :=
  if tag = 0x08#8 ∨ tag = 0x09#8 then
    decide (fieldWidth d.template .addr < 16)
      || d.checks.contains (.invHalves .addr 8 true true) || d.checks.contains (.invHalves .addr 8 true false)
  else true

/-- The premise on an entry of `FAMILY_TABLE` at an open tag: well-formed (R232), and what R237 and R239 state of that tag. -/
def Descriptor.admissible (txCap rxCap : Nat) (tag : BitVec 8) (d : Descriptor) : Bool :=
  d.wf txCap rxCap && namedAsTagged tag d && complementStated tag d

end Sys2Proof
end

