-- ==== Sys2Proof/Config.lean ====
section
/-! DEFINITION. The parameters the spec leaves open (R9, R33) and the free values (R71, U6), as constants without a body. -/

namespace Sys2Proof

/-- The smallest size a buffer memory can have: R9 asks for at least the largest DATA_LEN of the family table, and the
table always holds REF_C, whose frame has 63 records (R237, R245). DEDUCED, notes/assumptions/2.md. -/
def Config.minBuffer : Nat := 63

/-- OPEN: how many words beyond `minBuffer` the Builder's buffer memory has (R9, decision D28). -/
opaque Config.txSpare : Fin 4294967233

/-- OPEN: how many words beyond `minBuffer` the receive buffer memory has (R9, decision D28). -/
opaque Config.rxSpare : Fin 4294967233

/-- TX_CAP (R9, R32): the number of words of TX, any number from `minBuffer` to 4294967295. That it fits a 32-bit
register is DEDUCED, notes/assumptions/2.md. -/
def Config.txCap : Nat := Config.minBuffer + Config.txSpare.val

/-- RX_CAP (R9, R32): the number of words of RX, in the same range. -/
def Config.rxCap : Nat := Config.minBuffer + Config.rxSpare.val

/-- `n ≤ TX_CAP`, written so that a size every platform has is decided without the open constant. -/
def Config.fitsTx (n : Nat) : Bool := decide (n ≤ Config.minBuffer) || decide (n ≤ Config.txCap)

/-- `n ≤ RX_CAP`, in the same form. -/
def Config.fitsRx (n : Nat) : Bool := decide (n ≤ Config.minBuffer) || decide (n ≤ Config.rxCap)

/-- OPEN: the entries of `FAMILY_TABLE` at tags 0x01 to 0x7F (R230, R237, decision D23). The type carries the spec's
premise on the parameter: an entry is well-formed and agrees with what R237 and R239 state of its tag. -/
opaque Config.openFamily :
  (tag : BitVec 8) → Option { d : Descriptor // d.admissible Config.txCap Config.rxCap tag = true }

/-- FREE VALUE: what the word of TX at an index reads as while no make step has written it since TX last became
unspecified; the first argument counts those times (R71, R35, U6). -/
opaque Config.unwrittenTx : Nat → Nat → Word

/-- FREE VALUE: what the word of RX at an index reads as while the host has not written it since reset; the first
argument counts resets (R71, R34, U6). -/
opaque Config.unwrittenRx : Nat → Nat → Word

end Sys2Proof
end

