-- ==== Sys2Proof/Machine/Families.lean ====
section
/-! DEFINITION. `FAMILY_TABLE`: the three reference descriptors and the lookup by tag (R237, R243 to R245). -/

namespace Sys2Proof.Machine

open Sys2Proof

/-- REF_A, tag 0x80 (R243): the spec's instance of layout L16_32 (R241). -/
def refA : Descriptor where
  name := "REF_A"
  leadHiUs := 9000
  leadLoUs := 4500
  l0HiUs := 560
  l0LoUs := 560
  l1HiUs := 560
  l1LoUs := 1690
  endHiUs := 560
  hasRepeat := true
  repHiUs := 9000
  repLoUs := 2250
  hasGap := false
  gapHiUs := 0
  gapLoUs := 0
  template := [.head, .field .addr 16 .lsb false, .field .cmd 32 .lsb false, .endMark]
  auxBits := 0
  auxFn := fun _ _ => 0
  checks := [.invHalves .addr 8 true true]
  copyBypassP := false
  repeatPeriodMs := 110

/-- REF_B, tag 0x81 (R244): the spec's instance of layout L5_10 (R242). -/
def refB : Descriptor where
  name := "REF_B"
  leadHiUs := 3000
  leadLoUs := 1500
  l0HiUs := 400
  l0LoUs := 400
  l1HiUs := 400
  l1LoUs := 1200
  endHiUs := 400
  hasRepeat := false
  repHiUs := 0
  repLoUs := 0
  hasGap := true
  gapHiUs := 400
  gapLoUs := 20000
  template := [.head, .field .addr 5 .msb false, .field .cmd 10 .msb false, .gap,
    .field .addr 5 .msb false, .field .cmd 10 .msb true, .endMark]
  auxBits := 0
  auxFn := fun _ _ => 0
  checks := []
  copyBypassP := false
  repeatPeriodMs := 100

/-- REF_C, tag 0x82 (R245): the spec's instance of layout L28 (R240) with a 4-bit aux field, `a[3:0] xor c[3:0]`. -/
def refC : Descriptor where
  name := "REF_C"
  leadHiUs := 6000
  leadLoUs := 3000
  l0HiUs := 500
  l0LoUs := 500
  l1HiUs := 500
  l1LoUs := 1500
  endHiUs := 500
  hasRepeat := true
  repHiUs := 6000
  repLoUs := 1500
  hasGap := false
  gapHiUs := 0
  gapLoUs := 0
  template := [.head, .field .addr 28 .lsb false, .field .cmd 28 .lsb false, .field .aux 4 .lsb false, .endMark]
  auxBits := 4
  auxFn := fun a c => lowBits 4 a ^^^ lowBits 4 c
  checks := [.invHalves .cmd 4 false false, .auxMatch true]
  copyBypassP := false
  repeatPeriodMs := 50

/-- `FAMILY_TABLE` on the whole 32-bit CFG_FAMILY (R28, R237): tag 0, tags 0x83 to 0xFF and every value above 0xFF
name no family; 0x80 to 0x82 are the reference descriptors; 0x01 to 0x7F are open. -/
def familyTable (tag : Word) : Option Descriptor :=
  if tag.toNat = 0 then none
  else if tag.toNat ≤ 0x7F then (Config.openFamily (tag.setWidth 8)).map (·.1)
  else if tag.toNat = 0x80 then some refA
  else if tag.toNat = 0x81 then some refB
  else if tag.toNat = 0x82 then some refC
  else none

/-- The descriptor an engine of a tag that names no family would work under. No reachable state has such an engine
(R150, R192 refuse the tag); it only makes the meanings total (notes/assumptions/5.md). -/
def noDescriptor : Descriptor where
  name := ""
  leadHiUs := 0
  leadLoUs := 0
  l0HiUs := 0
  l0LoUs := 0
  l1HiUs := 0
  l1LoUs := 0
  endHiUs := 0
  hasRepeat := false
  repHiUs := 0
  repLoUs := 0
  hasGap := false
  gapHiUs := 0
  gapLoUs := 0
  template := []
  auxBits := 0
  auxFn := fun _ _ => 0
  checks := []
  copyBypassP := false
  repeatPeriodMs := 0

/-- `D`, the descriptor of a constructed engine: `FAMILY_TABLE(x[FAMILY])` (41_builder.md, 42_parser.md). -/
def descriptorAt (family : Word) : Descriptor := (familyTable family).getD noDescriptor

end Sys2Proof.Machine
end

