-- ==== Sys2Proof/Machine/State.lean ====
section
/-! DEFINITION. The machine's state as plain data: the register files of both ports, the two pulse buffers, and the
host's pending actions; the reset state; the reasons a step can stop. -/

namespace Sys2Proof.Machine

open Sys2Proof

/-- The status codes 0 to 7, in this order (R260, decision D7). Codes 8 to 255 never occur. -/
inductive Status where
  | ok
  | errConfig
  | errFraming
  | errTiming
  | errStruct
  | errNocache
  | errState
  | errUnsupported
  deriving DecidableEq, Repr

/-- The states of the Parser's frame state machine (R30). -/
inductive PState where
  | empty
  | headMatched
  | bitsAccumulating
  | complete
  | failed
  deriving DecidableEq, Repr

/-- What length PINPUT recognised (R23, KIND). -/
inductive FrameKind where
  | none
  | data
  | repeated
  deriving DecidableEq, Repr

/-- The twelve named durations of a FrameTimingProfile (R29), over exact tick counts or over registers. -/
structure Timing (α : Type) where
  leadHi : α
  leadLo : α
  l0Hi : α
  l0Lo : α
  l1Hi : α
  l1Lo : α
  endHi : α
  endLo : α
  repHi : α
  repLo : α
  gapHi : α
  gapLo : α
  deriving DecidableEq, Repr

/-- A profile whose twelve durations are all `x`. -/
def Timing.fill {α : Type} (x : α) : Timing α := ⟨x, x, x, x, x, x, x, x, x, x, x, x⟩

/-- The registers of the builder port BP (R22). COMMAND holds nothing (R21). -/
structure BuilderRegs where
  cfgFamily : Word
  cfgClkHz : Word
  cfgCapacity : Word
  cfgFlags : Word
  arg0 : Word
  arg1 : Word
  status : Status
  result : Word
  cursor : Word
  ready : Bool
  family : Word
  clkHz : Word
  capacity : Word
  flags : BitVec 2
  repeatPeriodMs : Word
  profile : Timing Word
  dataLen : Word
  repeatLen : Word
  caps : Word
  deriving DecidableEq, Repr

/-- The registers of the parser port PP (R23) and the Parser's hidden accumulators (R31). -/
structure ParserRegs where
  cfgFamily : Word
  cfgClkHz : Word
  cfgMarginUs : Word
  cfgFlags : Word
  arg0 : Word
  arg1 : Word
  status : Status
  result : Word
  cursor : Word
  ready : Bool
  family : Word
  clkHz : Word
  margin : Word
  flags : BitVec 2
  pstate : PState
  profile : Timing Word
  dataLen : Word
  repeatLen : Word
  caps : Word
  resAddr : Word
  resCmd : Word
  resAux : Word
  resRepeat : Bool
  bound : Bool
  len : Word
  kind : FrameKind
  lastValid : Bool
  lastAddr : Word
  lastCmd : Word
  /-- ACC_ADDR (R31): not readable; what the last data scan gathered (notes/assumptions/6.md). -/
  accAddr : Word
  /-- ACC_CMD (R31). -/
  accCmd : Word
  /-- ACC_AUX (R31). -/
  accAux : Word
  deriving DecidableEq, Repr

/-- The two pulse buffers (R60). -/
inductive BufferId where
  | tx
  | rx
  deriving DecidableEq, Repr

/-- The written words of a pulse buffer, by word index, indices strictly rising (R60, R62: word-addressed, no byte
view). An index that is not listed has no specified value (R71). -/
abbrev Memory := List (Nat × Word)

/-- One action of the host (R103), and the reset of the block (R290). -/
inductive HostAction where
  /-- `wr port.[index], value`; at the index of COMMAND it issues an operation (R96). -/
  | wr (port : Port) (index : Nat) (value : Word)
  /-- `rd port.[index]`. -/
  | rd (port : Port) (index : Nat)
  /-- `rdb buf[index]`. -/
  | rdb (buf : BufferId) (index : Nat)
  /-- `wrb buf[index], value`. -/
  | wrb (buf : BufferId) (index : Nat) (value : Word)
  /-- `cp RX[0..n) <- TX[0..n)`. -/
  | cp (n : Nat)
  /-- Reset of the block (R290; notes/assumptions/9.md). -/
  | reset
  deriving DecidableEq, Repr

/-- The state of the machine. `host`, `lastRead`, `txEpoch` and `rxEpoch` are the model's own. -/
structure State where
  bp : BuilderRegs
  pp : ParserRegs
  /-- TX, the Builder's pulse buffer (R32). -/
  tx : Memory
  /-- RX, the receive buffer (R32). -/
  rx : Memory
  /-- The model's own: how often TX has become unspecified; the argument of a free value (notes/assumptions/3.md). -/
  txEpoch : Nat
  /-- The model's own: how often the block was reset; the argument of a free value (notes/assumptions/3.md). -/
  rxEpoch : Nat
  /-- The model's own: the host's actions still to come, first one next: the program (R301; notes/assumptions/1.md). -/
  host : List HostAction
  /-- The model's own: what the host's last read returned (notes/assumptions/8.md). -/
  lastRead : Option Word
  deriving DecidableEq, Repr

/-- BP with every register 0 (R34). -/
def BuilderRegs.zero : BuilderRegs where
  cfgFamily := 0
  cfgClkHz := 0
  cfgCapacity := 0
  cfgFlags := 0
  arg0 := 0
  arg1 := 0
  status := .ok
  result := 0
  cursor := 0
  ready := false
  family := 0
  clkHz := 0
  capacity := 0
  flags := 0
  repeatPeriodMs := 0
  profile := Timing.fill 0
  dataLen := 0
  repeatLen := 0
  caps := 0

/-- PP with every register 0 (R34). -/
def ParserRegs.zero : ParserRegs where
  cfgFamily := 0
  cfgClkHz := 0
  cfgMarginUs := 0
  cfgFlags := 0
  arg0 := 0
  arg1 := 0
  status := .ok
  result := 0
  cursor := 0
  ready := false
  family := 0
  clkHz := 0
  margin := 0
  flags := 0
  pstate := .empty
  profile := Timing.fill 0
  dataLen := 0
  repeatLen := 0
  caps := 0
  resAddr := 0
  resCmd := 0
  resAux := 0
  resRepeat := false
  bound := false
  len := 0
  kind := .none
  lastValid := false
  lastAddr := 0
  lastCmd := 0
  accAddr := 0
  accCmd := 0
  accAux := 0

/-- The machine right after reset (R34, R290): every register 0, no buffer word with a specified value, and no host
action pending. -/
def State.reset : State where
  bp := BuilderRegs.zero
  pp := ParserRegs.zero
  tx := []
  rx := []
  txEpoch := 0
  rxEpoch := 0
  host := []
  lastRead := none

/-- The reasons the machine stops. No operation of the block raises one: every failure of an operation is a status
code (R274). -/
inductive Fault where
  /-- Raised by a host `wr` or `rd` of a register index outside the port's register file (R60: BP 0x00 to 0x1F, PP 0x00
  to 0x2F). Safe: the model stops where the spec names no effect (notes/assumptions/7.md). -/
  | noSuchRegister (port : Port) (index : Nat)
  deriving DecidableEq, Repr

/-- The reasons a step is refused. -/
inductive Refusal where
  /-- Raised by an arm of `exec` whose instruction has no meaning yet; safe. No arm of this model raises it. -/
  | notModelled (mnemonic : String)
  deriving DecidableEq, Repr

end Sys2Proof.Machine
end

