-- ==== Sys2Proof/Machine/Ops.lean ====
section
/-! DEFINITION. The operations every meaning shares: buffer memory, port accessors, raising an error and completing an
operation, and the Builder's emit primitive. -/

namespace Sys2Proof.Machine

open Sys2Proof

/-! ## Buffer memory (R60, R63, R71) -/

/-- The word written at an index, if any was. -/
def Memory.read : Memory → Nat → Option Word
  | [], _ => none
  | (j, w) :: m, i => if i = j then some w else Memory.read m i

/-- `MemWrite` (R11): store one word, keeping the indices strictly rising. -/
def Memory.write : Memory → Nat → Word → Memory
  | [], i, v => [(i, v)]
  | (j, w) :: m, i, v =>
    if i < j then (i, v) :: (j, w) :: m
    else if i = j then (i, v) :: m
    else (j, w) :: Memory.write m i v

/-- Store a list of words at consecutive indices, the first at `i`. -/
def Memory.writeAll : Memory → Nat → List Word → Memory
  | m, _, [] => m
  | m, i, v :: vs => Memory.writeAll (Memory.write m i v) (i + 1) vs

/-- The canonical form: indices strictly rising. -/
def Memory.wf : Memory → Bool
  | [] => true
  | [_] => true
  | (i, _) :: (j, w) :: m => decide (i < j) && Memory.wf ((j, w) :: m)

/-- `MemRead(TX, i)` (R11): the word written there, or a free value while none was (R71). -/
def State.txWord (s : State) (i : Nat) : Word := (s.tx.read i).getD (Config.unwrittenTx s.txEpoch i)

/-- `MemRead(RX, i)` (R11): the word written there, or a free value while none was (R71). -/
def State.rxWord (s : State) (i : Nat) : Word := (s.rx.read i).getD (Config.unwrittenRx s.rxEpoch i)

/-! ## Registers both ports have (R22, R23) -/

/-- ARG0 of a port. -/
def State.arg0 (s : State) : Port → Word
  | .bp => s.bp.arg0
  | .pp => s.pp.arg0

/-- ARG1 of a port. -/
def State.arg1 (s : State) : Port → Word
  | .bp => s.bp.arg1
  | .pp => s.pp.arg1

/-- STATUS of a port. -/
def State.statusOf (s : State) : Port → Status
  | .bp => s.bp.status
  | .pp => s.pp.status

/-- RESULT of a port. -/
def State.resultOf (s : State) : Port → Word
  | .bp => s.bp.result
  | .pp => s.pp.result

/-- Write STATUS of a port. -/
def State.setStatus (s : State) (p : Port) (c : Status) : State :=
  match p with
  | .bp => { s with bp := { s.bp with status := c } }
  | .pp => { s with pp := { s.pp with status := c } }

/-- Write RESULT of a port. -/
def State.setResult (s : State) (p : Port) (v : Word) : State :=
  match p with
  | .bp => { s with bp := { s.bp with result := v } }
  | .pp => { s with pp := { s.pp with result := v } }

/-- Write the Builder's CURSOR. -/
def State.setCursor (s : State) (v : Word) : State := { s with bp := { s.bp with cursor := v } }

/-! ## Errors and completion (R263, R272) -/

/-- `raise` (R11, R263), the block's counterpart of taking an exception: the operation stops where it is, the code goes
to the port's STATUS, and nothing else is saved or changed. -/
def raise (p : Port) (c : Status) (s : State) : Host.Outcome State Fault Refusal := .next (s.setStatus p c)

/-- The end of an operation that raised nothing: STATUS becomes OK (R96 "writes STATUS last"). R272: nothing is
returned from; the next command word starts the next operation. -/
def finish (p : Port) (s : State) : Host.Outcome State Fault Refusal := .next (s.setStatus p .ok)

/-- An illegal command word changes nothing but STATUS (R98, R268). -/
def illegalCommand (p : Port) (s : State) : Host.Outcome State Fault Refusal := raise p .errUnsupported s

/-- Part of an operation: it went through, or it raised a status code at some point and what was written before stands (R263). -/
inductive Attempt where
  | done (s : State)
  | raised (c : Status) (s : State)
  deriving DecidableEq, Repr

/-- Go on with the next part unless this one raised an error (R263: "nothing after it is executed"). -/
def Attempt.andThen (a : Attempt) (f : State → Attempt) : Attempt :=
  match a with
  | .done s => f s
  | .raised c s => .raised c s

/-- Complete an operation from its last part. -/
def Attempt.complete (p : Port) : Attempt → Host.Outcome State Fault Refusal
  | .done s => finish p s
  | .raised c s => raise p c s

/-! ## The emit primitive (R151) -/

/-- EMIT(words) (R151): all the words or none, at the cursor, which advances by their number. -/
def emit (ws : List Word) (s : State) : Attempt :=
  let cur := s.bp.cursor.toNat
  if s.bp.capacity.toNat < cur + ws.length then .raised .errState s
  else .done { s with
    tx := s.tx.writeAll cur ws
    bp := { s.bp with cursor := BitVec.ofNat 32 (cur + ws.length) } }

end Sys2Proof.Machine
end

