-- ==== Sys2Proof/Machine/Operands.lean ====
section
/-! DEFINITION. Operand assembly: tick conversion, the profile, bit order of a field, and the pulse record (R90 to R94, R99 to R101, R130 to R134). -/

namespace Sys2Proof.Machine

open Sys2Proof

/-! ## Tick conversion (R130, R133, R134) -/

/-- TICKS(us, hz) (R130): the floor of the exact rational us · hz / 1000000. -/
def ticks (us hz : Nat) : Nat := us * hz / 1000000

/-- The infinite-gap value, END_LO (R29, R94). -/
def infiniteGap : Nat := 0x7FFF

/-- RESOLVE(D, hz) (R133): every named duration of the descriptor in exact ticks. -/
def resolve (d : Descriptor) (hz : Nat) : Timing Nat where
  leadHi := ticks d.leadHiUs.toNat hz
  leadLo := ticks d.leadLoUs.toNat hz
  l0Hi := ticks d.l0HiUs.toNat hz
  l0Lo := ticks d.l0LoUs.toNat hz
  l1Hi := ticks d.l1HiUs.toNat hz
  l1Lo := ticks d.l1LoUs.toNat hz
  endHi := ticks d.endHiUs.toNat hz
  endLo := infiniteGap
  repHi := if d.hasRepeat then ticks d.repHiUs.toNat hz else 0
  repLo := if d.hasRepeat then ticks d.repLoUs.toNat hz else 0
  gapHi := if d.hasGap then ticks d.gapHiUs.toNat hz else 0
  gapLo := if d.hasGap then ticks d.gapLoUs.toNat hz else 0

/-- The used durations of a profile (R134): END_LO is never one, an absent optional duration is not one. -/
def usedDurations (d : Descriptor) (t : Timing Nat) : List Nat :=
  [t.leadHi, t.leadLo, t.l0Hi, t.l0Lo, t.l1Hi, t.l1Lo, t.endHi]
    ++ (if d.hasRepeat then [t.repHi, t.repLo] else [])
    ++ (if d.hasGap then [t.gapHi, t.gapLo] else [])

/-- MAXDUR(P, D) (R134): the largest used duration. -/
def maxDur (d : Descriptor) (t : Timing Nat) : Nat := (usedDurations d t).foldr max 0

/-- The profile registers of a resolved profile (R29). -/
def profileRegs (t : Timing Nat) : Timing Word where
  leadHi := BitVec.ofNat 32 t.leadHi
  leadLo := BitVec.ofNat 32 t.leadLo
  l0Hi := BitVec.ofNat 32 t.l0Hi
  l0Lo := BitVec.ofNat 32 t.l0Lo
  l1Hi := BitVec.ofNat 32 t.l1Hi
  l1Lo := BitVec.ofNat 32 t.l1Lo
  endHi := BitVec.ofNat 32 t.endHi
  endLo := BitVec.ofNat 32 t.endLo
  repHi := BitVec.ofNat 32 t.repHi
  repLo := BitVec.ofNat 32 t.repLo
  gapHi := BitVec.ofNat 32 t.gapHi
  gapLo := BitVec.ofNat 32 t.gapLo

/-! ## The configuration flags (R28) -/

/-- EXT, bit 0 of FLAGS (R28, decision D6). -/
def extFlag (flags : BitVec 2) : Bool := flags.getLsbD 0

/-- INV, bit 1 of FLAGS (R28, decision D6). -/
def invFlag (flags : BitVec 2) : Bool := flags.getLsbD 1

/-! ## Bits of a field (R99) -/

/-- IDX(k, w, order) (R99): which bit of the value travels at wire position `k`. -/
def bitIndex (k w : Nat) : BitOrder → Nat
  | .lsb => k
  | .msb => w - 1 - k

/-- The bits of a field in wire order, complemented when `inv` (R99). -/
def fieldBits (v : Word) (w : Nat) (o : BitOrder) (inv : Bool) : List Bool :=
  (List.range w).map fun k => v.getLsbD (bitIndex k w o) ^^ inv

/-- The operand a field's source selects (R157). -/
def pick (a c q : Word) : Source → Word
  | .addr => a
  | .cmd => c
  | .aux => q

/-! ## The pulse record (R90, R93) -/

/-- The four fields of a pulse record (R90). -/
structure PulseRecord where
  level1 : Bool
  duration1 : BitVec 15
  level0 : Bool
  duration0 : BitVec 15
  deriving DecidableEq, Repr

/-- `word = level1 ## duration1 ## level0 ## duration0` (R90, decision D3: the positions are the spec's own). -/
def recordWord (r : PulseRecord) : Word :=
  BitVec.ofBool r.level1 ++ r.duration1 ++ BitVec.ofBool r.level0 ++ r.duration0

/-- The fields of a word read as a pulse record (R90). -/
def recordOf (w : Word) : PulseRecord where
  level1 := w.getLsbD 31
  duration1 := w.extractLsb' 16 15
  level0 := w.getLsbD 15
  duration0 := w.extractLsb' 0 15

/-- REC(hi, lo, inv) (R93, decision D4): mark level `1 - inv`, space level `inv`. The durations of a constructed
Builder fit 15 bits (R91, R150). -/
def pulseRec (hi lo : Word) (inv : Bool) : Word :=
  recordWord { level1 := inv, duration1 := lo.setWidth 15, level0 := !inv, duration0 := hi.setWidth 15 }

/-- The terminator (R92). -/
def terminator : Word := 0

/-- The head symbol of the constructed Builder (R100). -/
def headSymbol (b : BuilderRegs) : Word := pulseRec b.profile.leadHi b.profile.leadLo (invFlag b.flags)

/-- The logic-0 or logic-1 symbol of the constructed Builder (R100). -/
def bitSymbol (b : BuilderRegs) (bit : Bool) : Word :=
  if bit then pulseRec b.profile.l1Hi b.profile.l1Lo (invFlag b.flags)
  else pulseRec b.profile.l0Hi b.profile.l0Lo (invFlag b.flags)

/-- The gap symbol of the constructed Builder (R100). -/
def gapSymbol (b : BuilderRegs) : Word := pulseRec b.profile.gapHi b.profile.gapLo (invFlag b.flags)

/-- The repeat symbol of the constructed Builder (R100). -/
def repeatSymbol (b : BuilderRegs) : Word := pulseRec b.profile.repHi b.profile.repLo (invFlag b.flags)

/-- The end symbol of the constructed Builder (R94): its space is the infinite-gap value. -/
def endSymbol (b : BuilderRegs) : Word := pulseRec b.profile.endHi (BitVec.ofNat 32 infiniteGap) (invFlag b.flags)

end Sys2Proof.Machine
end

