-- ==== Sys2Proof/Machine/Flags.lean ====
section
/-! DEFINITION. Codes and tests: status and state codes, the margin comparator, bit classification and the structural
checks (R159, R190, R195, R196, R201, R260). -/

namespace Sys2Proof.Machine

open Sys2Proof

/-! ## Codes the host reads (R23, R27, R30, R260) -/

/-- The number of a status code (R260). -/
def Status.code : Status → Word
  | .ok => 0
  | .errConfig => 1
  | .errFraming => 2
  | .errTiming => 3
  | .errStruct => 4
  | .errNocache => 5
  | .errState => 6
  | .errUnsupported => 7

/-- The number of a Parser state (R30). -/
def PState.code : PState → Word
  | .empty => 0
  | .headMatched => 1
  | .bitsAccumulating => 2
  | .complete => 3
  | .failed => 4

/-- The number KIND reads as (R23). -/
def FrameKind.code : FrameKind → Word
  | .none => 0
  | .data => 1
  | .repeated => 2

/-- A one-bit register as the host reads it: the bit in position 0. -/
def bitWord (b : Bool) : Word := if b then 1 else 0

/-! ## The margin comparator (R190, R191, R195, R196) -/

/-- MATCH(raw, target, m) (R190): a strict open interval over the mathematical integers (R191). -/
def matchTicks (raw target m : Nat) : Bool :=
  decide ((target : Int) - m < raw) && decide ((raw : Int) < target + m)

/-- SYM_MATCH(w, hi, lo) (R195) under the Parser's polarity and margin. -/
def symMatch (p : ParserRegs) (w hi lo : Word) : Bool :=
  (recordOf w).level0 == !(invFlag p.flags) && (recordOf w).level1 == invFlag p.flags
    && matchTicks (recordOf w).duration0.toNat hi.toNat p.margin.toNat
    && matchTicks (recordOf w).duration1.toNat lo.toNat p.margin.toNat

/-- CLASSIFY(w) (R196): the logic-0 template first, then the logic-1 template (decision D12). -/
def classify (p : ParserRegs) (w : Word) : Option Bool :=
  if symMatch p w p.profile.l0Hi p.profile.l0Lo then some false
  else if symMatch p w p.profile.l1Hi p.profile.l1Lo then some true
  else none

/-! ## Structural checks (R159, R201, R235) -/

/-- `NOT_h(v)` (R11). -/
def notBits (h v : Nat) : Nat := (2 ^ h - 1) - v

/-- INV_HALVES of a value (R235): `v[h-1:0] = NOT_h(v[2h-1:h])`. -/
def halvesComplement (h : Nat) (v : Word) : Bool := v.toNat % 2 ^ h == notBits h (v.toNat / 2 ^ h % 2 ^ h)

/-- The operand a check looks at (R159, R201): the address for ADDR, else the command. -/
def checkedOperand (a c : Word) : Source → Word
  | .addr => a
  | .cmd => c
  | .aux => c

/-- One check of CHECKS_B (R159): only an active INV_HALVES can fail. -/
def builderCheck (ext : Bool) (a c : Word) : Check → Bool
  | .invHalves src h bypassB _ => (ext && bypassB) || halvesComplement h (checkedOperand a c src)
  | .auxMatch _ => true

/-- CHECKS_B(D, EXT, a, c) (R159). -/
def checksB (d : Descriptor) (ext : Bool) (a c : Word) : Bool := d.checks.all (builderCheck ext a c)

/-- One check of CHECKS_P (R201). -/
def parserCheck (d : Descriptor) (ext : Bool) (a c q : Word) : Check → Bool
  | .invHalves src h _ bypassP => (ext && bypassP) || halvesComplement h (checkedOperand a c src)
  | .auxMatch bypassP => (ext && bypassP) || q == auxValue d a c

/-- CHECKS_P(D, EXT, a, c, q, copy_bad) (R201): the copy check, then the checks. -/
def checksP (d : Descriptor) (ext : Bool) (a c q : Word) (copyBad : Bool) : Bool :=
  (!copyBad || (ext && d.copyBypassP)) && d.checks.all (parserCheck d ext a c q)

end Sys2Proof.Machine
end

