-- ==== Sys2Proof/Machine/Builder.lean ====
section
/-! DEFINITION. The Builder engine: BNEW, BDEL, the make steps, BFRAME, BREPEAT, BRESULT (R150 to R162). -/

namespace Sys2Proof.Machine

open Sys2Proof

/-- `D` of the constructed Builder (41_builder.md). -/
def builderDescriptor (s : State) : Descriptor := descriptorAt s.bp.family

/-! ## Construction and release -/

/-- BP after a successful construction (R150). -/
def constructBuilder (d : Descriptor) (b : BuilderRegs) : BuilderRegs :=
  { b with
    family := b.cfgFamily
    clkHz := b.cfgClkHz
    capacity := b.cfgCapacity
    flags := b.cfgFlags.setWidth 2
    profile := profileRegs (resolve d b.cfgClkHz.toNat)
    dataLen := BitVec.ofNat 32 (dataLen d)
    repeatLen := BitVec.ofNat 32 (repeatLen d)
    caps := capsWord d
    repeatPeriodMs := d.repeatPeriodMs
    cursor := 0
    result := 0
    ready := true }

/-- TX with contents unspecified (R35, R150, R71). -/
def forgetTx (s : State) : State := { s with tx := [], txEpoch := s.txEpoch + 1 }

/-- BNEW (R150). -/
def execBnew (s : State) : Host.Outcome State Fault Refusal :=
  if s.bp.ready then raise .bp .errState s
  else
    match familyTable s.bp.cfgFamily with
    | none => raise .bp .errConfig s
    | some d =>
      if s.bp.cfgClkHz = 0 then raise .bp .errConfig s
      else if s.bp.cfgCapacity = 0 then raise .bp .errConfig s
      else if s.bp.cfgCapacity.toNat < dataLen d || !Config.fitsTx s.bp.cfgCapacity.toNat then
        raise .bp .errConfig s
      else if 0x7FFF < maxDur d (resolve d s.bp.cfgClkHz.toNat) then raise .bp .errConfig s
      else finish .bp { forgetTx s with bp := constructBuilder d s.bp }

/-- BP after release: all 0 but the staging, operand and STATUS registers (R34, R35). -/
def releaseBuilder (b : BuilderRegs) : BuilderRegs :=
  { BuilderRegs.zero with
    cfgFamily := b.cfgFamily
    cfgClkHz := b.cfgClkHz
    cfgCapacity := b.cfgCapacity
    cfgFlags := b.cfgFlags
    arg0 := b.arg0
    arg1 := b.arg1
    status := b.status }

/-- BDEL (R162). -/
def execBdel (s : State) : Host.Outcome State Fault Refusal :=
  if s.bp.ready then finish .bp { forgetTx s with bp := releaseBuilder s.bp }
  else raise .bp .errState s

/-! ## Make steps -/

/-- What every BP operation on a constructed Builder begins with: StateError unless READY (R267). -/
def whenReady (s : State) (a : Attempt) : Host.Outcome State Fault Refusal :=
  if s.bp.ready then a.complete .bp else raise .bp .errState s

/-- The head step (R152): the cursor is reset, then the head symbol emitted. -/
def emitHead (s : State) : Attempt := emit [headSymbol s.bp] (s.setCursor 0)

/-- The end step (R155): the end symbol and the terminator, both or neither. -/
def emitEnd (s : State) : Attempt := emit [endSymbol s.bp, terminator] s

/-- MKHEAD (R152). -/
def execMkhead (s : State) : Host.Outcome State Fault Refusal := whenReady s (emitHead s)

/-- MKL0 (R153). -/
def execMkl0 (s : State) : Host.Outcome State Fault Refusal := whenReady s (emit [bitSymbol s.bp false] s)

/-- MKL1 (R154). -/
def execMkl1 (s : State) : Host.Outcome State Fault Refusal := whenReady s (emit [bitSymbol s.bp true] s)

/-- MKEND (R155). -/
def execMkend (s : State) : Host.Outcome State Fault Refusal := whenReady s (emitEnd s)

/-- MKGAP (R156): UnsupportedError for a family with no gap symbol. -/
def execMkgap (s : State) : Host.Outcome State Fault Refusal :=
  whenReady s
    (if (builderDescriptor s).hasGap then emit [gapSymbol s.bp] s else .raised .errUnsupported s)

/-! ## Frames -/

/-- EMIT_FIELD (R158): one symbol per bit, in wire order. -/
def emitBits : List Bool → State → Attempt
  | [], s => .done s
  | b :: bs, s => (emit [bitSymbol s.bp b] s).andThen (emitBits bs)

/-- Emit one segment of the template (R157). -/
def emitSegment (a c q : Word) : Segment → State → Attempt
  | .head, s => emitHead s
  | .field src w o inv, s => emitBits (fieldBits (pick a c q src) w o inv) s
  | .gap, s => emit [gapSymbol s.bp] s
  | .endMark, s => emitEnd s

/-- Emit the segments of a template in order (R157). -/
def emitTemplate (a c q : Word) : List Segment → State → Attempt
  | [], s => .done s
  | g :: gs, s => (emitSegment a c q g s).andThen (emitTemplate a c q gs)

/-- The address of BFRAME, reduced to `w_addr` bits (R157). -/
def frameAddr (s : State) : Word := lowBits (fieldWidth (builderDescriptor s).template .addr) s.bp.arg0

/-- The command of BFRAME, reduced to `w_cmd` bits (R157). -/
def frameCmd (s : State) : Word := lowBits (fieldWidth (builderDescriptor s).template .cmd) s.bp.arg1

/-- The aux value of an address and a command, 0 for a family with no aux field (R157). -/
def frameAux (d : Descriptor) (a c : Word) : Word := if 0 < d.auxBits then auxValue d a c else 0

/-- BFRAME (R157): all checks before the first write. -/
def execBframe (s : State) : Host.Outcome State Fault Refusal :=
  whenReady s
    (if checksB (builderDescriptor s) (extFlag s.bp.flags) (frameAddr s) (frameCmd s) then
      emitTemplate (frameAddr s) (frameCmd s) (frameAux (builderDescriptor s) (frameAddr s) (frameCmd s))
        (builderDescriptor s).template s
    else .raised .errStruct s)

/-- BREPEAT (R160): repeat symbol in the head's place, then the end step. -/
def execBrepeat (s : State) : Host.Outcome State Fault Refusal :=
  whenReady s
    (if (builderDescriptor s).hasRepeat then
      (emit [repeatSymbol s.bp] (s.setCursor 0)).andThen emitEnd
    else .raised .errUnsupported s)

/-- BRESULT (R161): RESULT becomes the cursor. -/
def execBresult (s : State) : Host.Outcome State Fault Refusal :=
  whenReady s (.done (s.setResult .bp s.bp.cursor))

end Sys2Proof.Machine
end

