-- ==== Sys2Proof/Machine/Converter.lean ====
section
/-! DEFINITION. The Tick Converter's operation CONV (R132). -/

namespace Sys2Proof.Machine

open Sys2Proof

/-- CONV (R132), on the port it was written to: RESULT becomes TICKS(ARG0, ARG1). -/
def execConv (p : Port) (s : State) : Host.Outcome State Fault Refusal :=
  if s.arg1 p = 0 then raise p .errConfig s
  else if 0xFFFFFFFF < ticks (s.arg0 p).toNat (s.arg1 p).toNat then raise p .errConfig s
  else finish p (s.setResult p (BitVec.ofNat 32 (ticks (s.arg0 p).toNat (s.arg1 p).toNat)))

end Sys2Proof.Machine
end

