-- ==== Sys2Proof/Machine/Parser.lean ====
section
/-! DEFINITION. The Parser engine: PNEW, PDEL, PINPUT, PSCAN (R192 to R204). -/

namespace Sys2Proof.Machine

open Sys2Proof

/-- `D` of the constructed Parser (42_parser.md). -/
def parserDescriptor (s : State) : Descriptor := descriptorAt s.pp.family

/-! ## Construction and release -/

/-- PP after a successful construction (R192). RESULT is not among the registers it writes. -/
def constructParser (d : Descriptor) (p : ParserRegs) : ParserRegs :=
  { p with
    family := p.cfgFamily
    clkHz := p.cfgClkHz
    flags := p.cfgFlags.setWidth 2
    profile := profileRegs (resolve d p.cfgClkHz.toNat)
    margin := BitVec.ofNat 32 (ticks p.cfgMarginUs.toNat p.cfgClkHz.toNat)
    dataLen := BitVec.ofNat 32 (dataLen d)
    repeatLen := BitVec.ofNat 32 (repeatLen d)
    caps := capsWord d
    pstate := .empty
    cursor := 0
    bound := false
    len := 0
    kind := .none
    lastValid := false
    lastAddr := 0
    lastCmd := 0
    resAddr := 0
    resCmd := 0
    resAux := 0
    resRepeat := false
    ready := true }

/-- PNEW (R192). -/
def execPnew (s : State) : Host.Outcome State Fault Refusal :=
  if s.pp.ready then raise .pp .errState s
  else
    match familyTable s.pp.cfgFamily with
    | none => raise .pp .errConfig s
    | some d =>
      if s.pp.cfgClkHz = 0 then raise .pp .errConfig s
      else if 0xFFFFFFFF < maxDur d (resolve d s.pp.cfgClkHz.toNat)
          || 0xFFFFFFFF < ticks s.pp.cfgMarginUs.toNat s.pp.cfgClkHz.toNat then
        raise .pp .errConfig s
      else finish .pp { s with pp := constructParser d s.pp }

/-- PP after release: all 0 but the staging, operand and STATUS registers (R34, R35). The accumulators are no
registers of R35's list and keep what they hold (notes/assumptions/6.md). -/
def releaseParser (p : ParserRegs) : ParserRegs :=
  { ParserRegs.zero with
    cfgFamily := p.cfgFamily
    cfgClkHz := p.cfgClkHz
    cfgMarginUs := p.cfgMarginUs
    cfgFlags := p.cfgFlags
    arg0 := p.arg0
    arg1 := p.arg1
    status := p.status
    accAddr := p.accAddr
    accCmd := p.accCmd
    accAux := p.accAux }

/-- PDEL (R193): RX is not touched. -/
def execPdel (s : State) : Host.Outcome State Fault Refusal :=
  if s.pp.ready then finish .pp { s with pp := releaseParser s.pp }
  else raise .pp .errState s

/-! ## Framing -/

/-- PP once PINPUT has started (R194): Empty, nothing bound. -/
def unbind (p : ParserRegs) : ParserRegs :=
  { p with pstate := .empty, bound := false, kind := .none, len := 0, cursor := 0 }

/-- The frame kind a length stands for in a family (R194): its DATA_LEN, or its REPEAT_LEN where it has a repeat frame. -/
def kindOfLength (d : Descriptor) (n : Nat) : Option FrameKind :=
  if n = dataLen d then some .data
  else if d.hasRepeat && n == repeatLen d then some .repeated
  else none

/-- PINPUT (R194): it validates the length and reads nothing of RX. -/
def execPinput (s : State) : Host.Outcome State Fault Refusal :=
  if s.pp.ready then
    match kindOfLength (parserDescriptor s) s.pp.arg0.toNat with
    | some k => finish .pp { s with pp := { unbind s.pp with kind := k, len := s.pp.arg0, bound := true } }
    | none => raise .pp .errFraming { s with pp := { unbind s.pp with pstate := .failed } }
  else raise .pp .errState s

/-! ## The walk over a data frame (R199, R200) -/

/-- What a scan carries from record to record: the cursor, the frame state, the first value read for each source
(`first` of R199) and whether a copy differed. -/
structure Walk where
  cursor : Nat
  pstate : PState
  addr : Option Word
  cmd : Option Word
  aux : Option Word
  copyBad : Bool
  deriving DecidableEq, Repr

/-- Where a scan begins (R198): cursor 0, nothing read; PSTATE is what it is. -/
def Walk.start (p : ParserRegs) : Walk :=
  { cursor := 0, pstate := p.pstate, addr := none, cmd := none, aux := none, copyBad := false }

/-- A walk goes on, or ends at a record that matches no template expected there (R199). -/
inductive WalkResult where
  | matched (k : Walk)
  | mismatch (k : Walk)
  deriving DecidableEq, Repr

/-- Go on with the walk unless a record did not match (R206). -/
def WalkResult.andThen (r : WalkResult) (f : Walk → WalkResult) : WalkResult :=
  match r with
  | .matched k => f k
  | .mismatch k => .mismatch k

/-- The walk after reading one record: the cursor is one further (R24). -/
def Walk.advance (k : Walk) : Walk := { k with cursor := k.cursor + 1 }

/-- The walk ended by a record that did not match: PSTATE Failed (R203). -/
def Walk.fail (k : Walk) : WalkResult := .mismatch { k with pstate := .failed }

/-- The value already read for a source, `first[src]` (R199). -/
def Walk.first (k : Walk) : Source → Option Word
  | .addr => k.addr
  | .cmd => k.cmd
  | .aux => k.aux

/-- Record the value of a field: the first of a source is kept, a later one is compared (R199). -/
def Walk.record (k : Walk) (src : Source) (v : Word) : Walk :=
  match k.first src with
  | some u => if v ≠ u then { k with copyBad := true } else k
  | none =>
    match src with
    | .addr => { k with addr := some v }
    | .cmd => { k with cmd := some v }
    | .aux => { k with aux := some v }

/-- Bit `i` of a word set to `b`, for a bit that is still 0 (R200). -/
def placeBit (v : Word) (i : Nat) (b : Bool) : Word := v ||| (if b then BitVec.ofNat 32 (2 ^ i) else 0)

/-- The value read from one field, with the walk, or the walk ended by a mismatch. -/
inductive FieldResult where
  | value (v : Word) (k : Walk)
  | mismatch (k : Walk)
  deriving DecidableEq, Repr

/-- DECODE_FIELD (R200) from wire position `pos` on, `n` positions to go, `v` the bits placed so far. -/
def decodeBits (s : State) (w : Nat) (o : BitOrder) (inv : Bool) : (n pos : Nat) → Word → Walk → FieldResult
  | 0, _, v, k => .value v k
  | n + 1, pos, v, k =>
    match classify s.pp (s.rxWord k.cursor) with
    | none => .mismatch k.advance
    | some b =>
      decodeBits s w o inv n (pos + 1) (placeBit v (bitIndex pos w o) (b ^^ inv))
        { k.advance with pstate := .bitsAccumulating }

/-- DECODE_FIELD(w, order, inv) (R200). -/
def decodeField (s : State) (w : Nat) (o : BitOrder) (inv : Bool) (k : Walk) : FieldResult :=
  decodeBits s w o inv w 0 0 k

/-- One segment of the walk (R199). Nothing is read for END (R204). -/
def walkSegment (s : State) : Segment → Walk → WalkResult
  | .head, k =>
    if symMatch s.pp (s.rxWord k.cursor) s.pp.profile.leadHi s.pp.profile.leadLo then
      .matched { k.advance with pstate := .headMatched }
    else k.advance.fail
  | .field src w o inv, k =>
    match decodeField s w o inv k with
    | .value v k' => .matched (k'.record src v)
    | .mismatch k' => k'.fail
  | .gap, k =>
    if symMatch s.pp (s.rxWord k.cursor) s.pp.profile.gapHi s.pp.profile.gapLo then .matched k.advance
    else k.advance.fail
  | .endMark, k => .matched k

/-- The segments of a template in order (R199). -/
def walkTemplate (s : State) : List Segment → Walk → WalkResult
  | [], k => .matched k
  | g :: gs, k => (walkSegment s g k).andThen (walkTemplate s gs)

/-- PP after the walk of a data scan: the cursor, PSTATE and the accumulators are the walk's. -/
def withWalk (p : ParserRegs) (k : Walk) : ParserRegs :=
  { p with
    cursor := BitVec.ofNat 32 k.cursor
    pstate := k.pstate
    accAddr := k.addr.getD 0
    accCmd := k.cmd.getD 0
    accAux := k.aux.getD 0 }

/-- The aux value of a walk, 0 for a family with no aux field (R199). -/
def walkAux (d : Descriptor) (k : Walk) : Word := if 0 < d.auxBits then k.aux.getD 0 else 0

/-- SCAN_DATA (R199): the status it returns and PP after it. -/
def scanData (s : State) : Status × ParserRegs :=
  match walkTemplate s (parserDescriptor s).template (Walk.start s.pp) with
  | .mismatch k => (.errTiming, withWalk s.pp k)
  | .matched k =>
    if checksP (parserDescriptor s) (extFlag s.pp.flags) (k.addr.getD 0) (k.cmd.getD 0)
        (walkAux (parserDescriptor s) k) k.copyBad then
      (.ok, { withWalk s.pp k with
        resAddr := k.addr.getD 0
        resCmd := k.cmd.getD 0
        resAux := walkAux (parserDescriptor s) k
        resRepeat := false
        lastAddr := k.addr.getD 0
        lastCmd := k.cmd.getD 0
        lastValid := true
        pstate := .complete })
    else (.errStruct, { withWalk s.pp k with pstate := .failed })

/-- SCAN_REPEAT (R197): the timing is validated before the cache is consulted. -/
def scanRepeat (s : State) : Status × ParserRegs :=
  if symMatch s.pp (s.rxWord 0) s.pp.profile.repHi s.pp.profile.repLo then
    if s.pp.lastValid then
      (.ok, { s.pp with
        cursor := 1
        resAddr := s.pp.lastAddr
        resCmd := s.pp.lastCmd
        resAux := 0
        resRepeat := true
        pstate := .complete })
    else (.errNocache, { s.pp with cursor := 1, pstate := .failed })
  else (.errTiming, { s.pp with cursor := 1, pstate := .failed })

/-- The scan a bound buffer's kind calls for (R198). -/
def scan (s : State) : Status × ParserRegs :=
  match s.pp.kind with
  | .repeated => scanRepeat s
  | .data => scanData s
  | .none => scanData s

/-- PSCAN (R198): the borrow ends whatever the scan returns. -/
def execPscan (s : State) : Host.Outcome State Fault Refusal :=
  if s.pp.ready && s.pp.bound then
    .next (({ s with pp := { (scan s).2 with bound := false } } : State).setStatus .pp (scan s).1)
  else raise .pp .errState s

end Sys2Proof.Machine
end

