-- ==== Sys2Proof/Machine/Dispatch.lean ====
section
/-! DEFINITION. One arm per operation of the opcode table. -/

namespace Sys2Proof.Machine

open Sys2Proof

def exec (i : Instr) (s : State) : Host.Outcome State Fault Refusal :=
  match i with
  | .conv p => Sys2Proof.Machine.execConv p s
  | .bnew => Sys2Proof.Machine.execBnew s
  | .bdel => Sys2Proof.Machine.execBdel s
  | .mkhead => Sys2Proof.Machine.execMkhead s
  | .mkl0 => Sys2Proof.Machine.execMkl0 s
  | .mkl1 => Sys2Proof.Machine.execMkl1 s
  | .mkend => Sys2Proof.Machine.execMkend s
  | .mkgap => Sys2Proof.Machine.execMkgap s
  | .bframe => Sys2Proof.Machine.execBframe s
  | .brepeat => Sys2Proof.Machine.execBrepeat s
  | .bresult => Sys2Proof.Machine.execBresult s
  | .pnew => Sys2Proof.Machine.execPnew s
  | .pdel => Sys2Proof.Machine.execPdel s
  | .pinput => Sys2Proof.Machine.execPinput s
  | .pscan => Sys2Proof.Machine.execPscan s

end Sys2Proof.Machine
end

