-- ==== Sys2Proof/Machine/HostPort.lean ====
section
/-! DEFINITION. What the host can do: register and buffer accesses, issuing a command word, reset (R21 to R23, R63, R96, R98, R103). -/

namespace Sys2Proof.Machine

open Sys2Proof

/-- The index of COMMAND on both ports (R22, R23). -/
def commandIndex : Nat := 0x06

/-- A register of BP as the host reads it (R21, R22); nothing beyond the register file. -/
def readBp (b : BuilderRegs) (index : Nat) : Option Word :=
  match index with
  | 0x00 => some b.cfgFamily
  | 0x01 => some b.cfgClkHz
  | 0x02 => some b.cfgCapacity
  | 0x03 => some b.cfgFlags
  | 0x04 => some b.arg0
  | 0x05 => some b.arg1
  | 0x06 => some 0
  | 0x07 => some b.status.code
  | 0x08 => some b.result
  | 0x09 => some b.cursor
  | 0x0A => some (bitWord b.ready)
  | 0x0B => some b.family
  | 0x0C => some b.clkHz
  | 0x0D => some b.capacity
  | 0x0E => some (b.flags.setWidth 32)
  | 0x0F => some b.repeatPeriodMs
  | 0x10 => some b.profile.leadHi
  | 0x11 => some b.profile.leadLo
  | 0x12 => some b.profile.l0Hi
  | 0x13 => some b.profile.l0Lo
  | 0x14 => some b.profile.l1Hi
  | 0x15 => some b.profile.l1Lo
  | 0x16 => some b.profile.endHi
  | 0x17 => some b.profile.endLo
  | 0x18 => some b.profile.repHi
  | 0x19 => some b.profile.repLo
  | 0x1A => some b.profile.gapHi
  | 0x1B => some b.profile.gapLo
  | 0x1C => some b.dataLen
  | 0x1D => some b.repeatLen
  | 0x1E => some b.caps
  | 0x1F => some 0
  | _ => none

/-- A register of PP as the host reads it (R21, R23); nothing beyond the register file. -/
def readPp (p : ParserRegs) (index : Nat) : Option Word :=
  match index with
  | 0x00 => some p.cfgFamily
  | 0x01 => some p.cfgClkHz
  | 0x02 => some p.cfgMarginUs
  | 0x03 => some p.cfgFlags
  | 0x04 => some p.arg0
  | 0x05 => some p.arg1
  | 0x06 => some 0
  | 0x07 => some p.status.code
  | 0x08 => some p.result
  | 0x09 => some p.cursor
  | 0x0A => some (bitWord p.ready)
  | 0x0B => some p.family
  | 0x0C => some p.clkHz
  | 0x0D => some p.margin
  | 0x0E => some (p.flags.setWidth 32)
  | 0x0F => some p.pstate.code
  | 0x10 => some p.profile.leadHi
  | 0x11 => some p.profile.leadLo
  | 0x12 => some p.profile.l0Hi
  | 0x13 => some p.profile.l0Lo
  | 0x14 => some p.profile.l1Hi
  | 0x15 => some p.profile.l1Lo
  | 0x16 => some p.profile.endHi
  | 0x17 => some p.profile.endLo
  | 0x18 => some p.profile.repHi
  | 0x19 => some p.profile.repLo
  | 0x1A => some p.profile.gapHi
  | 0x1B => some p.profile.gapLo
  | 0x1C => some p.dataLen
  | 0x1D => some p.repeatLen
  | 0x1E => some p.caps
  | 0x1F => some 0
  | 0x20 => some p.resAddr
  | 0x21 => some p.resCmd
  | 0x22 => some p.resAux
  | 0x23 => some (bitWord p.resRepeat)
  | 0x24 => some (bitWord p.bound)
  | 0x25 => some p.len
  | 0x26 => some p.kind.code
  | 0x27 => some (bitWord p.lastValid)
  | 0x28 => some p.lastAddr
  | 0x29 => some p.lastCmd
  | 0x2A => some 0
  | 0x2B => some 0
  | 0x2C => some 0
  | 0x2D => some 0
  | 0x2E => some 0
  | 0x2F => some 0
  | _ => none

/-- A register as the host reads it (R21); nothing beyond the port's register file. -/
def readReg (p : Port) (index : Nat) (s : State) : Option Word :=
  match p with
  | .bp => readBp s.bp index
  | .pp => readPp s.pp index

/-- Whether a port's register file has an index (R60). -/
def hasRegister (p : Port) (index : Nat) : Bool :=
  match p with
  | .bp => decide (index < 0x20)
  | .pp => decide (index < 0x30)

/-- BP after the host writes an index: the read-write registers store, all others ignore it (R21, R22). -/
def writeBp (b : BuilderRegs) (index : Nat) (v : Word) : BuilderRegs :=
  match index with
  | 0x00 => { b with cfgFamily := v }
  | 0x01 => { b with cfgClkHz := v }
  | 0x02 => { b with cfgCapacity := v }
  | 0x03 => { b with cfgFlags := v }
  | 0x04 => { b with arg0 := v }
  | 0x05 => { b with arg1 := v }
  | _ => b

/-- PP after the host writes an index: the read-write registers store, all others ignore it (R21, R23). -/
def writePp (p : ParserRegs) (index : Nat) (v : Word) : ParserRegs :=
  match index with
  | 0x00 => { p with cfgFamily := v }
  | 0x01 => { p with cfgClkHz := v }
  | 0x02 => { p with cfgMarginUs := v }
  | 0x03 => { p with cfgFlags := v }
  | 0x04 => { p with arg0 := v }
  | 0x05 => { p with arg1 := v }
  | _ => p

/-- The state after the host writes a register other than COMMAND (R21). -/
def writeReg (p : Port) (index : Nat) (v : Word) (s : State) : State :=
  match p with
  | .bp => { s with bp := writeBp s.bp index v }
  | .pp => { s with pp := writePp s.pp index v }

/-- A buffer word as the host reads it: 0 at and above the buffer's size (R63). -/
def hostReadBuffer (b : BufferId) (i : Nat) (s : State) : Word :=
  match b with
  | .tx => if Config.fitsTx (i + 1) then s.txWord i else 0
  | .rx => if Config.fitsRx (i + 1) then s.rxWord i else 0

/-- The state after the host writes a buffer word: TX is read-only to the host, and a write at or above RX_CAP is
ignored (R63, R67). -/
def hostWriteBuffer (b : BufferId) (i : Nat) (v : Word) (s : State) : State :=
  match b with
  | .tx => s
  | .rx => if Config.fitsRx (i + 1) then { s with rx := s.rx.write i v } else s

/-- `cp RX[0..n) <- TX[0..n)` (R103): word by word, index 0 first. -/
def copyTxToRx : Nat → State → State
  | 0, s => s
  | n + 1, s =>
    let t := copyTxToRx n s
    hostWriteBuffer .rx n (hostReadBuffer .tx n t) t

/-- Reset of the block (R34, R290): registers 0, buffers unspecified; the host and what it read are not the block's. -/
def resetBlock (s : State) : State :=
  { State.reset with
    txEpoch := s.txEpoch + 1
    rxEpoch := s.rxEpoch + 1
    host := s.host
    lastRead := s.lastRead }

/-- The host writes a command word to a port's COMMAND register (R96): the operation it names runs to completion; an
illegal word changes nothing but STATUS (R98). -/
def issue (p : Port) (w : Word) (s : State) : Host.Outcome State Fault Refusal :=
  match decode p w with
  | .ok i => exec i s
  | .error _ => illegalCommand p s

/-- What one host action does (R21, R96, R103). -/
def perform (a : HostAction) (s : State) : Host.Outcome State Fault Refusal :=
  match a with
  | .wr p i v =>
    if i = commandIndex then issue p v s
    else if hasRegister p i then .next (writeReg p i v s)
    else .fault (.noSuchRegister p i)
  | .rd p i =>
    match readReg p i s with
    | some v => .next { s with lastRead := some v }
    | none => .fault (.noSuchRegister p i)
  | .rdb b i => .next { s with lastRead := some (hostReadBuffer b i s) }
  | .wrb b i v => .next (hostWriteBuffer b i v s)
  | .cp n => .next (copyTxToRx n s)
  | .reset => .next (resetBlock s)

/-- The state with an action put before the host's pending ones. -/
def withNextAction (a : HostAction) (s : State) : State := { s with host := a :: s.host }

end Sys2Proof.Machine
end

