-- ==== Sys2Proof/Machine/Step.lean ====
section
/-! DEFINITION. One step of the machine: the host's next action (R96, R301). -/

namespace Sys2Proof.Machine

open Sys2Proof

/-- One step: the host's next pending action is taken and performed. With none pending the block is idle and keeps all
its state (R279, R290; notes/assumptions/10.md). -/
def step (s : State) : Host.Outcome State Fault Refusal :=
  match s.host with
  | [] => .next s
  | a :: rest => perform a { s with host := rest }

/-- `s` with the command word of an opcode-table row as the host's next action: the write of that word to COMMAND of the
port its opcode belongs to (R96; notes/assumptions/1.md and 12.md). -/
def State.withFetchWord (s : State) (nbits w : Nat) : State :=
  withNextAction (.wr (tablePort (tableWord nbits w)) commandIndex (tableWord nbits w)) s

end Sys2Proof.Machine
end

