-- ==== Sys2Proof/Safety.lean ====
section
/-! DEFINITION. What claims about the machine are stated in: the invariant, what an operation writes, the words of a
frame and the records a Parser accepts in their place. -/

namespace Sys2Proof.Machine

open Sys2Proof

/-! ## The invariant of reachable states -/

/-- An unconstructed Builder (R34, R35): everything a construction writes is 0, but RESULT, which CONV writes too. -/
structure BuilderIdle (b : BuilderRegs) : Prop where
  cursor : b.cursor = 0
  family : b.family = 0
  clkHz : b.clkHz = 0
  capacity : b.capacity = 0
  flags : b.flags = 0
  repeatPeriodMs : b.repeatPeriodMs = 0
  profile : b.profile = Timing.fill 0
  dataLen : b.dataLen = 0
  repeatLen : b.repeatLen = 0
  caps : b.caps = 0

/-- A Builder constructed for descriptor `d` (R25, R29, R33, R91, R150). -/
structure BuilderBuilt (b : BuilderRegs) (d : Descriptor) : Prop where
  family : familyTable b.family = some d
  clkHz : b.clkHz ≠ 0
  frameFits : dataLen d ≤ b.capacity.toNat
  capacityFits : b.capacity.toNat ≤ Config.txCap
  cursorFits : b.cursor.toNat ≤ b.capacity.toNat
  profile : b.profile = profileRegs (resolve d b.clkHz.toNat)
  durations : maxDur d (resolve d b.clkHz.toNat) ≤ 0x7FFF
  dataLen : b.dataLen.toNat = dataLen d
  repeatLen : b.repeatLen.toNat = repeatLen d
  caps : b.caps = capsWord d
  repeatPeriodMs : b.repeatPeriodMs = d.repeatPeriodMs

/-- The Builder is unconstructed and 0, or constructed for a descriptor of the table. -/
def BuilderInv (b : BuilderRegs) : Prop :=
  (b.ready = false → BuilderIdle b) ∧ (b.ready = true → ∃ d, BuilderBuilt b d)

/-- An unconstructed Parser (R34, R35): everything a construction writes is 0. -/
structure ParserIdle (p : ParserRegs) : Prop where
  cursor : p.cursor = 0
  family : p.family = 0
  clkHz : p.clkHz = 0
  margin : p.margin = 0
  flags : p.flags = 0
  pstate : p.pstate = .empty
  profile : p.profile = Timing.fill 0
  dataLen : p.dataLen = 0
  repeatLen : p.repeatLen = 0
  caps : p.caps = 0
  resAddr : p.resAddr = 0
  resCmd : p.resCmd = 0
  resAux : p.resAux = 0
  resRepeat : p.resRepeat = false
  bound : p.bound = false
  len : p.len = 0
  kind : p.kind = .none
  lastValid : p.lastValid = false
  lastAddr : p.lastAddr = 0
  lastCmd : p.lastCmd = 0

/-- A Parser constructed for descriptor `d` (R29, R33, R192, R203), with nothing bound or with a bound buffer of one of
the family's two lengths (R194). -/
structure ParserBuilt (p : ParserRegs) (d : Descriptor) : Prop where
  family : familyTable p.family = some d
  clkHz : p.clkHz ≠ 0
  profile : p.profile = profileRegs (resolve d p.clkHz.toNat)
  durations : maxDur d (resolve d p.clkHz.toNat) ≤ 0xFFFFFFFF
  dataLen : p.dataLen.toNat = dataLen d
  repeatLen : p.repeatLen.toNat = repeatLen d
  caps : p.caps = capsWord d
  pstate : p.pstate = .empty ∨ p.pstate = .complete ∨ p.pstate = .failed
  lengths : p.kind = .data ∧ p.len.toNat = Machine.dataLen d
    ∨ p.kind = .repeated ∧ d.hasRepeat = true ∧ p.len.toNat = Machine.repeatLen d
    ∨ p.kind = .none ∧ p.len = 0 ∧ p.bound = false
  cursorFits : p.cursor.toNat ≤ p.len.toNat
  bound : p.bound = true → p.pstate = .empty ∧ p.cursor = 0
  cacheEmpty : p.lastValid = false → p.lastAddr = 0 ∧ p.lastCmd = 0

/-- The Parser is unconstructed and 0, or constructed for a descriptor of the table. -/
def ParserInv (p : ParserRegs) : Prop :=
  (p.ready = false → ParserIdle p) ∧ (p.ready = true → ∃ d, ParserBuilt p d)

/-- Both buffers are in canonical form and hold words only where the engine or the host can write (R32, R63, R151). -/
structure BuffersInv (s : State) : Prop where
  txForm : s.tx.wf = true
  rxForm : s.rx.wf = true
  txRange : ∀ i w, s.tx.read i = some w → i < s.bp.capacity.toNat
  rxRange : ∀ i w, s.rx.read i = some w → i < Config.rxCap

/-- The invariant of the machine. -/
structure State.Inv (s : State) : Prop where
  builder : BuilderInv s.bp
  parser : ParserInv s.pp
  buffers : BuffersInv s

/-! ## What an operation leaves alone -/

/-- Every word of both buffers reads as before. -/
def SameBuffers (s t : State) : Prop := (∀ i, t.txWord i = s.txWord i) ∧ ∀ i, t.rxWord i = s.rxWord i

/-- Nothing outside the Builder's registers and TX differs. -/
def OnlyBuilder (s t : State) : Prop :=
  t.pp = s.pp ∧ (∀ i, t.rxWord i = s.rxWord i) ∧ t.host = s.host ∧ t.lastRead = s.lastRead

/-- Nothing outside the Parser's registers differs, no buffer word among it. -/
def OnlyParser (s t : State) : Prop :=
  t.bp = s.bp ∧ SameBuffers s t ∧ t.host = s.host ∧ t.lastRead = s.lastRead

/-- `t` is `s` after a successful operation that emitted `ws` from index `start` on (R151): those words are in TX, every
other word of TX and all of RX read as before, CURSOR follows the last word, STATUS is OK, and nothing else differs. -/
structure Emitted (start : Nat) (ws : List Word) (s t : State) : Prop where
  words : ∀ j v, ws[j]? = some v → t.txWord (start + j) = v
  otherWords : ∀ i, i < start ∨ start + ws.length ≤ i → t.txWord i = s.txWord i
  registers : t.bp = { s.bp with cursor := BitVec.ofNat 32 (start + ws.length), status := .ok }
  elsewhere : OnlyBuilder s t

/-! ## The words of a data frame (R99, R100, R157) -/

/-- The words of one segment, for operands `a`, `c` and aux value `q`. -/
def segmentWords (b : BuilderRegs) (a c q : Word) : Segment → List Word
  | .head => [pulseRec b.profile.leadHi b.profile.leadLo (invFlag b.flags)]
  | .field src w o inv =>
    (List.range w).map fun k =>
      if (pick a c q src).getLsbD (bitIndex k w o) ^^ inv then
        pulseRec b.profile.l1Hi b.profile.l1Lo (invFlag b.flags)
      else pulseRec b.profile.l0Hi b.profile.l0Lo (invFlag b.flags)
  | .gap => [pulseRec b.profile.gapHi b.profile.gapLo (invFlag b.flags)]
  | .endMark => [pulseRec b.profile.endHi 0x7FFF (invFlag b.flags), 0]

/-- The words of a data frame, index 0 first. -/
def frameWords (b : BuilderRegs) (d : Descriptor) (a c q : Word) : List Word :=
  d.template.flatMap (segmentWords b a c q)

/-! ## The records a Parser accepts (R195, R196, R199) -/

/-- What the Parser expects a record to be. -/
inductive Expected where
  | head
  | bit (b : Bool)
  | gap
  deriving DecidableEq, Repr

/-- The records a Parser reads for one segment; none for END (R204). -/
def segmentExpected (a c q : Word) : Segment → List Expected
  | .head => [.head]
  | .field src w o inv =>
    (List.range w).map fun k => .bit ((pick a c q src).getLsbD (bitIndex k w o) ^^ inv)
  | .gap => [.gap]
  | .endMark => []

/-- The records a Parser reads of the data frame that carries `a`, `c` and `q`, index 0 first. -/
def frameExpected (d : Descriptor) (a c q : Word) : List Expected :=
  d.template.flatMap (segmentExpected a c q)

/-- A word passes for an expected record under the Parser's profile, polarity and margin. -/
def Accepts (p : ParserRegs) (w : Word) : Expected → Prop
  | .head => symMatch p w p.profile.leadHi p.profile.leadLo = true
  | .bit b => classify p w = some b
  | .gap => symMatch p w p.profile.gapHi p.profile.gapLo = true

/-- A word matches no template that could stand where a record is expected (R264). -/
def MatchesNothing (p : ParserRegs) (w : Word) : Expected → Prop
  | .head => symMatch p w p.profile.leadHi p.profile.leadLo = false
  | .bit _ => classify p w = none
  | .gap => symMatch p w p.profile.gapHi p.profile.gapLo = false

/-- A value fits the field a family gives its source (R233). -/
def FitsField (d : Descriptor) (src : Source) (v : Word) : Prop := v.toNat < 2 ^ fieldWidth d.template src

/-! ## Structural checks, spelled out (R159, R201, R235) -/

/-- INV_HALVES of a value: the low `h` bits are the complement of the next `h` bits. -/
def HalvesHold (h : Nat) (v : Word) : Prop := v.toNat % 2 ^ h = (2 ^ h - 1) - v.toNat / 2 ^ h % 2 ^ h

/-- The checks active in a Builder hold of an address and a command (R159). -/
def BuilderChecksHold (d : Descriptor) (ext : Bool) (a c : Word) : Prop :=
  ∀ src h bypassB bypassP, Check.invHalves src h bypassB bypassP ∈ d.checks →
    (ext = true ∧ bypassB = true) ∨ HalvesHold h (if src = .addr then a else c)

/-- The INV_HALVES checks active in a Parser hold of an address and a command (R201). -/
def ParserHalvesHold (d : Descriptor) (ext : Bool) (a c : Word) : Prop :=
  ∀ src h bypassB bypassP, Check.invHalves src h bypassB bypassP ∈ d.checks →
    (ext = true ∧ bypassP = true) ∨ HalvesHold h (if src = .addr then a else c)

/-- The checks active in a Parser hold of an address, a command and an aux value (R201). -/
def ParserChecksHold (d : Descriptor) (ext : Bool) (a c q : Word) : Prop :=
  ParserHalvesHold d ext a c
    ∧ ∀ bypassP, Check.auxMatch bypassP ∈ d.checks → (ext = true ∧ bypassP = true) ∨ q = auxValue d a c

/-! ## When an operation is not legal (R267) -/

/-- The operation is not legal in the engine's present state (R267). -/
def NotLegal (s : State) : Instr → Prop
  | .conv _ => False
  | .bnew => s.bp.ready = true
  | .bdel | .mkhead | .bframe | .brepeat | .bresult => s.bp.ready = false
  | .mkl0 | .mkl1 => s.bp.ready = false ∨ s.bp.capacity.toNat < s.bp.cursor.toNat + 1
  | .mkend => s.bp.ready = false ∨ s.bp.capacity.toNat < s.bp.cursor.toNat + 2
  | .mkgap => s.bp.ready = false
      ∨ (descriptorAt s.bp.family).hasGap = true ∧ s.bp.capacity.toNat < s.bp.cursor.toNat + 1
  | .pnew => s.pp.ready = true
  | .pdel | .pinput => s.pp.ready = false
  | .pscan => s.pp.ready = false ∨ s.pp.bound = false

/-! ## Sequences of operations -/

/-- Operations one after the other, each from the state the one before left. -/
def execAll : List Instr → State → Host.Outcome State Fault Refusal
  | [], s => .next s
  | i :: is, s =>
    match exec i s with
    | .next t => execAll is t
    | .fault r => .fault r
    | .refused r => .refused r

/-- The make steps of one segment of the frame that carries `a`, `c` and `q` (R97, R157). -/
def segmentSteps (a c q : Word) : Segment → List Instr
  | .head => [.mkhead]
  | .field src w o inv =>
    (List.range w).map fun k => if (pick a c q src).getLsbD (bitIndex k w o) ^^ inv then .mkl1 else .mkl0
  | .gap => [.mkgap]
  | .endMark => [.mkend]

/-- The make steps of a whole data frame, in template order (R163, R300). -/
def frameSteps (d : Descriptor) (a c q : Word) : List Instr := d.template.flatMap (segmentSteps a c q)

/-! ## Parts of the register files -/

/-- The staging and operand registers of both ports are the same (R26, R28). -/
def SameStaging (s t : State) : Prop :=
  (t.bp.cfgFamily = s.bp.cfgFamily ∧ t.bp.cfgClkHz = s.bp.cfgClkHz ∧ t.bp.cfgCapacity = s.bp.cfgCapacity
    ∧ t.bp.cfgFlags = s.bp.cfgFlags ∧ t.bp.arg0 = s.bp.arg0 ∧ t.bp.arg1 = s.bp.arg1)
  ∧ (t.pp.cfgFamily = s.pp.cfgFamily ∧ t.pp.cfgClkHz = s.pp.cfgClkHz ∧ t.pp.cfgMarginUs = s.pp.cfgMarginUs
    ∧ t.pp.cfgFlags = s.pp.cfgFlags ∧ t.pp.arg0 = s.pp.arg0 ∧ t.pp.arg1 = s.pp.arg1)

/-- Two Builders hold the same latched configuration and profile (R28, R29, R33). -/
def SameBuilderConfig (b c : BuilderRegs) : Prop :=
  c.family = b.family ∧ c.clkHz = b.clkHz ∧ c.capacity = b.capacity ∧ c.flags = b.flags
    ∧ c.repeatPeriodMs = b.repeatPeriodMs ∧ c.profile = b.profile ∧ c.dataLen = b.dataLen
    ∧ c.repeatLen = b.repeatLen ∧ c.caps = b.caps

/-- Two Parsers hold the same latched configuration, margin and profile (R28, R29, R33). -/
def SameParserConfig (p q : ParserRegs) : Prop :=
  q.family = p.family ∧ q.clkHz = p.clkHz ∧ q.margin = p.margin ∧ q.flags = p.flags
    ∧ q.profile = p.profile ∧ q.dataLen = p.dataLen ∧ q.repeatLen = p.repeatLen ∧ q.caps = p.caps

/-- Two Parsers hold the same result registers (R26). -/
def SameResults (p q : ParserRegs) : Prop :=
  q.resAddr = p.resAddr ∧ q.resCmd = p.resCmd ∧ q.resAux = p.resAux ∧ q.resRepeat = p.resRepeat

/-- What every PSCAN with a bound buffer leaves alone, whatever it returns (R197 to R199): everything outside PP, and of
PP the staging and operand registers, the latched configuration, READY, RESULT, KIND and LEN. -/
def ScanFrame (s t : State) : Prop :=
  OnlyParser s t ∧ SameStaging s t ∧ SameParserConfig s.pp t.pp ∧ t.pp.ready = s.pp.ready
    ∧ t.pp.result = s.pp.result ∧ t.pp.kind = s.pp.kind ∧ t.pp.len = s.pp.len

/-- Two Parsers hold the same cache (R31). -/
def SameCache (p q : ParserRegs) : Prop :=
  q.lastValid = p.lastValid ∧ q.lastAddr = p.lastAddr ∧ q.lastCmd = p.lastCmd

end Sys2Proof.Machine
end

