-- ==== Sys2Proof/Certificates/Slice0/Obligations.lean ====
section
/-! DEFINITION. The statements about the model that are to be proved. -/

open Sys2Proof Sys2Proof.Machine

/-! ## Encoding and issue -/

/-- 30_encoding.md section 2, the opcode map (R97): the words it writes out decode to the operations it names. -/
def Obligations.SpecWordsDecode : Prop :=
  decode .bp 0x00000001 = .ok (.conv .bp) ∧ decode .pp 0x00000001 = .ok (.conv .pp)
    ∧ decode .bp 0x00000010 = .ok .bnew ∧ decode .bp 0x00000018 = .ok .bframe
    ∧ decode .bp 0x0000001A = .ok .bresult ∧ decode .pp 0x00000020 = .ok .pnew
    ∧ decode .pp 0x00000023 = .ok .pscan ∧ decode .bp 0x00000017 = .error .noSuchOpcode
    ∧ decode .bp 0x00000118 = .error .reservedBits ∧ decode .pp 0x00000010 = .error .wrongPort

/-- 30_encoding.md section 2 (R95, R97): of all 32-bit words on either port, exactly the encoding of an operation, on
that operation's port, decodes to it. -/
def Obligations.DecodeAgreesWithEncode : Prop :=
  ∀ (p : Port) (w : Word) (i : Instr), decode p w = .ok i ↔ w = encode i ∧ p = i.port

/-- R98: which command words are illegal on a port, and that issuing one changes nothing but STATUS, which becomes
ERR_UNSUPPORTED (7). -/
def Obligations.IllegalWordsChangeOnlyStatus : Prop :=
  ∀ (p : Port) (w : Word),
    let op := w.toNat % 256
    let illegal := w.toNat / 256 ≠ 0
      ∨ op = 0x00 ∨ (0x02 ≤ op ∧ op ≤ 0x0F) ∨ op = 0x17 ∨ (0x1B ≤ op ∧ op ≤ 0x1F) ∨ 0x24 ≤ op
      ∨ (p = .pp ∧ op / 16 = 1) ∨ (p = .bp ∧ op / 16 = 2)
    (illegal ↔ ∀ i, decode p w ≠ .ok i)
      ∧ (illegal → ∀ s : State,
          step (withNextAction (.wr p commandIndex w) s) = .next (s.setStatus p .errUnsupported))
      ∧ Status.errUnsupported.code = 7

/-- 30_encoding.md section 2 (R96): when the host's next action writes a word to a port's COMMAND register and the word
decodes there to an operation, the step is that operation on the state with the action taken off the queue. -/
def Obligations.StepRunsDecodedInstruction : Prop :=
  ∀ (p : Port) (w : Word) (i : Instr) (s : State) (rest : List HostAction),
    s.host = .wr p commandIndex w :: rest → decode p w = .ok i → step s = exec i { s with host := rest }

/-! ## Tick Converter -/

/-- R130: TICKS is the floor of the exact rational. -/
def Obligations.TicksIsExactFloor : Prop :=
  ∀ us hz : Nat, ticks us hz * 1000000 ≤ us * hz ∧ us * hz < (ticks us hz + 1) * 1000000

/-- 40_tick_converter.md section 1 (R131): the arithmetic laws of TICKS on 32-bit operands. -/
def Obligations.TicksLaws : Prop :=
  (∀ us us' hz hz' : Nat, us ≤ us' → hz ≤ hz' → ticks us hz ≤ ticks us' hz')
    ∧ (∀ us hz : Nat, ticks 0 hz = 0 ∧ ticks us 0 = 0)
    ∧ (∀ us k : Nat, ticks us (k * 1000000) = k * us)
    ∧ ∀ us hz : Word, ticks us.toNat hz.toNat < 2 ^ 45

/-- R132: CONV on either port, constructed or not: its two errors change nothing but STATUS, else RESULT is the tick
count, STATUS OK, and nothing else changes. -/
def Obligations.ConvConverts : Prop :=
  ∀ (p : Port) (s : State),
    ((s.arg1 p = 0 ∨ 0xFFFFFFFF < ticks (s.arg0 p).toNat (s.arg1 p).toNat) →
      exec (.conv p) s = .next (s.setStatus p .errConfig))
    ∧ (s.arg1 p ≠ 0 → ticks (s.arg0 p).toNat (s.arg1 p).toNat ≤ 0xFFFFFFFF →
      ∃ r : Word, r.toNat = ticks (s.arg0 p).toNat (s.arg1 p).toNat
        ∧ exec (.conv p) s = .next ((s.setResult p r).setStatus p .ok))

/-! ## Pulse records, bit order, comparator -/

/-- R93: REC is the word with the mark level at bit 15, the space level at bit 31 and the two durations in bits 14:0 and
30:16. -/
def Obligations.RecordWordLayout : Prop :=
  ∀ (hi lo : Word) (inv : Bool), hi.toNat ≤ 32767 → lo.toNat ≤ 32767 →
    (pulseRec hi lo inv).toNat =
      (if inv then 1 else 0) * 2 ^ 31 + lo.toNat * 2 ^ 16 + (if inv then 0 else 1) * 2 ^ 15 + hi.toNat

/-- 70_reset_and_hazards.md section 3 (R297): a record built by REC is never the terminator. -/
def Obligations.RecordIsNeverTerminator : Prop :=
  ∀ (hi lo : Word) (inv : Bool), pulseRec hi lo inv ≠ terminator

/-- 30_encoding.md section 3 (R99): a field of width `w` becomes `w` symbols; position `k` carries bit `k` for LSB,
bit `w - 1 - k` for MSB, complemented when `inv`. -/
def Obligations.FieldBitOrder : Prop :=
  ∀ (v : Word) (w : Nat) (inv : Bool), 1 ≤ w → w ≤ 32 →
    (fieldBits v w .lsb inv).length = w ∧ (fieldBits v w .msb inv).length = w
      ∧ ∀ k, k < w → (fieldBits v w .lsb inv)[k]? = some (v.getLsbD k ^^ inv)
        ∧ (fieldBits v w .msb inv)[k]? = some (v.getLsbD (w - 1 - k) ^^ inv)

/-- R190: MATCH is the strict open interval around the target; a boundary hit is a mismatch; the numbers that match are
`2 m - 1` for a margin within the target, and none for margin 0. -/
def Obligations.MatchIsStrictOpenInterval : Prop :=
  ∀ raw target m : Nat,
    (matchTicks raw target m = true ↔ (target : Int) - m < raw ∧ (raw : Int) < target + m)
      ∧ (matchTicks raw target m = true ↔ |(raw : Int) - target| < m)
      ∧ matchTicks (target + m) target m = false ∧ (m ≤ target → matchTicks (target - m) target m = false)
      ∧ (1 ≤ m → m ≤ target → matchTicks (target - m + 1) target m = true)
      ∧ (1 ≤ m → matchTicks (target + m - 1) target m = true)
      ∧ (1 ≤ m → m ≤ target →
        ((Finset.range (target + m + 1)).filter fun r => matchTicks r target m = true).card = 2 * m - 1)
      ∧ matchTicks raw target 0 = false

/-- R195, R196: a record matches a template by the levels a Builder of the same polarity writes and by both durations,
each within the same margin; it is classified against the logic-0 template, then the logic-1 template; a record matching
neither is none, and only close templates can both match. -/
def Obligations.ClassifyTriesLogicZeroFirst : Prop :=
  ∀ (p : ParserRegs) (w : Word),
    let near (raw : Nat) (target : Word) : Prop := |(raw : Int) - target.toNat| < p.margin.toNat
    let sym (hi lo : Word) : Prop :=
      w.getLsbD 15 = !(p.flags.getLsbD 1) ∧ w.getLsbD 31 = p.flags.getLsbD 1
        ∧ near (w.toNat % 2 ^ 15) hi ∧ near (w.toNat / 2 ^ 16 % 2 ^ 15) lo
    (∀ hi lo, symMatch p w hi lo = true ↔ sym hi lo)
      ∧ (∀ hi lo, (pulseRec hi lo (p.flags.getLsbD 1)).getLsbD 15 = !(p.flags.getLsbD 1)
        ∧ (pulseRec hi lo (p.flags.getLsbD 1)).getLsbD 31 = p.flags.getLsbD 1)
      ∧ (sym p.profile.l0Hi p.profile.l0Lo → sym p.profile.l1Hi p.profile.l1Lo →
        |(p.profile.l1Hi.toNat : Int) - p.profile.l0Hi.toNat| < 2 * p.margin.toNat - 1
          ∧ |(p.profile.l1Lo.toNat : Int) - p.profile.l0Lo.toNat| < 2 * p.margin.toNat - 1)
      ∧ (classify p w = some false ↔ sym p.profile.l0Hi p.profile.l0Lo)
      ∧ (classify p w = some true ↔ ¬sym p.profile.l0Hi p.profile.l0Lo ∧ sym p.profile.l1Hi p.profile.l1Lo)
      ∧ (classify p w = none ↔ ¬sym p.profile.l0Hi p.profile.l0Lo ∧ ¬sym p.profile.l1Hi p.profile.l1Lo)

/-! ## Families -/

/-- 43_families.md sections 3 and 6 (R237, R243 to R245): which tags name no family, and the frame lengths and
capability bits of the three reference families. -/
def Obligations.ReferenceFamilies : Prop :=
  familyTable 0 = none ∧ (∀ tag : Word, 0x83 ≤ tag.toNat → familyTable tag = none)
    ∧ familyTable 0x80 = some refA ∧ familyTable 0x81 = some refB ∧ familyTable 0x82 = some refC
    ∧ (dataLen refA = 51 ∧ repeatLen refA = 3 ∧ capsWord refA = 0b001)
    ∧ (dataLen refB = 34 ∧ repeatLen refB = 0 ∧ capsWord refB = 0b010)
    ∧ (dataLen refC = 63 ∧ repeatLen refC = 3 ∧ capsWord refC = 0b101)

/-! ## Construction and release of the Builder -/

/-- R150: BNEW on a constructed Builder is a state error; a configuration that fails any of its tests is a
configuration error; both change nothing but STATUS. Every other configuration constructs: the latched registers are
the staged ones, the profile registers are the exact tick counts, CURSOR and RESULT are 0, no word of TX has a value
until a make step writes it; nothing else changes. -/
def Obligations.BnewConstructsBuilder : Prop :=
  ∀ s : State,
    (s.bp.ready = true → exec .bnew s = .next (s.setStatus .bp .errState))
    ∧ (s.bp.ready = false → familyTable s.bp.cfgFamily = none → exec .bnew s = .next (s.setStatus .bp .errConfig))
    ∧ ∀ d, s.bp.ready = false → familyTable s.bp.cfgFamily = some d →
      let hz := s.bp.cfgClkHz.toNat
      let cap := s.bp.cfgCapacity.toNat
      ((hz = 0 ∨ cap = 0 ∨ cap < dataLen d ∨ Config.txCap < cap ∨ 0x7FFF < maxDur d (resolve d hz)) →
        exec .bnew s = .next (s.setStatus .bp .errConfig))
      ∧ (hz ≠ 0 → dataLen d ≤ cap → cap ≤ Config.txCap → maxDur d (resolve d hz) ≤ 0x7FFF →
        ∃ t, exec .bnew s = .next t
          ∧ t.bp.status = .ok ∧ t.bp.ready = true
          ∧ t.bp.family = s.bp.cfgFamily ∧ t.bp.clkHz = s.bp.cfgClkHz ∧ t.bp.capacity = s.bp.cfgCapacity
          ∧ t.bp.flags = s.bp.cfgFlags.setWidth 2
          ∧ t.bp.profile.leadHi.toNat = ticks d.leadHiUs.toNat hz ∧ t.bp.profile.leadLo.toNat = ticks d.leadLoUs.toNat hz
          ∧ t.bp.profile.l0Hi.toNat = ticks d.l0HiUs.toNat hz ∧ t.bp.profile.l0Lo.toNat = ticks d.l0LoUs.toNat hz
          ∧ t.bp.profile.l1Hi.toNat = ticks d.l1HiUs.toNat hz ∧ t.bp.profile.l1Lo.toNat = ticks d.l1LoUs.toNat hz
          ∧ t.bp.profile.endHi.toNat = ticks d.endHiUs.toNat hz ∧ t.bp.profile.endLo = 0x7FFF
          ∧ t.bp.profile.repHi.toNat = (if d.hasRepeat then ticks d.repHiUs.toNat hz else 0)
          ∧ t.bp.profile.repLo.toNat = (if d.hasRepeat then ticks d.repLoUs.toNat hz else 0)
          ∧ t.bp.profile.gapHi.toNat = (if d.hasGap then ticks d.gapHiUs.toNat hz else 0)
          ∧ t.bp.profile.gapLo.toNat = (if d.hasGap then ticks d.gapLoUs.toNat hz else 0)
          ∧ t.bp.dataLen.toNat = dataLen d ∧ t.bp.repeatLen.toNat = repeatLen d
          ∧ t.bp.caps = capsWord d ∧ t.bp.repeatPeriodMs = d.repeatPeriodMs
          ∧ t.bp.cursor = 0 ∧ t.bp.result = 0
          ∧ SameStaging s t ∧ OnlyBuilder s t
          ∧ ∀ i, t.tx.read i = none)

/-- 70_reset_and_hazards.md section 3 (R298): on REF_A, with a capacity that fits, the Builder is constructed exactly up
to 3640888 Hz. -/
def Obligations.RefALargestClock : Prop :=
  ∀ s : State, s.bp.ready = false → s.bp.cfgFamily = 0x80 → 51 ≤ s.bp.cfgCapacity.toNat →
    s.bp.cfgCapacity.toNat ≤ Config.txCap → s.bp.cfgClkHz ≠ 0 →
    ∃ t, exec .bnew s = .next t ∧ (t.bp.ready = true ↔ s.bp.cfgClkHz.toNat ≤ 3640888)
      ∧ (t.bp.status = .errConfig ↔ 3640888 < s.bp.cfgClkHz.toNat)

/-- R162, with the registers of R35: BDEL on a constructed Builder clears them, leaves the staging and operand registers,
and leaves no word of TX a value; on an unconstructed one it is a state error. -/
def Obligations.BdelReleasesBuilder : Prop :=
  ∀ s : State,
    (s.bp.ready = false → exec .bdel s = .next (s.setStatus .bp .errState))
    ∧ (s.bp.ready = true → ∃ t, exec .bdel s = .next t
      ∧ t.bp.status = .ok ∧ t.bp.ready = false ∧ t.bp.result = 0 ∧ BuilderIdle t.bp
      ∧ SameStaging s t ∧ OnlyBuilder s t ∧ ∀ i, t.tx.read i = none)

/-! ## Make steps -/

/-- R152: MKHEAD resets the cursor and emits the head symbol at index 0. -/
def Obligations.MkheadStartsFrame : Prop :=
  ∀ s : State, s.Inv →
    (s.bp.ready = false → exec .mkhead s = .next (s.setStatus .bp .errState))
    ∧ (s.bp.ready = true → ∃ t, exec .mkhead s = .next t
      ∧ Emitted 0 [pulseRec s.bp.profile.leadHi s.bp.profile.leadLo (s.bp.flags.getLsbD 1)] s t)

/-- R153, R154, R155: MKL0, MKL1 and MKEND emit their one or two words at the cursor, all or none. -/
def Obligations.MakeStepsEmitAtCursor : Prop :=
  ∀ s : State,
    let inv := s.bp.flags.getLsbD 1
    let cases_ : List (Instr × List Word) :=
      [(.mkl0, [pulseRec s.bp.profile.l0Hi s.bp.profile.l0Lo inv]),
       (.mkl1, [pulseRec s.bp.profile.l1Hi s.bp.profile.l1Lo inv]),
       (.mkend, [pulseRec s.bp.profile.endHi 0x7FFF inv, 0x00000000])]
    ∀ i ws, (i, ws) ∈ cases_ →
      ((s.bp.ready = false ∨ s.bp.capacity.toNat < s.bp.cursor.toNat + ws.length) →
        exec i s = .next (s.setStatus .bp .errState))
      ∧ (s.bp.ready = true → s.bp.cursor.toNat + ws.length ≤ s.bp.capacity.toNat →
        ∃ t, exec i s = .next t ∧ Emitted s.bp.cursor.toNat ws s t)

/-- R156: MKGAP emits the gap symbol at the cursor for a family that has one, and is unsupported otherwise. -/
def Obligations.MkgapEmitsGap : Prop :=
  ∀ (s : State) (d : Descriptor), (s.bp.ready = true → familyTable s.bp.family = some d) →
    (s.bp.ready = false → exec .mkgap s = .next (s.setStatus .bp .errState))
    ∧ (s.bp.ready = true → d.hasGap = false → exec .mkgap s = .next (s.setStatus .bp .errUnsupported))
    ∧ (s.bp.ready = true → d.hasGap = true → s.bp.capacity.toNat < s.bp.cursor.toNat + 1 →
      exec .mkgap s = .next (s.setStatus .bp .errState))
    ∧ (s.bp.ready = true → d.hasGap = true → s.bp.cursor.toNat + 1 ≤ s.bp.capacity.toNat →
      ∃ t, exec .mkgap s = .next t
        ∧ Emitted s.bp.cursor.toNat [pulseRec s.bp.profile.gapHi s.bp.profile.gapLo (s.bp.flags.getLsbD 1)] s t)

/-! ## Frames -/

/-- R157: BFRAME on a constructed Builder whose active checks hold of the reduced operands writes the frame of its
template from index 0 and leaves CURSOR at its length, DATA_LEN; a failing check or an unconstructed Builder changes
nothing but STATUS. -/
def Obligations.BframeWritesFrame : Prop :=
  ∀ s : State, s.Inv →
    (s.bp.ready = false → exec .bframe s = .next (s.setStatus .bp .errState))
    ∧ ∀ d, s.bp.ready = true → familyTable s.bp.family = some d →
      ∀ a c q : Word, a.toNat = s.bp.arg0.toNat % 2 ^ fieldWidth d.template .addr →
        c.toNat = s.bp.arg1.toNat % 2 ^ fieldWidth d.template .cmd →
        q = (if 0 < d.auxBits then auxValue d a c else 0) →
        (¬BuilderChecksHold d (s.bp.flags.getLsbD 0) a c → exec .bframe s = .next (s.setStatus .bp .errStruct))
        ∧ (BuilderChecksHold d (s.bp.flags.getLsbD 0) a c →
          ∃ t, exec .bframe s = .next t ∧ Emitted 0 (frameWords s.bp d a c q) s t ∧ t.bp.cursor.toNat = dataLen d)

/-- R160: BREPEAT writes repeat symbol, end symbol and terminator at indices 0 to 2 for a family with a repeat frame,
whatever was built before, and is unsupported otherwise. -/
def Obligations.BrepeatWritesRepeatFrame : Prop :=
  ∀ s : State, s.Inv →
    (s.bp.ready = false → exec .brepeat s = .next (s.setStatus .bp .errState))
    ∧ ∀ d, s.bp.ready = true → familyTable s.bp.family = some d →
      (d.hasRepeat = false → exec .brepeat s = .next (s.setStatus .bp .errUnsupported))
      ∧ (d.hasRepeat = true → ∃ t, exec .brepeat s = .next t
        ∧ Emitted 0 [pulseRec s.bp.profile.repHi s.bp.profile.repLo (s.bp.flags.getLsbD 1),
            pulseRec s.bp.profile.endHi 0x7FFF (s.bp.flags.getLsbD 1), 0x00000000] s t
        ∧ t.bp.cursor.toNat = 3 ∧ t.bp.cursor.toNat = repeatLen d)

/-- R161: BRESULT copies CURSOR to RESULT and changes neither TX nor the cursor nor anything else. -/
def Obligations.BresultPublishesCursor : Prop :=
  ∀ s : State,
    (s.bp.ready = false → exec .bresult s = .next (s.setStatus .bp .errState))
    ∧ (s.bp.ready = true →
      exec .bresult s = .next { s with bp := { s.bp with result := s.bp.cursor, status := .ok } })

/-- 41_builder.md sections 3 and 4 and 70_reset_and_hazards.md section 3 (R157, R163, R300): the make steps issued in
template order leave exactly the state BFRAME leaves. -/
def Obligations.MakeStepsBuildTheFrame : Prop :=
  ∀ (s : State) (d : Descriptor) (a c q : Word), s.Inv → s.bp.ready = true → familyTable s.bp.family = some d →
    a.toNat = s.bp.arg0.toNat % 2 ^ fieldWidth d.template .addr →
    c.toNat = s.bp.arg1.toNat % 2 ^ fieldWidth d.template .cmd →
    q = (if 0 < d.auxBits then auxValue d a c else 0) →
    BuilderChecksHold d (s.bp.flags.getLsbD 0) a c →
    ∃ t, execAll (frameSteps d a c q) s = .next t ∧ exec .bframe s = .next t

/-! ## Construction and release of the Parser -/

/-- R192: PNEW on a constructed Parser is a state error; a configuration that fails any of its tests is a configuration
error; both change nothing but STATUS. Every other configuration constructs: latched registers, exact profile and
margin, nothing bound, no cache, result registers 0; RESULT and everything outside PP stay. -/
def Obligations.PnewConstructsParser : Prop :=
  ∀ s : State,
    (s.pp.ready = true → exec .pnew s = .next (s.setStatus .pp .errState))
    ∧ (s.pp.ready = false → familyTable s.pp.cfgFamily = none → exec .pnew s = .next (s.setStatus .pp .errConfig))
    ∧ ∀ d, s.pp.ready = false → familyTable s.pp.cfgFamily = some d →
      let hz := s.pp.cfgClkHz.toNat
      let m := ticks s.pp.cfgMarginUs.toNat hz
      ((hz = 0 ∨ 0xFFFFFFFF < maxDur d (resolve d hz) ∨ 0xFFFFFFFF < m) →
        exec .pnew s = .next (s.setStatus .pp .errConfig))
      ∧ (hz ≠ 0 → maxDur d (resolve d hz) ≤ 0xFFFFFFFF → m ≤ 0xFFFFFFFF →
        ∃ t, exec .pnew s = .next t
          ∧ t.pp.status = .ok ∧ t.pp.ready = true
          ∧ t.pp.family = s.pp.cfgFamily ∧ t.pp.clkHz = s.pp.cfgClkHz ∧ t.pp.flags = s.pp.cfgFlags.setWidth 2
          ∧ t.pp.margin.toNat = m
          ∧ t.pp.profile.leadHi.toNat = ticks d.leadHiUs.toNat hz ∧ t.pp.profile.leadLo.toNat = ticks d.leadLoUs.toNat hz
          ∧ t.pp.profile.l0Hi.toNat = ticks d.l0HiUs.toNat hz ∧ t.pp.profile.l0Lo.toNat = ticks d.l0LoUs.toNat hz
          ∧ t.pp.profile.l1Hi.toNat = ticks d.l1HiUs.toNat hz ∧ t.pp.profile.l1Lo.toNat = ticks d.l1LoUs.toNat hz
          ∧ t.pp.profile.endHi.toNat = ticks d.endHiUs.toNat hz ∧ t.pp.profile.endLo = 0x7FFF
          ∧ t.pp.profile.repHi.toNat = (if d.hasRepeat then ticks d.repHiUs.toNat hz else 0)
          ∧ t.pp.profile.repLo.toNat = (if d.hasRepeat then ticks d.repLoUs.toNat hz else 0)
          ∧ t.pp.profile.gapHi.toNat = (if d.hasGap then ticks d.gapHiUs.toNat hz else 0)
          ∧ t.pp.profile.gapLo.toNat = (if d.hasGap then ticks d.gapLoUs.toNat hz else 0)
          ∧ t.pp.dataLen.toNat = dataLen d ∧ t.pp.repeatLen.toNat = repeatLen d ∧ t.pp.caps = capsWord d
          ∧ t.pp.pstate = .empty ∧ t.pp.cursor = 0 ∧ t.pp.bound = false ∧ t.pp.len = 0 ∧ t.pp.kind = .none
          ∧ t.pp.lastValid = false ∧ t.pp.lastAddr = 0 ∧ t.pp.lastCmd = 0
          ∧ t.pp.resAddr = 0 ∧ t.pp.resCmd = 0 ∧ t.pp.resAux = 0 ∧ t.pp.resRepeat = false
          ∧ t.pp.result = s.pp.result ∧ SameStaging s t ∧ OnlyParser s t)

/-- R193, with the registers of R35: PDEL on a constructed Parser clears them and touches neither the staging and operand
registers nor RX; on an unconstructed one it is a state error. -/
def Obligations.PdelReleasesParser : Prop :=
  ∀ s : State,
    (s.pp.ready = false → exec .pdel s = .next (s.setStatus .pp .errState))
    ∧ (s.pp.ready = true → ∃ t, exec .pdel s = .next t
      ∧ t.pp.status = .ok ∧ t.pp.ready = false ∧ t.pp.result = 0 ∧ ParserIdle t.pp
      ∧ SameStaging s t ∧ OnlyParser s t)

/-! ## Framing and decoding -/

/-- R194: PINPUT binds a buffer of exactly the family's DATA_LEN, or of its REPEAT_LEN where it has a repeat frame; any
other length is a framing error that leaves nothing bound; results, cache and everything outside PP stay. -/
def Obligations.PinputFramesByLength : Prop :=
  ∀ (s : State),
    (s.pp.ready = false → exec .pinput s = .next (s.setStatus .pp .errState))
    ∧ ∀ d, s.pp.ready = true → familyTable s.pp.family = some d →
      let n := s.pp.arg0.toNat
      let bind (k : FrameKind) (p : ParserRegs) : ParserRegs :=
        { p with pstate := .empty, bound := true, kind := k, len := p.arg0, cursor := 0, status := .ok }
      (n = dataLen d → exec .pinput s = .next { s with pp := bind .data s.pp })
      ∧ (n ≠ dataLen d → d.hasRepeat = true → n = repeatLen d →
        exec .pinput s = .next { s with pp := bind .repeated s.pp })
      ∧ (n ≠ dataLen d → ¬(d.hasRepeat = true ∧ n = repeatLen d) →
        exec .pinput s = .next { s with pp := { s.pp with
          pstate := .failed, bound := false, kind := .none, len := 0, cursor := 0, status := .errFraming } })

/-- R197: on a bound repeat frame PSCAN looks at record 0 alone: timing first, then the cache; with both good it returns
the cached pair with RES_REPEAT set and leaves the cache as it is. -/
def Obligations.PscanRepeatReturnsCache : Prop :=
  ∀ s : State, s.pp.ready = true → s.pp.bound = true → s.pp.kind = .repeated →
    let good := symMatch s.pp (s.rxWord 0) s.pp.profile.repHi s.pp.profile.repLo
    (good = false → exec .pscan s =
      .next { s with pp := { s.pp with cursor := 1, pstate := .failed, bound := false, status := .errTiming } })
    ∧ (good = true → s.pp.lastValid = false → exec .pscan s =
      .next { s with pp := { s.pp with cursor := 1, pstate := .failed, bound := false, status := .errNocache } })
    ∧ (good = true → s.pp.lastValid = true → exec .pscan s =
      .next { s with pp := { s.pp with cursor := 1, pstate := .complete, bound := false, status := .ok,
                                        resAddr := s.pp.lastAddr, resCmd := s.pp.lastCmd, resAux := 0, resRepeat := true } })

/-- 42_parser.md section 4 (R195 to R201): a bound data frame whose every record is accepted as the one `a`, `c` and `q`
call for at its place, however far inside the margin, is decoded to them when the Parser's active checks hold, and is a
structural error otherwise. -/
def Obligations.PscanDecodesAcceptedFrame : Prop :=
  ∀ (s : State) (d : Descriptor) (a c q : Word), s.pp.ready = true → s.pp.bound = true → s.pp.kind = .data →
    familyTable s.pp.family = some d → FitsField d .addr a → FitsField d .cmd c → FitsField d .aux q →
    (∀ n e, (frameExpected d a c q)[n]? = some e → Accepts s.pp (s.rxWord n) e) →
    ∃ t, exec .pscan s = .next t ∧ t.pp.bound = false ∧ t.pp.cursor.toNat + 2 = dataLen d ∧ ScanFrame s t
      ∧ (ParserChecksHold d (s.pp.flags.getLsbD 0) a c q →
        t.pp.status = .ok ∧ t.pp.pstate = .complete
          ∧ t.pp.resAddr = a ∧ t.pp.resCmd = c ∧ t.pp.resAux = q ∧ t.pp.resRepeat = false
          ∧ t.pp.lastValid = true ∧ t.pp.lastAddr = a ∧ t.pp.lastCmd = c)
      ∧ (¬ParserChecksHold d (s.pp.flags.getLsbD 0) a c q →
        t.pp.status = .errStruct ∧ t.pp.pstate = .failed ∧ SameResults s.pp t.pp ∧ SameCache s.pp t.pp)

/-- R264: ERR_TIMING is raised by PSCAN only, at the first record that matches no template expected at its position;
CURSOR is left one above that record's index, PSTATE is Failed, results and cache stay. -/
def Obligations.TimingErrorAtFirstBadRecord : Prop :=
  (∀ (i : Instr) (s t : State), exec i s = .next t → t.statusOf i.port = .errTiming → i = .pscan)
  ∧ ∀ (s : State) (d : Descriptor), s.pp.ready = true → s.pp.bound = true → familyTable s.pp.family = some d →
    (s.pp.kind = .repeated → symMatch s.pp (s.rxWord 0) s.pp.profile.repHi s.pp.profile.repLo = false →
      ∃ t, exec .pscan s = .next t ∧ t.pp.status = .errTiming ∧ t.pp.cursor = 1 ∧ t.pp.pstate = .failed
        ∧ t.pp.bound = false ∧ SameResults s.pp t.pp ∧ SameCache s.pp t.pp ∧ ScanFrame s t)
    ∧ (s.pp.kind = .data → ∀ n e, (frameExpected d 0 0 0)[n]? = some e → MatchesNothing s.pp (s.rxWord n) e →
      (∀ m f, m < n → (frameExpected d 0 0 0)[m]? = some f → ¬MatchesNothing s.pp (s.rxWord m) f) →
      ∃ t, exec .pscan s = .next t ∧ t.pp.status = .errTiming ∧ t.pp.cursor.toNat = n + 1 ∧ t.pp.pstate = .failed
        ∧ t.pp.bound = false ∧ SameResults s.pp t.pp ∧ SameCache s.pp t.pp ∧ ScanFrame s t)
    ∧ (s.pp.kind = .data →
      (∀ n e, (frameExpected d 0 0 0)[n]? = some e → ¬MatchesNothing s.pp (s.rxWord n) e) →
      ∃ t, exec .pscan s = .next t ∧ t.pp.status ≠ .errTiming ∧ t.pp.cursor.toNat + 2 = dataLen d ∧ ScanFrame s t)

/-- 42_parser.md section 4 (R199, R201): when one later field of a source carries another value than the first, and every
other record is accepted, the copy check fails the decode with a structural error after the whole walk, unless EXT
relaxes it. -/
def Obligations.CopyMismatchFailsDecode : Prop :=
  ∀ (s : State) (d : Descriptor) (a c q a' c' q' : Word) (pre post : List Segment) (src : Source) (w : Nat)
    (o : BitOrder) (inv : Bool),
    s.pp.ready = true → s.pp.bound = true → s.pp.kind = .data → familyTable s.pp.family = some d →
    FitsField d .addr a → FitsField d .cmd c → FitsField d .aux q → FitsField d src (pick a' c' q' src) →
    d.template = pre ++ .field src w o inv :: post →
    (∃ w₀ o₀ inv₀, Segment.field src w₀ o₀ inv₀ ∈ pre) → pick a' c' q' src ≠ pick a c q src →
    (∀ n e, (pre.flatMap (segmentExpected a c q) ++ segmentExpected a' c' q' (.field src w o inv)
        ++ post.flatMap (segmentExpected a c q))[n]? = some e → Accepts s.pp (s.rxWord n) e) →
    ¬(s.pp.flags.getLsbD 0 = true ∧ d.copyBypassP = true) →
    ∃ t, exec .pscan s = .next t ∧ t.pp.status = .errStruct ∧ t.pp.pstate = .failed ∧ t.pp.bound = false
      ∧ t.pp.cursor.toNat + 2 = dataLen d ∧ SameResults s.pp t.pp ∧ SameCache s.pp t.pp ∧ ScanFrame s t

/-- 42_parser.md section 6 (R205): with both engines constructed for one family, clock and polarity, a margin of at least
one tick that keeps the logic-1 symbol out of the logic-0 template, operands that fit, and checks that hold, encoding,
copying TX to RX and decoding gives back address, command and aux value. -/
def Obligations.LoopbackRoundTrip : Prop :=
  ∀ (s : State) (d : Descriptor) (a c n : Word), s.Inv → s.bp.ready = true → s.pp.ready = true →
    familyTable s.bp.family = some d → s.pp.family = s.bp.family → s.pp.clkHz = s.bp.clkHz →
    s.pp.flags.getLsbD 1 = s.bp.flags.getLsbD 1 → 1 ≤ s.pp.margin.toNat →
    ¬(|(s.pp.profile.l1Hi.toNat : Int) - s.pp.profile.l0Hi.toNat| < s.pp.margin.toNat
      ∧ |(s.pp.profile.l1Lo.toNat : Int) - s.pp.profile.l0Lo.toNat| < s.pp.margin.toNat) →
    FitsField d .addr a → FitsField d .cmd c → BuilderChecksHold d (s.bp.flags.getLsbD 0) a c →
    ParserHalvesHold d (s.pp.flags.getLsbD 0) a c → n.toNat = dataLen d →
    ∃ t, Sys2Proof.core.run 8 ({ s with host :=
        [.wr .bp 0x04 a, .wr .bp 0x05 c, .wr .bp 0x06 0x18, .wr .bp 0x06 0x1A, .cp n.toNat,
         .wr .pp 0x04 n, .wr .pp 0x06 0x22, .wr .pp 0x06 0x23] } : State) = .next t
      ∧ t.bp.status = .ok ∧ t.bp.result = n ∧ t.pp.status = .ok ∧ t.pp.resAddr = a ∧ t.pp.resCmd = c
      ∧ t.pp.resAux = (if 0 < d.auxBits then auxValue d a c else 0) ∧ t.pp.resRepeat = false

/-! ## Errors -/

/-- R267: in a state that keeps the invariant an operation raises ERR_STATE exactly when it is not legal in the engine's
present state, and then changes nothing but STATUS. -/
def Obligations.StateErrorExactlyWhenNotLegal : Prop :=
  ∀ (i : Instr) (s t : State), s.Inv → exec i s = .next t →
    (t.statusOf i.port = .errState ↔ NotLegal s i) ∧ (NotLegal s i → t = s.setStatus i.port .errState)

/-- R263: a failed operation has exactly the effects the rule lists: none but STATUS for all operations but PINPUT and
PSCAN and for illegal words; PINPUT on a framing error has unbound the buffer and set PSTATE to Failed; PSCAN on an error
of its scan has moved CURSOR, set PSTATE to Failed and ended the borrow and has left results and cache. -/
def Obligations.FailureEffects : Prop :=
  (∀ (p : Port) (w : Word) (s : State), (∀ i, decode p w ≠ .ok i) →
    issue p w s = .next (s.setStatus p .errUnsupported))
  ∧ ∀ (i : Instr) (s t : State), s.Inv → exec i s = .next t → t.statusOf i.port ≠ .ok →
    (i ≠ .pinput → i ≠ .pscan → t = s.setStatus i.port (t.statusOf i.port))
    ∧ (t.statusOf i.port = .errState → t = s.setStatus i.port .errState)
    ∧ (i = .pinput → t.pp.status ≠ .errState →
      t = { s with pp := { s.pp with
        pstate := .failed, bound := false, kind := .none, len := 0, cursor := 0, status := .errFraming } })
    ∧ (i = .pscan → t.pp.status ≠ .errState →
      (t.pp.status = .errTiming ∨ t.pp.status = .errStruct ∨ t.pp.status = .errNocache)
        ∧ 1 ≤ t.pp.cursor.toNat ∧ t.pp.pstate = .failed ∧ t.pp.bound = false
        ∧ SameResults s.pp t.pp ∧ SameCache s.pp t.pp ∧ ScanFrame s t)

/-- 60_exceptions.md section 2 (R261, R262, R265, R266, R268): which operations can raise which code. -/
def Obligations.StatusNamesItsOperations : Prop :=
  ∀ (i : Instr) (s t : State), exec i s = .next t →
    (t.statusOf i.port = .errConfig → (∃ p, i = .conv p) ∨ i = .bnew ∨ i = .pnew)
    ∧ (t.statusOf i.port = .errFraming → i = .pinput)
    ∧ (t.statusOf i.port = .errStruct → i = .bframe ∨ i = .pscan)
    ∧ (t.statusOf i.port = .errNocache → i = .pscan ∧ s.pp.kind = .repeated ∧ s.pp.lastValid = false)
    ∧ (t.statusOf i.port = .errUnsupported → i = .mkgap ∨ i = .brepeat)

/-- 70_reset_and_hazards.md section 4 and 60_exceptions.md section 3 (R301, R274): every operation answers a next state
from every state, and a step stops only at a host access outside a port's register file (that stop is the model's
choice, notes/assumptions/7.md). -/
def Obligations.OperationsAlwaysComplete : Prop :=
  (∀ (i : Instr) (s : State), ∃ t, exec i s = .next t)
  ∧ ∀ s : State, (∃ t, step s = .next t)
    ∨ ∃ p index, step s = .fault (.noSuchRegister p index) ∧ hasRegister p index = false
        ∧ ((∃ v rest, s.host = .wr p index v :: rest) ∨ ∃ rest, s.host = .rd p index :: rest)

/-! ## Frames and whole-machine rules -/

/-- 10_state.md sections 1 and 4, 20_memory.md section 1 (R20, R26, R28, R60): no operation writes a staging or operand
register; an operation on BP leaves PP and RX, one on PP leaves BP and both buffers; CONV and BRESULT leave TX too. -/
def Obligations.OperationFrames : Prop :=
  ∀ (i : Instr) (s t : State), exec i s = .next t →
    SameStaging s t
    ∧ (i.port = .bp → OnlyBuilder s t)
    ∧ (i.port = .pp → OnlyParser s t)
    ∧ ((∃ p, i = .conv p) ∨ i = .bresult → SameBuffers s t)
    ∧ ((∃ p, i = .conv p) → t.bp.cursor = s.bp.cursor ∧ t.pp.cursor = s.pp.cursor
      ∧ t.bp.ready = s.bp.ready ∧ t.pp.ready = s.pp.ready
      ∧ SameBuilderConfig s.bp t.bp ∧ SameParserConfig s.pp t.pp)

/-- 20_memory.md section 4 (R68): an operation on BP and an operation on PP give the same end state in either order. -/
def Obligations.EnginesAreIndependent : Prop :=
  ∀ (i j : Instr) (s : State), i.port = .bp → j.port = .pp →
    ∃ t, execAll [i, j] s = .next t ∧ execAll [j, i] s = .next t

/-- 42_parser.md section 4 (R202), over every step: the cache changes only in a PSCAN that returns OK on a data frame,
which stores what it reports, and is emptied only by PNEW, PDEL and reset. -/
def Obligations.CacheHasOneWriter : Prop :=
  ∀ s t : State, step s = .next t →
    SameCache s.pp t.pp
    ∨ (∃ rest, s.host = .wr .pp commandIndex 0x23 :: rest) ∧ t.pp.status = .ok ∧ s.pp.kind ≠ .repeated
        ∧ t.pp.lastValid = true ∧ t.pp.lastAddr = t.pp.resAddr ∧ t.pp.lastCmd = t.pp.resCmd ∧ t.pp.resRepeat = false
    ∨ ((∃ rest, s.host = .wr .pp commandIndex 0x20 :: rest) ∨ (∃ rest, s.host = .wr .pp commandIndex 0x21 :: rest)
        ∨ ∃ rest, s.host = .reset :: rest)
      ∧ t.pp.lastValid = false ∧ t.pp.lastAddr = 0 ∧ t.pp.lastCmd = 0

/-- 70_reset_and_hazards.md section 3 and 20_memory.md section 4 (R299, R70), over every step: while an engine stays
constructed its latched configuration, margin and profile do not change. -/
def Obligations.ConfigurationImmutable : Prop :=
  ∀ s t : State, step s = .next t →
    (s.bp.ready = true → t.bp.ready = true → SameBuilderConfig s.bp t.bp)
    ∧ (s.pp.ready = true → t.pp.ready = true → SameParserConfig s.pp t.pp)

/-- 20_memory.md sections 3 and 4 and 10_state.md sections 7 and 8 (R66, R67, R71, R32, R34, R35), over every step, by
cases on the action. A BNEW or BDEL that succeeds and a reset leave no word of TX a value; at any other step each word of TX
that has a value still has one, and only a command issued on BP changes one. A reset leaves no word of RX a value; at any
other step each word of RX that has a value still has one, and only a host write to RX or a copy changes one. That a
forgotten buffer reads fresh free values (the epoch is one more), and that the epoch stays otherwise, is the model's form
of "any value", notes/assumptions/3.md; that a reset is an action of the host is notes/assumptions/9.md. -/
def Obligations.ForgettingIsFreshAndRare : Prop :=
  ∀ s t : State, step s = .next t →
    let isReset := ∃ rest, s.host = .reset :: rest
    let lifecycle := ((∃ rest, s.host = .wr .bp 0x06 0x10 :: rest) ∨ ∃ rest, s.host = .wr .bp 0x06 0x11 :: rest)
      ∧ t.bp.status = .ok
    (lifecycle ∨ isReset → t.txEpoch = s.txEpoch + 1 ∧ ∀ i, t.tx.read i = none)
    ∧ (¬(lifecycle ∨ isReset) → t.txEpoch = s.txEpoch ∧ (∀ i, s.tx.read i ≠ none → t.tx.read i ≠ none)
      ∧ ((∀ w rest, s.host ≠ .wr .bp 0x06 w :: rest) → ∀ i, t.tx.read i = s.tx.read i))
    ∧ (isReset → t.rxEpoch = s.rxEpoch + 1 ∧ ∀ i, t.rx.read i = none)
    ∧ (¬isReset → t.rxEpoch = s.rxEpoch ∧ (∀ i, s.rx.read i ≠ none → t.rx.read i ≠ none)
      ∧ ((∀ i v rest, s.host ≠ .wrb .rx i v :: rest) → (∀ n rest, s.host ≠ .cp n :: rest) →
        ∀ i, t.rx.read i = s.rx.read i))

/-- 42_parser.md section 4 (R198), 20_memory.md section 3 (R66): PSCAN with a bound buffer ends the borrow whatever it
returns, and a second PSCAN is then a state error that changes nothing else. -/
def Obligations.PscanEndsBorrow : Prop :=
  ∀ s : State, s.pp.ready = true → s.pp.bound = true →
    ∃ t, exec .pscan s = .next t ∧ t.pp.bound = false ∧ ScanFrame s t
      ∧ exec .pscan t = .next (t.setStatus .pp .errState)

/-- 10_state.md section 7 (R31): what the accumulators hold reaches nothing but the accumulators. -/
def Obligations.AccumulatorsCarryNothing : Prop :=
  ∀ (i : Instr) (s : State) (x y z : Word),
    ∃ t x' y' z', exec i s = .next t
      ∧ exec i { s with pp := { s.pp with accAddr := x, accCmd := y, accAux := z } } =
        .next { t with pp := { t.pp with accAddr := x', accCmd := y', accAux := z' } }

/-! ## Host accesses -/

/-- R21: a read-write register stores all 32 bits written and no other register changes; a write to COMMAND starts the
operation the word names; a write to a read-only or reserved register is ignored; reserved registers and COMMAND read 0;
a read changes nothing of the block. -/
def Obligations.RegisterAccess : Prop :=
  (∀ (p : Port) (index : Nat) (v : Word) (s : State), index ≤ 0x05 →
    ∃ t, step (withNextAction (.wr p index v) s) = .next t ∧ readReg p index t = some v
      ∧ (∀ p' j, (p' ≠ p ∨ j ≠ index) → readReg p' j t = readReg p' j s)
      ∧ SameBuffers s t ∧ t.host = s.host ∧ t.lastRead = s.lastRead)
  ∧ (∀ (p : Port) (w : Word) (i : Instr) (s : State), decode p w = .ok i →
    step (withNextAction (.wr p 0x06 w) s) = exec i s)
  ∧ (∀ (p : Port) (index : Nat) (v : Word) (s : State), 0x07 ≤ index → hasRegister p index = true →
    step (withNextAction (.wr p index v) s) = .next s)
  ∧ (∀ (p : Port) (index : Nat) (s : State), hasRegister p index = true →
    ∃ v, readReg p index s = some v ∧ step (withNextAction (.rd p index) s) = .next { s with lastRead := some v })
  ∧ ∀ s : State, readReg .bp 0x06 s = some 0 ∧ readReg .pp 0x06 s = some 0 ∧ readReg .bp 0x1F s = some 0
    ∧ readReg .pp 0x1F s = some 0 ∧ ∀ index, 0x2A ≤ index → index ≤ 0x2F → readReg .pp index s = some 0

/-- 20_memory.md sections 2 and 3 (R63, R67): the host's buffer accesses: TX is read-only, an RX word in range is stored
and no other word changes, an access at or above the buffer's size reads 0 and writes nothing. -/
def Obligations.BufferAccess : Prop :=
  ∀ (s : State) (i : Nat) (v : Word),
    step (withNextAction (.wrb .tx i v) s) = .next s
    ∧ (Config.rxCap ≤ i → step (withNextAction (.wrb .rx i v) s) = .next s)
    ∧ (i < Config.rxCap → ∃ t, step (withNextAction (.wrb .rx i v) s) = .next t ∧ t.rxWord i = v
      ∧ (∀ j, j ≠ i → t.rxWord j = s.rxWord j) ∧ (∀ j, t.txWord j = s.txWord j)
      ∧ t.bp = s.bp ∧ t.pp = s.pp ∧ t.host = s.host ∧ t.lastRead = s.lastRead)
    ∧ step (withNextAction (.rdb .tx i) s) =
      .next { s with lastRead := some (if i < Config.txCap then s.txWord i else 0) }
    ∧ step (withNextAction (.rdb .rx i) s) =
      .next { s with lastRead := some (if i < Config.rxCap then s.rxWord i else 0) }

/-- 30_encoding.md section 4 (R103): the host's copy moves words 0 to n - 1 of TX to RX and changes nothing else. -/
def Obligations.CopyMovesFrame : Prop :=
  ∀ (s : State) (n : Nat), n ≤ Config.txCap → n ≤ Config.rxCap →
    ∃ t, step (withNextAction (.cp n) s) = .next t ∧ (∀ i, i < n → t.rxWord i = s.txWord i)
      ∧ (∀ i, n ≤ i → t.rxWord i = s.rxWord i) ∧ (∀ i, t.txWord i = s.txWord i)
      ∧ t.bp = s.bp ∧ t.pp = s.pp ∧ t.host = s.host ∧ t.lastRead = s.lastRead

/-! ## Reset and the invariant -/

/-- R34: after reset every register of both ports reads 0, neither engine is constructed, and no buffer word has a
specified value; and the registers after BDEL and PDEL read as after reset, but for the staging, operand and STATUS
registers. -/
def Obligations.ResetReadsZero : Prop :=
  (∀ p index, hasRegister p index = true → readReg p index State.reset = some 0)
    ∧ State.reset.bp.ready = false ∧ State.reset.pp.ready = false ∧ State.reset.pp.pstate = .empty
    ∧ State.reset.pp.bound = false ∧ State.reset.pp.lastValid = false
    ∧ (∀ i, State.reset.tx.read i = none) ∧ (∀ i, State.reset.rx.read i = none)
    ∧ (∀ s t index, s.bp.ready = true → exec .bdel s = .next t → 0x06 ≤ index → index ≠ 0x07 →
      readReg .bp index t = readReg .bp index State.reset)
    ∧ ∀ s t index, s.pp.ready = true → exec .pdel s = .next t → 0x06 ≤ index → index ≠ 0x07 →
      readReg .pp index t = readReg .pp index State.reset

/-- The invariant of the machine (10_state.md sections 3 to 8: R25, R29, R30, R33 to R35) holds after reset. -/
def Obligations.ResetMeetsInvariant : Prop := State.reset.Inv

/-- 10_state.md sections 3 to 8 (R25, R29, R30, R33 to R35), 42_parser.md section 5 (R203): every step keeps the
invariant: an engine is unconstructed with its registers 0 or holds the exact profile, lengths and capabilities of its
family; the Builder's cursor stays within its capacity and the capacity within TX_CAP; PSTATE is Empty, Complete or
Failed; a bound buffer has one of the family's two lengths; both buffers stay in canonical form and in range. -/
def Obligations.StepKeepsInvariant : Prop :=
  ∀ s t : State, s.Inv → step s = .next t → t.Inv

/-! ## The register maps, and reset as an action -/

/-- 10_state.md sections 2, 5 and 6 (R22, R23, R27, R29, R30) and 60_exceptions.md section 1 (R260): which register of the
machine stands at each index of both ports, what a host write to each read-write index changes, and the numbers the codes
in STATUS, PSTATE and KIND read as. -/
def Obligations.RegisterMapsNameTheRegisters : Prop :=
  ∀ s : State,
    let bit (b : Bool) : Word := if b then 1 else 0
    let profile (t : Timing Word) : List (Nat × Word) :=
      [(0x10, t.leadHi), (0x11, t.leadLo), (0x12, t.l0Hi), (0x13, t.l0Lo), (0x14, t.l1Hi), (0x15, t.l1Lo),
       (0x16, t.endHi), (0x17, t.endLo), (0x18, t.repHi), (0x19, t.repLo), (0x1A, t.gapHi), (0x1B, t.gapLo)]
    let bpMap : List (Nat × Word) :=
      [(0x00, s.bp.cfgFamily), (0x01, s.bp.cfgClkHz), (0x02, s.bp.cfgCapacity), (0x03, s.bp.cfgFlags),
       (0x04, s.bp.arg0), (0x05, s.bp.arg1), (0x06, 0), (0x07, s.bp.status.code), (0x08, s.bp.result),
       (0x09, s.bp.cursor), (0x0A, bit s.bp.ready), (0x0B, s.bp.family), (0x0C, s.bp.clkHz), (0x0D, s.bp.capacity),
       (0x0E, s.bp.flags.setWidth 32), (0x0F, s.bp.repeatPeriodMs)]
      ++ profile s.bp.profile
      ++ [(0x1C, s.bp.dataLen), (0x1D, s.bp.repeatLen), (0x1E, s.bp.caps), (0x1F, 0)]
    let ppMap : List (Nat × Word) :=
      [(0x00, s.pp.cfgFamily), (0x01, s.pp.cfgClkHz), (0x02, s.pp.cfgMarginUs), (0x03, s.pp.cfgFlags),
       (0x04, s.pp.arg0), (0x05, s.pp.arg1), (0x06, 0), (0x07, s.pp.status.code), (0x08, s.pp.result),
       (0x09, s.pp.cursor), (0x0A, bit s.pp.ready), (0x0B, s.pp.family), (0x0C, s.pp.clkHz), (0x0D, s.pp.margin),
       (0x0E, s.pp.flags.setWidth 32), (0x0F, s.pp.pstate.code)]
      ++ profile s.pp.profile
      ++ [(0x1C, s.pp.dataLen), (0x1D, s.pp.repeatLen), (0x1E, s.pp.caps), (0x1F, 0),
        (0x20, s.pp.resAddr), (0x21, s.pp.resCmd), (0x22, s.pp.resAux), (0x23, bit s.pp.resRepeat),
        (0x24, bit s.pp.bound), (0x25, s.pp.len), (0x26, s.pp.kind.code), (0x27, bit s.pp.lastValid),
        (0x28, s.pp.lastAddr), (0x29, s.pp.lastCmd)]
    let bpWrites (v : Word) : List (Nat × BuilderRegs) :=
      [(0x00, { s.bp with cfgFamily := v }), (0x01, { s.bp with cfgClkHz := v }),
       (0x02, { s.bp with cfgCapacity := v }), (0x03, { s.bp with cfgFlags := v }),
       (0x04, { s.bp with arg0 := v }), (0x05, { s.bp with arg1 := v })]
    let ppWrites (v : Word) : List (Nat × ParserRegs) :=
      [(0x00, { s.pp with cfgFamily := v }), (0x01, { s.pp with cfgClkHz := v }),
       (0x02, { s.pp with cfgMarginUs := v }), (0x03, { s.pp with cfgFlags := v }),
       (0x04, { s.pp with arg0 := v }), (0x05, { s.pp with arg1 := v })]
    (∀ e ∈ bpMap, readReg .bp e.1 s = some e.2)
    ∧ (∀ e ∈ ppMap, readReg .pp e.1 s = some e.2)
    ∧ (∀ v, ∀ e ∈ bpWrites v, step (withNextAction (.wr .bp e.1 v) s) = .next { s with bp := e.2 })
    ∧ (∀ v, ∀ e ∈ ppWrites v, step (withNextAction (.wr .pp e.1 v) s) = .next { s with pp := e.2 })
    ∧ ([Status.ok, .errConfig, .errFraming, .errTiming, .errStruct, .errNocache, .errState, .errUnsupported].map
        Status.code = [0, 1, 2, 3, 4, 5, 6, 7])
    ∧ ([PState.empty, .headMatched, .bitsAccumulating, .complete, .failed].map PState.code = [0, 1, 2, 3, 4])
    ∧ [FrameKind.none, .data, .repeated].map FrameKind.code = [0, 1, 2]

/-- 70_reset_and_hazards.md section 1 and 10_state.md section 8 (R290, R34), from every state: a reset leaves every register
of both ports reading 0, neither engine constructed and no word of TX or RX with a value. That a reset is an action of the
host, and leaves the host's remaining actions and its last read value, is notes/assumptions/9.md. -/
def Obligations.ResetActionResetsTheBlock : Prop :=
  ∀ s : State, ∃ t, step (withNextAction .reset s) = .next t
    ∧ (∀ p index, hasRegister p index = true → readReg p index t = some 0)
    ∧ t.bp.ready = false ∧ t.pp.ready = false
    ∧ (∀ i, t.tx.read i = none) ∧ (∀ i, t.rx.read i = none)
    ∧ t.host = s.host ∧ t.lastRead = s.lastRead
end

