-- ==== Sys2Proof/Laws/Records.lean ====
section
/-! SUPPORT. Laws of pulse records: reading back the fields a word was made of. -/

namespace Sys2Proof.Machine

open Sys2Proof

/-- The bits of a record's word, field by field (R90). -/
theorem recordWord_getLsbD (r : PulseRecord) (i : Nat) : (recordWord r).getLsbD i =
    if i < 15 then r.duration0.getLsbD i else if i < 16 then r.level0
    else if i < 31 then r.duration1.getLsbD (i - 16) else if i < 32 then r.level1 else false := by
  unfold recordWord
  show BitVec.getLsbD (w := 15 + 1 + (15 + 1)) _ _ = _
  simp only [BitVec.getLsbD_append, BitVec.getLsbD_ofBool]
  by_cases h31 : i = 31
  · subst h31; simp
  · grind

/-- Reading a word's fields gives back what it was made of. -/
@[simp] theorem recordOf_recordWord (r : PulseRecord) : recordOf (recordWord r) = r := by
  cases r with
  | mk l1 d1 l0 d0 =>
    simp only [recordOf, PulseRecord.mk.injEq, recordWord_getLsbD]
    refine ⟨by simp, ?_, by simp, ?_⟩ <;>
    · apply BitVec.eq_of_getLsbD_eq
      intro i hi
      simp only [BitVec.getLsbD_extractLsb', recordWord_getLsbD]
      grind

/-- The fields of a symbol the Builder writes. -/
theorem recordOf_pulseRec (hi lo : Word) (inv : Bool) :
    recordOf (pulseRec hi lo inv) = ⟨inv, lo.setWidth 15, !inv, hi.setWidth 15⟩ := recordOf_recordWord _

/-- A duration that fits the field is carried whole. -/
theorem toNat_setWidth15 {v : Word} (h : v.toNat ≤ 0x7FFF) : (v.setWidth 15).toNat = v.toNat := by
  rw [BitVec.toNat_setWidth]; exact Nat.mod_eq_of_lt (by omega)

/-- MATCH is the strict distance test (R190). -/
theorem matchTicks_iff (raw target m : Nat) :
    matchTicks raw target m = true ↔ target < raw + m ∧ raw < target + m := by
  simp only [matchTicks, Bool.and_eq_true, decide_eq_true_eq]
  omega

/-- A duration matches itself exactly when the margin is at least one tick. -/
theorem matchTicks_self (t m : Nat) : matchTicks t t m = true ↔ 1 ≤ m := by
  rw [matchTicks_iff]; omega

/-- SYM_MATCH spelled out (R195). -/
theorem symMatch_iff (p : ParserRegs) (w hi lo : Word) :
    symMatch p w hi lo = true ↔ (recordOf w).level0 = !(invFlag p.flags) ∧ (recordOf w).level1 = invFlag p.flags
      ∧ matchTicks (recordOf w).duration0.toNat hi.toNat p.margin.toNat = true
      ∧ matchTicks (recordOf w).duration1.toNat lo.toNat p.margin.toNat = true := by
  simp only [symMatch, Bool.and_eq_true, beq_iff_eq, and_assoc]

/-- A symbol matches a template under the same polarity by its durations alone. -/
theorem symMatch_pulseRec (p : ParserRegs) {hi lo : Word} (hi' lo' : Word)
    (h : hi.toNat ≤ 0x7FFF) (h' : lo.toNat ≤ 0x7FFF) :
    symMatch p (pulseRec hi lo (invFlag p.flags)) hi' lo' =
      (matchTicks hi.toNat hi'.toNat p.margin.toNat && matchTicks lo.toNat lo'.toNat p.margin.toNat) := by
  simp only [symMatch, recordOf_pulseRec, toNat_setWidth15 h, toNat_setWidth15 h', beq_self_eq_true, Bool.true_and]

end Sys2Proof.Machine
end

