-- ==== Sys2Proof/Laws/State.lean ====
section
/-! SUPPORT. One lemma per field of State for each shared update. -/

namespace Sys2Proof.Machine

open Sys2Proof

@[simp] theorem State.setStatus_tx (s : State) (p : Port) (c : Status) : (s.setStatus p c).tx = s.tx := by cases p <;> rfl
@[simp] theorem State.setResult_tx (s : State) (p : Port) (v : Word) : (s.setResult p v).tx = s.tx := by cases p <;> rfl
@[simp] theorem State.setStatus_rx (s : State) (p : Port) (c : Status) : (s.setStatus p c).rx = s.rx := by cases p <;> rfl
@[simp] theorem State.setResult_rx (s : State) (p : Port) (v : Word) : (s.setResult p v).rx = s.rx := by cases p <;> rfl
@[simp] theorem State.setStatus_txEpoch (s : State) (p : Port) (c : Status) : (s.setStatus p c).txEpoch = s.txEpoch := by cases p <;> rfl
@[simp] theorem State.setResult_txEpoch (s : State) (p : Port) (v : Word) : (s.setResult p v).txEpoch = s.txEpoch := by cases p <;> rfl
@[simp] theorem State.setStatus_rxEpoch (s : State) (p : Port) (c : Status) : (s.setStatus p c).rxEpoch = s.rxEpoch := by cases p <;> rfl
@[simp] theorem State.setResult_rxEpoch (s : State) (p : Port) (v : Word) : (s.setResult p v).rxEpoch = s.rxEpoch := by cases p <;> rfl
@[simp] theorem State.setStatus_host (s : State) (p : Port) (c : Status) : (s.setStatus p c).host = s.host := by cases p <;> rfl
@[simp] theorem State.setResult_host (s : State) (p : Port) (v : Word) : (s.setResult p v).host = s.host := by cases p <;> rfl
@[simp] theorem State.setStatus_lastRead (s : State) (p : Port) (c : Status) : (s.setStatus p c).lastRead = s.lastRead := by cases p <;> rfl
@[simp] theorem State.setResult_lastRead (s : State) (p : Port) (v : Word) : (s.setResult p v).lastRead = s.lastRead := by cases p <;> rfl

@[simp] theorem State.setStatus_bp_bp (s : State) (c : Status) : (s.setStatus .bp c).bp = { s.bp with status := c } := rfl
@[simp] theorem State.setStatus_bp_pp (s : State) (c : Status) : (s.setStatus .bp c).pp = s.pp := rfl
@[simp] theorem State.setStatus_pp_bp (s : State) (c : Status) : (s.setStatus .pp c).bp = s.bp := rfl
@[simp] theorem State.setStatus_pp_pp (s : State) (c : Status) : (s.setStatus .pp c).pp = { s.pp with status := c } := rfl
@[simp] theorem State.setResult_bp_bp (s : State) (v : Word) : (s.setResult .bp v).bp = { s.bp with result := v } := rfl
@[simp] theorem State.setResult_bp_pp (s : State) (v : Word) : (s.setResult .bp v).pp = s.pp := rfl
@[simp] theorem State.setResult_pp_bp (s : State) (v : Word) : (s.setResult .pp v).bp = s.bp := rfl
@[simp] theorem State.setResult_pp_pp (s : State) (v : Word) : (s.setResult .pp v).pp = { s.pp with result := v } := rfl

@[simp] theorem State.setCursor_bp (s : State) (v : Word) : (s.setCursor v).bp = { s.bp with cursor := v } := rfl
@[simp] theorem State.setCursor_pp (s : State) (v : Word) : (s.setCursor v).pp = s.pp := rfl
@[simp] theorem State.setCursor_tx (s : State) (v : Word) : (s.setCursor v).tx = s.tx := rfl
@[simp] theorem State.setCursor_rx (s : State) (v : Word) : (s.setCursor v).rx = s.rx := rfl
@[simp] theorem State.setCursor_txEpoch (s : State) (v : Word) : (s.setCursor v).txEpoch = s.txEpoch := rfl
@[simp] theorem State.setCursor_rxEpoch (s : State) (v : Word) : (s.setCursor v).rxEpoch = s.rxEpoch := rfl
@[simp] theorem State.setCursor_host (s : State) (v : Word) : (s.setCursor v).host = s.host := rfl
@[simp] theorem State.setCursor_lastRead (s : State) (v : Word) : (s.setCursor v).lastRead = s.lastRead := rfl

@[simp] theorem forgetTx_bp (s : State) : (forgetTx s).bp = s.bp := rfl
@[simp] theorem forgetTx_pp (s : State) : (forgetTx s).pp = s.pp := rfl
@[simp] theorem forgetTx_tx (s : State) : (forgetTx s).tx = [] := rfl
@[simp] theorem forgetTx_rx (s : State) : (forgetTx s).rx = s.rx := rfl
@[simp] theorem forgetTx_txEpoch (s : State) : (forgetTx s).txEpoch = s.txEpoch + 1 := rfl
@[simp] theorem forgetTx_rxEpoch (s : State) : (forgetTx s).rxEpoch = s.rxEpoch := rfl
@[simp] theorem forgetTx_host (s : State) : (forgetTx s).host = s.host := rfl
@[simp] theorem forgetTx_lastRead (s : State) : (forgetTx s).lastRead = s.lastRead := rfl

@[simp] theorem State.statusOf_setStatus (s : State) (p : Port) (c : Status) : (s.setStatus p c).statusOf p = c := by cases p <;> rfl
@[simp] theorem State.resultOf_setResult (s : State) (p : Port) (v : Word) : (s.setResult p v).resultOf p = v := by cases p <;> rfl
@[simp] theorem State.resultOf_setStatus (s : State) (p q : Port) (c : Status) : (s.setStatus p c).resultOf q = s.resultOf q := by cases p <;> cases q <;> rfl

/-- A buffer word depends on the buffer and its epoch alone. -/
theorem State.txWord_congr {s t : State} (h : t.tx = s.tx) (e : t.txEpoch = s.txEpoch) (i : Nat) : t.txWord i = s.txWord i := by
  unfold State.txWord; rw [h, e]

/-- A buffer word depends on the buffer and its epoch alone. -/
theorem State.rxWord_congr {s t : State} (h : t.rx = s.rx) (e : t.rxEpoch = s.rxEpoch) (i : Nat) : t.rxWord i = s.rxWord i := by
  unfold State.rxWord; rw [h, e]

@[simp] theorem State.txWord_setStatus (s : State) (p : Port) (c : Status) (i : Nat) : (s.setStatus p c).txWord i = s.txWord i :=
  State.txWord_congr (by simp) (by simp) i

@[simp] theorem State.rxWord_setStatus (s : State) (p : Port) (c : Status) (i : Nat) : (s.setStatus p c).rxWord i = s.rxWord i :=
  State.rxWord_congr (by simp) (by simp) i

end Sys2Proof.Machine
end

