-- ==== Sys2Proof/Laws/Families.lean ====
section
/-! SUPPORT. Laws of the parameters: buffer sizes, and what holds of every descriptor of the family table. -/

namespace Sys2Proof.Machine

open Sys2Proof

theorem minBuffer_le_txCap : 63 ≤ Config.txCap := Nat.le_add_right _ _

theorem minBuffer_le_rxCap : 63 ≤ Config.rxCap := Nat.le_add_right _ _

theorem txCap_lt : Config.txCap < 2 ^ 32 := by
  have h := Config.txSpare.isLt
  have e : Config.txCap = 63 + Config.txSpare.val := rfl
  omega

theorem rxCap_lt : Config.rxCap < 2 ^ 32 := by
  have h := Config.rxSpare.isLt
  have e : Config.rxCap = 63 + Config.rxSpare.val := rfl
  omega

/-- `fitsTx` is the comparison with TX_CAP. -/
theorem fitsTx_iff (n : Nat) : Config.fitsTx n = true ↔ n ≤ Config.txCap := by
  have h := minBuffer_le_txCap
  have e : Config.minBuffer = 63 := rfl
  simp only [Config.fitsTx, Bool.or_eq_true, decide_eq_true_eq, e]
  omega

/-- `fitsRx` is the comparison with RX_CAP. -/
theorem fitsRx_iff (n : Nat) : Config.fitsRx n = true ↔ n ≤ Config.rxCap := by
  have h := minBuffer_le_rxCap
  have e : Config.minBuffer = 63 := rfl
  simp only [Config.fitsRx, Bool.or_eq_true, decide_eq_true_eq, e]
  omega

/-- Larger buffer memories keep a descriptor well-formed. -/
theorem Descriptor.wf_mono {d : Descriptor} {m n m' n' : Nat} (hm : m ≤ m') (hn : n ≤ n')
    (h : d.wf m n = true) : d.wf m' n' = true := by
  simp only [Descriptor.wf, fitsBuffers, Bool.and_eq_true, decide_eq_true_eq] at h ⊢
  exact ⟨h.1, h.2.1.trans hm, h.2.2.trans hn⟩

theorem refA_wf : refA.wf 63 63 = true := by decide

theorem refB_wf : refB.wf 63 63 = true := by decide

theorem refC_wf : refC.wf 63 63 = true := by decide

/-- Every descriptor the family table returns is well-formed (the premise of R232). -/
theorem familyTable_wf {tag : Word} {d : Descriptor} (h : familyTable tag = some d) :
    d.wf Config.txCap Config.rxCap = true := by
  unfold familyTable at h
  split at h
  · cases h
  · split at h
    · cases ho : Config.openFamily (tag.setWidth 8) with
      | none => rw [ho] at h; cases h
      | some f =>
        rw [ho] at h
        cases h
        have := f.2
        simp only [Descriptor.admissible, Bool.and_eq_true] at this
        exact this.1.1
    · have mono := @Descriptor.wf_mono d 63 63 _ _ minBuffer_le_txCap minBuffer_le_rxCap
      split at h
      · cases h; exact mono refA_wf
      · split at h
        · cases h; exact mono refB_wf
        · split at h
          · cases h; exact mono refC_wf
          · cases h

theorem dataLen_le_txCap {d : Descriptor} (h : d.wf Config.txCap Config.rxCap = true) : dataLen d ≤ Config.txCap := by
  simp only [Descriptor.wf, fitsBuffers, Bool.and_eq_true, decide_eq_true_eq] at h
  exact h.2.1

theorem dataLen_le_rxCap {d : Descriptor} (h : d.wf Config.txCap Config.rxCap = true) : dataLen d ≤ Config.rxCap := by
  simp only [Descriptor.wf, fitsBuffers, Bool.and_eq_true, decide_eq_true_eq] at h
  exact h.2.2

/-- A constructed engine's descriptor is the table's. -/
@[simp] theorem descriptorAt_of_some {tag : Word} {d : Descriptor} (h : familyTable tag = some d) : descriptorAt tag = d := by
  simp only [descriptorAt, h, Option.getD_some]

end Sys2Proof.Machine
end

