-- ==== Sys2Proof/Laws/Templates.lean ====
section
/-! SUPPORT. What well-formedness of a descriptor says of its template, in the form proofs use. -/

namespace Sys2Proof.Machine

open Sys2Proof

theorem Descriptor.wf_parts {d : Descriptor} {m n : Nat} (h : d.wf m n = true) :
    headFirst d.template = true ∧ endLast d.template = true ∧ addrBeforeCmd d.template = true
      ∧ widthsAgree d.template = true ∧ auxDeclared d = true ∧ gapDeclared d = true
      ∧ d.checks.all (checkDeclared d) = true ∧ dataLen d ≤ m ∧ dataLen d ≤ n := by
  simp only [Descriptor.wf, fitsBuffers, Bool.and_eq_true, decide_eq_true_eq] at h
  tauto

/-- A well-formed template is HEAD, then segments that are neither HEAD nor END, then END (R232). -/
theorem template_shape {d : Descriptor} {m n : Nat} (h : d.wf m n = true) :
    ∃ mid, d.template = .head :: (mid ++ [.endMark]) ∧ ∀ g ∈ mid, g ≠ .head ∧ g ≠ .endMark := by
  obtain ⟨hh, he, -⟩ := Descriptor.wf_parts h
  simp only [headFirst, endLast, Bool.and_eq_true, beq_iff_eq] at hh he
  cases ht : d.template with
  | nil => rw [ht] at hh; simp at hh
  | cons g gs =>
    rw [ht] at hh he
    obtain ⟨hg, hgs⟩ := hh
    obtain ⟨hl, hd⟩ := he
    simp only [List.head?_cons, Option.some.injEq] at hg
    subst hg
    simp only [List.tail_cons, List.all_eq_true, bne_iff_ne, ne_eq] at hgs
    cases hgs' : gs with
    | nil => subst hgs'; simp at hl
    | cons g' gs' =>
      have hne : gs ≠ [] := by rw [hgs']; exact List.cons_ne_nil _ _
      rw [List.getLast?_cons, List.getLast?_eq_some_getLast hne] at hl
      simp only [Option.getD_some, Option.some.injEq] at hl
      have e := List.dropLast_append_getLast hne
      rw [hl] at e
      refine ⟨gs.dropLast, by rw [← hgs', e], fun x hx => ⟨hgs x (List.mem_of_mem_dropLast hx), ?_⟩⟩
      simp only [List.all_eq_true, bne_iff_ne, ne_eq] at hd
      apply hd x
      rw [hgs'] at hx ⊢
      simp only [List.dropLast_cons_cons, List.mem_cons]
      exact .inr hx

/-- Every field of a well-formed template is 1 to 32 bits wide and as wide as its source's first field (R232). -/
theorem field_width {d : Descriptor} {m n : Nat} (h : d.wf m n = true) {src : Source} {w : Nat} {o : BitOrder}
    {inv : Bool} (hf : Segment.field src w o inv ∈ d.template) : 1 ≤ w ∧ w ≤ 32 ∧ w = fieldWidth d.template src := by
  have hw := (Descriptor.wf_parts h).2.2.2.1
  simp only [widthsAgree, List.all_eq_true, Bool.and_eq_true, decide_eq_true_eq, beq_iff_eq] at hw
  have := hw (src, w) (by
    simp only [fieldsOf, List.mem_filterMap]
    exact ⟨_, hf, rfl⟩)
  exact ⟨this.1.1, this.1.2, this.2⟩

/-- The number of words of a segment (R234). -/
def segmentSize : Segment → Nat
  | .head => 1
  | .field _ w _ _ => w
  | .gap => 1
  | .endMark => 2

@[simp] theorem segmentWords_length (b : BuilderRegs) (a c q : Word) (g : Segment) :
    (segmentWords b a c q g).length = segmentSize g := by
  cases g <;> simp [segmentWords, segmentSize]

theorem flatMap_words_length (b : BuilderRegs) (a c q : Word) (gs : List Segment) :
    (gs.flatMap (segmentWords b a c q)).length = (gs.map segmentSize).sum := by
  simp only [List.length_flatMap, segmentWords_length]

/-- The records the middle of a template stands for: its bits and its gaps. -/
theorem middle_size {gs : List Segment} (h : ∀ g ∈ gs, g ≠ .head ∧ g ≠ .endMark) :
    (gs.map segmentSize).sum = ((fieldsOf gs).map (·.2)).sum + gapCount gs := by
  induction gs with
  | nil => rfl
  | cons g gs ih =>
    have ih := ih fun x hx => h x (List.mem_cons_of_mem _ hx)
    have hg := h g List.mem_cons_self
    simp only [fieldsOf, gapCount] at ih ⊢
    cases g with
    | head => exact absurd rfl hg.1
    | endMark => exact absurd rfl hg.2
    | field src w o inv => simp only [List.map_cons, List.sum_cons, segmentSize, ih]; simp [fieldOf]; omega
    | gap => simp only [List.map_cons, List.sum_cons, segmentSize, ih]; simp [fieldOf, List.filterMap_cons]; omega

/-- DATA_LEN is the number of words the template's segments stand for (R234). -/
theorem template_size {d : Descriptor} {m n : Nat} (h : d.wf m n = true) :
    (d.template.map segmentSize).sum = dataLen d := by
  obtain ⟨mid, ht, hm⟩ := template_shape h
  have := middle_size hm
  simp only [dataLen, ht]
  simp [segmentSize, fieldsOf, gapCount, fieldOf, List.filterMap_cons] at this ⊢
  omega

/-- A data frame has DATA_LEN words (R164). -/
theorem frameWords_length (b : BuilderRegs) {d : Descriptor} {m n : Nat} (h : d.wf m n = true) (a c q : Word) :
    (frameWords b d a c q).length = dataLen d := by
  rw [frameWords, flatMap_words_length, template_size h]

@[simp] theorem segmentExpected_length (a c q : Word) (g : Segment) (h : g ≠ .endMark) :
    (segmentExpected a c q g).length = segmentSize g := by
  cases g <;> simp_all [segmentExpected, segmentSize]

/-- A Parser reads DATA_LEN - 2 records of a data frame (R199). -/
theorem frameExpected_length {d : Descriptor} {m n : Nat} (h : d.wf m n = true) (a c q : Word) :
    (frameExpected d a c q).length + 2 = dataLen d := by
  rw [← template_size h]
  obtain ⟨mid, ht, hm⟩ := template_shape h
  have : (mid.flatMap (segmentExpected a c q)).length = (mid.map segmentSize).sum := by
    rw [List.length_flatMap]
    congr 1
    apply List.map_congr_left
    intro g hg
    exact segmentExpected_length a c q g (hm g hg).2
  simp only [frameExpected, ht]
  simp [segmentExpected, segmentSize] at this ⊢
  omega

/-- DATA_LEN is at least 5 (R234). -/
theorem five_le_dataLen {d : Descriptor} {m n : Nat} (h : d.wf m n = true) : 5 ≤ dataLen d := by
  have hp := Descriptor.wf_parts h
  have ha := hp.2.2.1
  have hw := hp.2.2.2.1
  simp only [addrBeforeCmd, Bool.and_eq_true, List.contains_iff_mem, List.mem_map] at ha
  obtain ⟨⟨⟨f, hf, hfs⟩, ⟨g, hg, hgs⟩⟩, -⟩ := ha
  simp only [widthsAgree, List.all_eq_true, Bool.and_eq_true, decide_eq_true_eq] at hw
  have h1 := (hw f hf).1.1
  have h2 := (hw g hg).1.1
  have hne : f ≠ g := by rintro rfl; rw [hfs] at hgs; cases hgs
  have key : ∀ l : List (Source × Nat), f ∈ l → g ∈ l → 2 ≤ (l.map (·.2)).sum := by
    intro l
    induction l with
    | nil => intro hf; cases hf
    | cons x l ih =>
      intro hf hg
      simp only [List.map_cons, List.sum_cons]
      have one : ∀ y, 1 ≤ y.2 → y ∈ l → 1 ≤ (l.map (·.2)).sum := fun y hy hyl =>
        hy.trans (List.single_le_sum (fun _ _ => Nat.zero_le _) _ (List.mem_map_of_mem hyl))
      rcases List.mem_cons.mp hf with ef | hf' <;> rcases List.mem_cons.mp hg with eg | hg'
      · exact absurd (ef.trans eg.symm) hne
      · have := one _ h2 hg'; subst ef; omega
      · have := one _ h1 hf'; subst eg; omega
      · have := ih hf' hg'; omega
  have := key _ hf hg
  unfold dataLen
  omega

end Sys2Proof.Machine
end

