-- ==== Sys2Proof/Laws/Walk.lean ====
section
/-! SUPPORT. The Parser's walk: where it stops, and what it gathers from records that pass. -/

namespace Sys2Proof.Machine

open Sys2Proof

/-! ## Bits of a field -/

theorem bitIndex_lt {k w : Nat} (h : k < w) (o : BitOrder) : bitIndex k w o < w := by
  cases o <;> simp only [bitIndex] <;> omega

theorem bitIndex_inj {j k w : Nat} (hj : j < w) (hk : k < w) (o : BitOrder) (h : bitIndex j w o = bitIndex k w o) :
    j = k := by
  cases o <;> simp only [bitIndex] at h <;> omega

/-- Every bit of a field travels at some position (R99). -/
theorem bitIndex_surj {i w : Nat} (h : i < w) (o : BitOrder) : ∃ k, k < w ∧ bitIndex k w o = i := by
  cases o with
  | lsb => exact ⟨i, h, rfl⟩
  | msb => exact ⟨w - 1 - i, by omega, by simp only [bitIndex]; omega⟩

theorem placeBit_getLsbD (v : Word) {i : Nat} (hi : i < 32) (b : Bool) (j : Nat) :
    (placeBit v i b).getLsbD j = (v.getLsbD j || (b && decide (j = i))) := by
  unfold placeBit
  cases b with
  | false => simp
  | true =>
    simp only [BitVec.getLsbD_or, Bool.true_and, if_true]
    congr 1
    rw [BitVec.getLsbD_ofNat, Nat.testBit_two_pow]
    by_cases h : j = i
    · subst h; simp [hi]
    · simp [h, Ne.symm h]

theorem lowBits_getLsbD (n : Nat) (v : Word) (i : Nat) : (lowBits n v).getLsbD i = (decide (i < n) && v.getLsbD i) := by
  unfold lowBits
  rw [BitVec.getLsbD_ofNat, Nat.testBit_mod_two_pow]
  by_cases h : i < 32
  · simp [h, BitVec.getLsbD]
  · simp [h, BitVec.getLsbD_of_ge v i (by omega)]

theorem lowBits_toNat {n : Nat} (v : Word) : (lowBits n v).toNat = v.toNat % 2 ^ n := by
  unfold lowBits
  rw [BitVec.toNat_ofNat]
  exact Nat.mod_eq_of_lt (lt_of_le_of_lt (Nat.mod_le _ _) v.isLt)

theorem lowBits_lt (n : Nat) (v : Word) : (lowBits n v).toNat < 2 ^ n := by
  rw [lowBits_toNat]; exact Nat.mod_lt _ (Nat.two_pow_pos n)

theorem lowBits_of_lt {n : Nat} {v : Word} (h : v.toNat < 2 ^ n) : lowBits n v = v := by
  apply BitVec.eq_of_toNat_eq
  rw [lowBits_toNat, Nat.mod_eq_of_lt h]

/-- What has been placed after `pos` positions of a field carrying `u` (R200). -/
def Placed (u v : Word) (w pos : Nat) (o : BitOrder) : Prop :=
  ∀ i, v.getLsbD i = true ↔ ∃ j, j < pos ∧ bitIndex j w o = i ∧ u.getLsbD i = true

theorem Placed.all {u v : Word} {w : Nat} {o : BitOrder} (h : Placed u v w w o) (hu : u.toNat < 2 ^ w) : v = u := by
  apply BitVec.eq_of_getLsbD_eq
  intro i _
  rw [Bool.eq_iff_iff, h i]
  constructor
  · rintro ⟨_, -, -, hb⟩; exact hb
  · intro hb
    have hi : i < w := by
      by_contra hn
      rw [BitVec.getLsbD, Nat.testBit_lt_two_pow (lt_of_lt_of_le hu (Nat.pow_le_pow_right (by omega) (by omega)))] at hb
      cases hb
    obtain ⟨j, hj, hji⟩ := bitIndex_surj hi o
    exact ⟨j, hj, hji, hb⟩

theorem Placed.next {u v : Word} {w pos : Nat} {o : BitOrder} (h : Placed u v w pos o) (hp : pos < w) (hw : w ≤ 32) :
    Placed u (placeBit v (bitIndex pos w o) (u.getLsbD (bitIndex pos w o))) w (pos + 1) o := by
  intro i
  rw [placeBit_getLsbD v ((bitIndex_lt hp o).trans_le hw), Bool.or_eq_true, h i]
  simp only [Bool.and_eq_true, decide_eq_true_eq]
  constructor
  · rintro (⟨j, hj, hji, hb⟩ | ⟨hb, rfl⟩)
    · exact ⟨j, by omega, hji, hb⟩
    · exact ⟨pos, by omega, rfl, hb⟩
  · rintro ⟨j, hj, hji, hb⟩
    rcases Nat.lt_succ_iff_lt_or_eq.mp hj with hj | rfl
    · exact .inl ⟨j, hj, hji, hb⟩
    · subst hji; exact .inr ⟨hb, rfl⟩

/-- Records that classify as the bits of `u` in wire order decode to `u` (R200). -/
theorem decodeBits_value (s : State) (w : Nat) (o : BitOrder) (inv : Bool) (u : Word) (hw : w ≤ 32)
    (hu : u.toNat < 2 ^ w) (n pos : Nat) (hn : pos + n = w) (v : Word) (hv : Placed u v w pos o) (k : Walk)
    (hk : ∀ j, j < n → classify s.pp (s.rxWord (k.cursor + j)) = some (u.getLsbD (bitIndex (pos + j) w o) ^^ inv)) :
    decodeBits s w o inv n pos v k =
      .value u { k with cursor := k.cursor + n, pstate := if n = 0 then k.pstate else .bitsAccumulating } := by
  induction n generalizing pos v k with
  | zero =>
    rw [show pos = w by omega] at hv
    simp only [decodeBits, hv.all hu, Nat.add_zero, if_true]
  | succ n ih =>
    have h0 := hk 0 (by omega)
    simp only [Nat.add_zero] at h0
    simp only [decodeBits, h0, Bool.xor_assoc, Bool.xor_self, Bool.xor_false]
    rw [ih (pos + 1) (by omega) _ (hv.next (by omega) hw)]
    · simp only [Walk.advance, ite_self, Nat.add_eq_zero_iff, Nat.one_ne_zero, and_false, if_false, Nat.add_right_comm,
        Nat.add_assoc]
    · intro j hj
      have := hk (j + 1) (by omega)
      simp only [Walk.advance]
      rw [show k.cursor + 1 + j = k.cursor + (j + 1) by omega, show pos + 1 + j = pos + (j + 1) by omega]
      exact this

/-! ## Where a walk stops (R199, R264) -/

/-- Reading a field either passes all its records or stops after the first one that matches neither template. -/
theorem decodeBits_stops (s : State) (w : Nat) (o : BitOrder) (inv : Bool) (n pos : Nat) (v : Word) (k : Walk) :
    (∃ v' k', decodeBits s w o inv n pos v k = .value v' k' ∧ k'.cursor = k.cursor + n
      ∧ (∀ j, j < n → classify s.pp (s.rxWord (k.cursor + j)) ≠ none)
      ∧ k'.addr = k.addr ∧ k'.cmd = k.cmd ∧ k'.aux = k.aux ∧ k'.copyBad = k.copyBad)
    ∨ ∃ j k', j < n ∧ decodeBits s w o inv n pos v k = .mismatch k' ∧ k'.cursor = k.cursor + j + 1
      ∧ classify s.pp (s.rxWord (k.cursor + j)) = none
      ∧ (∀ i, i < j → classify s.pp (s.rxWord (k.cursor + i)) ≠ none) := by
  induction n generalizing pos v k with
  | zero => exact .inl ⟨v, k, rfl, rfl, fun j hj => by omega, rfl, rfl, rfl, rfl⟩
  | succ n ih =>
    cases hc : classify s.pp (s.rxWord k.cursor) with
    | none =>
      exact .inr ⟨0, k.advance, by omega, by simp only [decodeBits, hc], rfl, hc, fun i hi => by omega⟩
    | some b =>
      have shift : ∀ j, k.cursor + 1 + j = k.cursor + (j + 1) := fun j => by omega
      rcases ih (pos + 1) (placeBit v (bitIndex pos w o) (b ^^ inv)) { k.advance with pstate := .bitsAccumulating } with
        ⟨v', k', he, hcur, hall, h1, h2, h3, h4⟩ | ⟨j, k', hj, he, hcur, hbad, hall⟩
      · refine .inl ⟨v', k', by simp only [decodeBits, hc, he], by rw [hcur]; simp only [Walk.advance]; omega, ?_, h1, h2, h3, h4⟩
        intro j hj
        cases j with
        | zero => rw [Nat.add_zero, hc]; exact Option.some_ne_none b
        | succ j => have := hall j (by omega); simpa only [Walk.advance, shift] using this
      · refine .inr ⟨j + 1, k', by omega, by simp only [decodeBits, hc, he],
          by rw [hcur]; simp only [Walk.advance]; omega, by simpa only [Walk.advance, shift] using hbad, ?_⟩
        intro i hi
        cases i with
        | zero => rw [Nat.add_zero, hc]; exact Option.some_ne_none b
        | succ i => have := hall i (by omega); simpa only [Walk.advance, shift] using this

/-- The records of `es` from index `at_` on all match some template expected of them. -/
def AllPass (s : State) (at_ : Nat) (es : List Expected) : Prop :=
  ∀ i e, es[i]? = some e → ¬MatchesNothing s.pp (s.rxWord (at_ + i)) e

/-- Record `n` of `es` is the first that matches no template expected of it. -/
def FirstBad (s : State) (at_ n : Nat) (es : List Expected) : Prop :=
  (∃ e, es[n]? = some e ∧ MatchesNothing s.pp (s.rxWord (at_ + n)) e)
    ∧ ∀ i e, i < n → es[i]? = some e → ¬MatchesNothing s.pp (s.rxWord (at_ + i)) e

theorem FirstBad.lt {s : State} {at_ n : Nat} {es : List Expected} (h : FirstBad s at_ n es) : n < es.length := by
  obtain ⟨⟨e, he, -⟩, -⟩ := h
  by_contra hn
  rw [List.getElem?_eq_none (by omega)] at he
  cases he

theorem FirstBad.unique {s : State} {at_ m n : Nat} {es : List Expected} (hm : FirstBad s at_ m es)
    (hn : FirstBad s at_ n es) : m = n := by
  obtain ⟨⟨e, he, hb⟩, hp⟩ := hm
  obtain ⟨⟨f, hf, hb'⟩, hp'⟩ := hn
  rcases Nat.lt_trichotomy m n with h | h | h
  · exact absurd hb (hp' m e h he)
  · exact h
  · exact absurd hb' (hp n f h hf)

theorem AllPass.not_bad {s : State} {at_ n : Nat} {es : List Expected} (h : AllPass s at_ es)
    (hb : FirstBad s at_ n es) : False := by
  obtain ⟨⟨e, he, hb⟩, -⟩ := hb
  exact h n e he hb

theorem AllPass.append {s : State} {at_ : Nat} {es fs : List Expected} (h : AllPass s at_ es)
    (h' : AllPass s (at_ + es.length) fs) : AllPass s at_ (es ++ fs) := by
  intro i e he
  rcases Nat.lt_or_ge i es.length with hi | hi
  · rw [List.getElem?_append_left hi] at he; exact h i e he
  · rw [List.getElem?_append_right hi] at he
    have := h' _ e he
    rwa [show at_ + es.length + (i - es.length) = at_ + i by omega] at this

theorem FirstBad.append_left {s : State} {at_ n : Nat} {es : List Expected} (h : FirstBad s at_ n es)
    (fs : List Expected) : FirstBad s at_ n (es ++ fs) := by
  have hl := h.lt
  obtain ⟨⟨e, he, hb⟩, hp⟩ := h
  refine ⟨⟨e, by rwa [List.getElem?_append_left hl], hb⟩, fun i f hi hf => hp i f hi ?_⟩
  rwa [List.getElem?_append_left (by omega)] at hf

theorem FirstBad.append_right {s : State} {at_ n : Nat} {es fs : List Expected} (h : AllPass s at_ es)
    (hb : FirstBad s (at_ + es.length) n fs) : FirstBad s at_ (es.length + n) (es ++ fs) := by
  obtain ⟨⟨e, he, hb⟩, hp⟩ := hb
  refine ⟨⟨e, ?_, ?_⟩, fun i f hi hf => ?_⟩
  · rw [List.getElem?_append_right (by omega), Nat.add_sub_cancel_left]; exact he
  · rwa [← Nat.add_assoc]
  · rcases Nat.lt_or_ge i es.length with hl | hl
    · rw [List.getElem?_append_left hl] at hf; exact h i f hf
    · rw [List.getElem?_append_right hl] at hf
      have := hp _ f (by omega) hf
      rwa [show at_ + es.length + (i - es.length) = at_ + i by omega] at this

/-- One segment of a walk (R199): all its records pass, or the walk stops after the first that does not. -/
theorem walkSegment_stops (s : State) (a c q : Word) (g : Segment) (k : Walk) :
    (∃ k', walkSegment s g k = .matched k' ∧ k'.cursor = k.cursor + (segmentExpected a c q g).length
      ∧ AllPass s k.cursor (segmentExpected a c q g))
    ∨ ∃ n k', FirstBad s k.cursor n (segmentExpected a c q g) ∧ walkSegment s g k = .mismatch k'
      ∧ k'.cursor = k.cursor + n + 1 ∧ k'.pstate = .failed := by
  have single : ∀ e : Expected, ∀ b : Bool, (MatchesNothing s.pp (s.rxWord k.cursor) e ↔ b = false) →
      (b = true → AllPass s k.cursor [e]) ∧ (b = false → FirstBad s k.cursor 0 [e]) := by
    intro e b hb
    refine ⟨fun ht i f hf => ?_, fun hf => ⟨⟨e, rfl, hb.mpr hf⟩, fun i f hi => by omega⟩⟩
    rcases i with _ | i
    · simp only [List.getElem?_cons_zero, Option.some.injEq] at hf
      subst hf
      rw [Nat.add_zero, hb, ht]
      exact Bool.noConfusion
    · simp at hf
  cases g with
  | head =>
    have hs := single .head _ Iff.rfl
    cases hm : symMatch s.pp (s.rxWord k.cursor) s.pp.profile.leadHi s.pp.profile.leadLo with
    | true => exact .inl ⟨{ k.advance with pstate := .headMatched }, by simp only [walkSegment, hm, if_true], rfl, hs.1 hm⟩
    | false => exact .inr ⟨0, { k.advance with pstate := .failed }, hs.2 hm, by simp only [walkSegment, hm, Walk.fail]; rfl, rfl, rfl⟩
  | gap =>
    have hs := single .gap _ Iff.rfl
    cases hm : symMatch s.pp (s.rxWord k.cursor) s.pp.profile.gapHi s.pp.profile.gapLo with
    | true => exact .inl ⟨k.advance, by simp only [walkSegment, hm, if_true], rfl, hs.1 hm⟩
    | false => exact .inr ⟨0, { k.advance with pstate := .failed }, hs.2 hm, by simp only [walkSegment, hm, Walk.fail]; rfl, rfl, rfl⟩
  | endMark => exact .inl ⟨k, rfl, rfl, fun i e he => by simp [segmentExpected] at he⟩
  | field src w o inv =>
    have hget : ∀ i e, (segmentExpected a c q (.field src w o inv))[i]? = some e → i < w ∧ ∃ b, e = .bit b := by
      intro i e he
      simp only [segmentExpected, List.getElem?_map, Option.map_eq_some_iff] at he
      obtain ⟨j, hj, rfl⟩ := he
      rw [List.getElem?_eq_some_iff] at hj
      obtain ⟨hj, -⟩ := hj
      rw [List.length_range] at hj
      exact ⟨hj, _, rfl⟩
    rcases decodeBits_stops s w o inv w 0 0 k with ⟨v, k', he, hcur, hall, -⟩ | ⟨j, k', hj, he, hcur, hbad, hall⟩
    · refine .inl ⟨k'.record src v, by simp only [walkSegment, decodeField, he], ?_, ?_⟩
      · have hr : (k'.record src v).cursor = k'.cursor := by
          unfold Walk.record
          split
          · split <;> rfl
          · cases src <;> rfl
        rw [hr, hcur]; simp only [segmentExpected, List.length_map, List.length_range]
      · intro i e hi
        obtain ⟨hlt, b, rfl⟩ := hget i e hi
        exact hall i hlt
    · refine .inr ⟨j, { k' with pstate := .failed }, ⟨⟨.bit ((pick a c q src).getLsbD (bitIndex j w o) ^^ inv), ?_, hbad⟩, ?_⟩,
        by simp only [walkSegment, decodeField, he, Walk.fail], hcur, rfl⟩
      · simp only [segmentExpected, List.getElem?_map, List.getElem?_range hj, Option.map_some]
      · intro i e hi he'
        obtain ⟨-, b, rfl⟩ := hget i e he'
        exact hall i hi

/-- The walk over a template (R199, R264): every record passes and the cursor is past them all, or the walk stops one
past the first record that does not pass, in Failed. -/
theorem walkTemplate_stops (s : State) (a c q : Word) (gs : List Segment) (k : Walk) :
    (∃ k', walkTemplate s gs k = .matched k'
      ∧ k'.cursor = k.cursor + (gs.flatMap (segmentExpected a c q)).length
      ∧ AllPass s k.cursor (gs.flatMap (segmentExpected a c q)))
    ∨ ∃ n k', FirstBad s k.cursor n (gs.flatMap (segmentExpected a c q)) ∧ walkTemplate s gs k = .mismatch k'
      ∧ k'.cursor = k.cursor + n + 1 ∧ k'.pstate = .failed := by
  induction gs generalizing k with
  | nil => exact .inl ⟨k, rfl, rfl, fun i e he => by simp at he⟩
  | cons g gs ih =>
    rw [List.flatMap_cons]
    rcases walkSegment_stops s a c q g k with ⟨k', he, hcur, hall⟩ | ⟨n, k', hb, he, hcur, hf⟩
    · rcases ih k' with ⟨k'', he', hcur', hall'⟩ | ⟨n, k'', hb, he', hcur', hf⟩
      · refine .inl ⟨k'', by simp only [walkTemplate, he, WalkResult.andThen, he'], ?_, hall.append (hcur ▸ hall')⟩
        rw [hcur', hcur, List.length_append]; omega
      · refine .inr ⟨_, k'', FirstBad.append_right hall (hcur ▸ hb),
          by simp only [walkTemplate, he, WalkResult.andThen, he'], ?_, hf⟩
        rw [hcur', hcur]; omega
    · exact .inr ⟨n, k', hb.append_left _, by simp only [walkTemplate, he, WalkResult.andThen], hcur, hf⟩

/-! ## What a walk gathers (R199) -/

/-- The walk has only read values of the frame that carries `a`, `c` and `q`. -/
def Walk.Agrees (a c q : Word) (k : Walk) : Prop :=
  (∀ src u, k.first src = some u → u = pick a c q src) ∧ k.copyBad = false

theorem record_agrees {a c q : Word} {k : Walk} (h : k.Agrees a c q) (src : Source) :
    (k.record src (pick a c q src)).Agrees a c q ∧ (k.record src (pick a c q src)).first src = some (pick a c q src)
      ∧ (∀ x u, k.first x = some u → (k.record src (pick a c q src)).first x = some u)
      ∧ (k.record src (pick a c q src)).cursor = k.cursor ∧ (k.record src (pick a c q src)).pstate = k.pstate := by
  obtain ⟨hv, hc⟩ := h
  unfold Walk.record
  cases hf : k.first src with
  | some u =>
    have hu := hv src u hf
    subst hu
    simp only [ne_eq, not_true_eq_false, if_false]
    exact ⟨⟨hv, hc⟩, hf, fun _ _ h => h, trivial, trivial⟩
  | none =>
    simp only
    refine ⟨⟨?_, ?_⟩, ?_, ?_, ?_, ?_⟩
    · intro x u hx
      cases src <;> cases x <;> first
        | exact (Option.some.inj hx).symm
        | exact hv .addr u hx
        | exact hv .cmd u hx
        | exact hv .aux u hx
    · cases src <;> exact hc
    · cases src <;> rfl
    · intro x u hx
      cases src <;> cases x <;> first
        | exact hx
        | (rw [hf] at hx; cases hx)
    · cases src <;> rfl
    · cases src <;> rfl

/-- Every record of `es` from index `at_` on is accepted as what it stands for. -/
def AllAccepted (s : State) (at_ : Nat) (es : List Expected) : Prop :=
  ∀ i e, es[i]? = some e → Accepts s.pp (s.rxWord (at_ + i)) e

theorem AllAccepted.left {s : State} {at_ : Nat} {es fs : List Expected} (h : AllAccepted s at_ (es ++ fs)) :
    AllAccepted s at_ es := by
  intro i e he
  refine h i e ?_
  have hi : i < es.length := by
    by_contra hn
    rw [List.getElem?_eq_none (by omega)] at he
    cases he
  rwa [List.getElem?_append_left hi]

theorem AllAccepted.right {s : State} {at_ : Nat} {es fs : List Expected} (h : AllAccepted s at_ (es ++ fs)) :
    AllAccepted s (at_ + es.length) fs := by
  intro i e he
  have := h (es.length + i) e (by rw [List.getElem?_append_right (by omega), Nat.add_sub_cancel_left]; exact he)
  rwa [← Nat.add_assoc] at this

/-- A field whose records are accepted decodes to the value they carry (R200). -/
theorem decodeField_accepted (s : State) (a c q : Word) {src : Source} {w : Nat} {o : BitOrder} {inv : Bool}
    (hw : 1 ≤ w ∧ w ≤ 32) (hu : (pick a c q src).toNat < 2 ^ w) (k : Walk)
    (h : AllAccepted s k.cursor (segmentExpected a c q (.field src w o inv))) :
    decodeField s w o inv k =
      .value (pick a c q src) { k with cursor := k.cursor + w, pstate := .bitsAccumulating } := by
  have := decodeBits_value s w o inv (pick a c q src) hw.2 hu w 0 (by omega) 0
    (fun i => ⟨fun hi => by simp at hi, fun ⟨j, hj, _⟩ => by omega⟩) k (fun j hj => by
      have := h j (.bit ((pick a c q src).getLsbD (bitIndex j w o) ^^ inv)) (by
        simp only [segmentExpected, List.getElem?_map, List.getElem?_range hj, Option.map_some])
      simpa only [Accepts, Nat.zero_add] using this)
  rw [if_neg (by omega)] at this
  exact this

/-- The walk over records that are all accepted gathers what they carry (R199). -/
theorem walkTemplate_accepted (s : State) {a c q : Word} {gs : List Segment} {k : Walk}
    (hfit : ∀ src w o inv, Segment.field src w o inv ∈ gs → (1 ≤ w ∧ w ≤ 32) ∧ (pick a c q src).toNat < 2 ^ w)
    (hk : k.Agrees a c q) (h : AllAccepted s k.cursor (gs.flatMap (segmentExpected a c q))) :
    ∃ k', walkTemplate s gs k = .matched k' ∧ k'.Agrees a c q
      ∧ k'.cursor = k.cursor + (gs.flatMap (segmentExpected a c q)).length
      ∧ (∀ x u, k.first x = some u → k'.first x = some u)
      ∧ ∀ src w o inv, Segment.field src w o inv ∈ gs → k'.first src = some (pick a c q src) := by
  induction gs generalizing k with
  | nil => exact ⟨k, rfl, hk, rfl, fun _ _ h => h, fun _ _ _ _ h => by cases h⟩
  | cons g gs ih =>
    rw [List.flatMap_cons] at h ⊢
    have hrest : ∀ src w o inv, Segment.field src w o inv ∈ gs → (1 ≤ w ∧ w ≤ 32) ∧ (pick a c q src).toNat < 2 ^ w :=
      fun src w o inv hm => hfit src w o inv (List.mem_cons_of_mem _ hm)
    have step : ∃ k', walkSegment s g k = .matched k' ∧ k'.Agrees a c q
        ∧ k'.cursor = k.cursor + (segmentExpected a c q g).length ∧ (∀ x u, k.first x = some u → k'.first x = some u)
        ∧ ∀ src w o inv, g = .field src w o inv → k'.first src = some (pick a c q src) := by
      cases g with
      | head =>
        have h0 := h 0 .head rfl
        refine ⟨{ k.advance with pstate := .headMatched }, ?_, hk, rfl, fun x u hx => by cases x <;> exact hx,
          fun _ _ _ _ e => by cases e⟩
        simp only [Accepts, Nat.add_zero] at h0
        simp only [walkSegment, h0, if_true]
      | gap =>
        have h0 := h 0 .gap rfl
        refine ⟨k.advance, ?_, hk, rfl, fun x u hx => by cases x <;> exact hx, fun _ _ _ _ e => by cases e⟩
        simp only [Accepts, Nat.add_zero] at h0
        simp only [walkSegment, h0, if_true]
      | endMark => exact ⟨k, rfl, hk, rfl, fun _ _ h => h, fun _ _ _ _ e => by cases e⟩
      | field src w o inv =>
        obtain ⟨hw, hu⟩ := hfit src w o inv List.mem_cons_self
        have hd := decodeField_accepted s a c q hw hu k h.left
        have ha : ({ k with cursor := k.cursor + w, pstate := .bitsAccumulating } : Walk).Agrees a c q :=
          ⟨fun x u hx => hk.1 x u (by cases x <;> exact hx), hk.2⟩
        obtain ⟨r1, r2, r3, r4, -⟩ := record_agrees ha src
        refine ⟨_, by simp only [walkSegment, hd], r1, ?_, fun x u hx => r3 x u (by cases x <;> exact hx), ?_⟩
        · rw [r4]; simp only [segmentExpected, List.length_map, List.length_range]
        · rintro src' w' o' inv' e
          cases e
          exact r2
    obtain ⟨k', he, ha, hcur, hkeep, hnew⟩ := step
    obtain ⟨k'', he', ha', hcur', hkeep', hnew'⟩ := ih hrest ha (hcur ▸ h.right)
    refine ⟨k'', by simp only [walkTemplate, he, WalkResult.andThen, he'], ha', ?_, fun x u hx => hkeep' x u (hkeep x u hx), ?_⟩
    · rw [hcur', hcur, List.length_append]; omega
    · intro src w o inv hm
      rcases List.mem_cons.mp hm with e | hm
      · exact hkeep' _ _ (hnew src w o inv e.symm)
      · exact hnew' src w o inv hm

end Sys2Proof.Machine
end

