-- ==== Sys2Proof/Laws/Checks.lean ====
section
/-! SUPPORT. Construction limits and structural checks, in the form proofs use. -/

namespace Sys2Proof.Machine

open Sys2Proof

/-- A number below 2^32 fits a register. -/
theorem ofNat_toNat {n : Nat} (h : n < 2^32) : (BitVec.ofNat 32 n).toNat = n := by
  rw [BitVec.toNat_ofNat]; exact Nat.mod_eq_of_lt h

/-- DATA_LEN fits a register (R9, R232). -/
theorem dataLen_lt {d : Descriptor} (h : d.wf Config.txCap Config.rxCap = true) : dataLen d < 2^32 :=
  lt_of_le_of_lt (dataLen_le_txCap h) txCap_lt

/-- MAXDUR is the largest used duration (R134). -/
theorem maxDur_le_iff (d : Descriptor) (t : Timing Nat) (n : Nat) : maxDur d t ≤ n ↔ ∀ x ∈ usedDurations d t, x ≤ n := by
  unfold maxDur
  induction usedDurations d t with
  | nil => simp
  | cons a l ih => simp [ih]

/-- Every duration of a resolved profile is within a bound MAXDUR is within; the unused ones are 0 (R133, R134). -/
theorem maxDur_parts {d : Descriptor} {hz n : Nat} (h : maxDur d (resolve d hz) ≤ n) :
    let t := resolve d hz
    t.leadHi ≤ n ∧ t.leadLo ≤ n ∧ t.l0Hi ≤ n ∧ t.l0Lo ≤ n ∧ t.l1Hi ≤ n ∧ t.l1Lo ≤ n ∧ t.endHi ≤ n
    ∧ t.repHi ≤ n ∧ t.repLo ≤ n ∧ t.gapHi ≤ n ∧ t.gapLo ≤ n := by
  intro t
  have h := (maxDur_le_iff d _ n).mp h
  have key : (∀ x ∈ [t.leadHi, t.leadLo, t.l0Hi, t.l0Lo, t.l1Hi, t.l1Lo, t.endHi], x ≤ n) ∧ (d.hasRepeat = true → t.repHi ≤ n ∧ t.repLo ≤ n) ∧ (d.hasGap = true → t.gapHi ≤ n ∧ t.gapLo ≤ n) := by
    refine ⟨fun x hx => h x ?_, fun hr => ⟨h _ ?_, h _ ?_⟩, fun hr => ⟨h _ ?_, h _ ?_⟩⟩ <;> simp only [usedDurations, List.mem_append]
    · exact .inl (.inl hx)
    · rw [hr]; simp [t]
    · rw [hr]; simp [t]
    · rw [hr]; simp [t]
    · rw [hr]; simp [t]
  simp only [List.mem_cons, List.not_mem_nil, or_false, forall_eq_or_imp, forall_eq] at key
  obtain ⟨⟨a, b, c, e, f, g, i⟩, k, l⟩ := key
  refine ⟨a, b, c, e, f, g, i, ?_, ?_, ?_, ?_⟩
  · by_cases hr : d.hasRepeat = true
    · exact (k hr).1
    · simp [t, resolve, hr]
  · by_cases hr : d.hasRepeat = true
    · exact (k hr).2
    · simp [t, resolve, hr]
  · by_cases hr : d.hasGap = true
    · exact (l hr).1
    · simp [t, resolve, hr]
  · by_cases hr : d.hasGap = true
    · exact (l hr).2
    · simp [t, resolve, hr]

/-- INV_HALVES spelled out (R235). -/
theorem halves_iff (h : Nat) (v : Word) : halvesComplement h v = true ↔ HalvesHold h v := by
  simp [halvesComplement, HalvesHold, notBits]

/-- CHECKS_B spelled out (R159). -/
theorem checksB_iff {d : Descriptor} (hw : d.wf Config.txCap Config.rxCap = true) (ext : Bool) (a c : Word) : checksB d ext a c = true ↔ BuilderChecksHold d ext a c := by
  have hd := (Descriptor.wf_parts hw).2.2.2.2.2.2.1
  unfold checksB BuilderChecksHold
  rw [List.all_eq_true] at *
  constructor
  · intro H src h b1 b2 hm
    have := H _ hm
    have hs := hd _ hm
    simp only [builderCheck, Bool.or_eq_true, Bool.and_eq_true, halves_iff] at this
    cases src <;> simp_all [checkDeclared, checkedOperand]
  · intro H c' hm
    cases c' with
    | invHalves src h b1 b2 =>
      have := H _ _ _ _ hm
      have hs := hd _ hm
      simp only [builderCheck, Bool.or_eq_true, Bool.and_eq_true, halves_iff]
      cases src <;> simp_all [checkDeclared, checkedOperand]
    | auxMatch => rfl

/-- The checks of CHECKS_P other than the copy check, spelled out (R201). -/
theorem checksP_iff {d : Descriptor} (hw : d.wf Config.txCap Config.rxCap = true) (ext : Bool) (a c q : Word) : d.checks.all (parserCheck d ext a c q) = true ↔ ParserChecksHold d ext a c q := by
  have hd := (Descriptor.wf_parts hw).2.2.2.2.2.2.1
  unfold ParserChecksHold ParserHalvesHold
  rw [List.all_eq_true] at *
  constructor
  · intro H
    refine ⟨?_, ?_⟩
    · intro src h b1 b2 hm
      have := H _ hm
      have hs := hd _ hm
      simp only [parserCheck, Bool.or_eq_true, Bool.and_eq_true, halves_iff] at this
      cases src <;> simp_all [checkDeclared, checkedOperand]
    · intro b hm
      have := H _ hm
      simpa [parserCheck] using this
  · rintro ⟨H, H2⟩ c' hm
    cases c' with
    | invHalves src h b1 b2 =>
      have := H _ _ _ _ hm
      have hs := hd _ hm
      simp only [parserCheck, Bool.or_eq_true, Bool.and_eq_true, halves_iff]
      cases src <;> simp_all [checkDeclared, checkedOperand]
    | auxMatch b => have := H2 _ hm; simpa [parserCheck] using this

/-- A value given by its residue is the masked operand (R157). -/
theorem eq_lowBits {a v : Word} {n : Nat} (h : a.toNat = v.toNat % 2 ^ n) : a = lowBits n v :=
  BitVec.eq_of_toNat_eq (by rw [h, lowBits_toNat])

/-- A source has a field exactly when a FIELD segment carries it (R232). -/
theorem mem_source {t : List Segment} {src : Source} : src ∈ (fieldsOf t).map (·.1) ↔ ∃ w o inv, Segment.field src w o inv ∈ t := by
  simp only [List.mem_map, fieldsOf, List.mem_filterMap]
  constructor
  · rintro ⟨⟨s', w'⟩, ⟨g, hg, he⟩, rfl⟩
    cases g <;> simp [fieldOf] at he
    obtain ⟨rfl, rfl⟩ := he
    exact ⟨_, _, _, hg⟩
  · rintro ⟨w, o, inv, h⟩
    exact ⟨(src, w), ⟨_, h, rfl⟩, rfl⟩

/-- A well-formed template has an ADDR and a CMD field, and an AUX field exactly when the family has aux bits (R232). -/
theorem has_sources {d : Descriptor} {m n : Nat} (h : d.wf m n = true) :
   (∃ w o inv, Segment.field .addr w o inv ∈ d.template) ∧ (∃ w o inv, Segment.field .cmd w o inv ∈ d.template) ∧ (0 < d.auxBits ↔ ∃ w o inv, Segment.field .aux w o inv ∈ d.template) := by
  have hp := Descriptor.wf_parts h
  have ha := hp.2.2.1
  have hx := hp.2.2.2.2.1
  simp only [addrBeforeCmd, Bool.and_eq_true, List.contains_iff_mem, decide_eq_true_eq] at ha
  refine ⟨mem_source.mp ha.1.1, mem_source.mp ha.1.2, ?_⟩
  rw [← mem_source, ← List.contains_iff_mem]
  unfold auxDeclared at hx
  split at hx
  · rename_i h'; rw [h']; simp at hx; simp [hx.1]
  · rename_i h'; simp at hx; rw [hx]; simpa using h'

/-- A family with no aux bits has aux width 0 (R232). -/
theorem fits_zero_aux {d : Descriptor} {m n : Nat} (h : d.wf m n = true) (ha : ¬ 0 < d.auxBits) : fieldWidth d.template .aux = 0 := by
  have := (has_sources h).2.2.not.mp ha
  unfold fieldWidth
  rw [List.find?_eq_none.mpr]
  intro x hx he
  apply this
  rw [← mem_source, List.mem_map]
  exact ⟨x, hx, by simpa using he⟩

end Sys2Proof.Machine
end

