-- ==== Sys2Proof/Laws/Memory.lean ====
section
/-! SUPPORT. Laws of buffer memory: read after write, and the canonical form. -/

namespace Sys2Proof.Machine

open Sys2Proof

@[simp] theorem Memory.read_nil (i : Nat) : Memory.read [] i = none := rfl

theorem Memory.read_write (m : Memory) (i j : Nat) (v : Word) :
    (m.write i v).read j = if j = i then some v else m.read j := by
  induction m with
  | nil => simp only [Memory.write, Memory.read]
  | cons e m ih =>
    obtain ⟨k, w⟩ := e
    simp only [Memory.write]
    split
    · simp only [Memory.read]
    · split
      · subst_vars
        simp only [Memory.read]
        split <;> simp_all
      · simp only [Memory.read, ih]
        split <;> split <;> simp_all

@[simp] theorem Memory.read_write_self (m : Memory) (i : Nat) (v : Word) : (m.write i v).read i = some v := by
  rw [Memory.read_write, if_pos rfl]

theorem Memory.read_write_other (m : Memory) {i j : Nat} (v : Word) (h : j ≠ i) :
    (m.write i v).read j = m.read j := by rw [Memory.read_write, if_neg h]

theorem Memory.read_writeAll (ws : List Word) (m : Memory) (i j : Nat) :
    (m.writeAll i ws).read j = if i ≤ j ∧ j < i + ws.length then ws[j - i]? else m.read j := by
  induction ws generalizing m i with
  | nil => simp only [Memory.writeAll, List.length_nil]; rw [if_neg (by omega)]
  | cons v vs ih =>
    simp only [Memory.writeAll, ih, Memory.read_write, List.length_cons]
    rcases Nat.lt_trichotomy j i with h | h | h
    · rw [if_neg (by omega), if_neg (by omega), if_neg (by omega)]
    · subst h
      rw [if_neg (by omega), if_pos rfl, if_pos (by omega)]
      simp
    · by_cases h' : j < i + 1 + vs.length
      · rw [if_pos (by omega), if_pos (by omega), show j - i = (j - (i + 1)) + 1 by omega, List.getElem?_cons_succ]
      · rw [if_neg (by omega), if_neg (by omega), if_neg (by omega)]

theorem Memory.writeAll_append (us vs : List Word) (m : Memory) (i : Nat) :
    m.writeAll i (us ++ vs) = (m.writeAll i us).writeAll (i + us.length) vs := by
  induction us generalizing m i with
  | nil => rfl
  | cons u us ih =>
    simp only [List.cons_append, Memory.writeAll, ih, List.length_cons]
    congr 1
    omega

theorem Memory.wf_write (m : Memory) (i : Nat) (v : Word) (h : m.wf = true) : (m.write i v).wf = true := by
  induction m with
  | nil => rfl
  | cons e m ih =>
    obtain ⟨k, w⟩ := e
    simp only [Memory.write]
    split
    · simp only [Memory.wf, h, Bool.and_true, decide_eq_true_eq]; assumption
    · split
      · subst_vars
        cases m with
        | nil => rfl
        | cons f m => simpa only [Memory.wf] using h
      · cases m with
        | nil => simp only [Memory.write, Memory.wf, Bool.and_true, decide_eq_true_eq]; omega
        | cons f m =>
          obtain ⟨l, u⟩ := f
          simp only [Memory.wf, Bool.and_eq_true, decide_eq_true_eq] at h
          have ih := ih h.2
          simp only [Memory.write] at ih ⊢
          split
          · simp only [Memory.wf, h.2, Bool.and_eq_true, decide_eq_true_eq, and_true]; omega
          · rename_i hil
            rw [if_neg hil] at ih
            split
            · rename_i hil'
              rw [if_pos hil'] at ih
              simp only [Memory.wf, ih, Bool.and_true, decide_eq_true_eq]; omega
            · rename_i hil'
              rw [if_neg hil'] at ih
              simp only [Memory.wf, ih, Bool.and_true, decide_eq_true_eq]; omega

theorem Memory.wf_writeAll (ws : List Word) (m : Memory) (i : Nat) (h : m.wf = true) :
    (m.writeAll i ws).wf = true := by
  induction ws generalizing m i with
  | nil => exact h
  | cons v vs ih => exact ih _ _ (Memory.wf_write m i v h)

end Sys2Proof.Machine
end

