-- ==== Sys2Proof/Laws/Emission.lean ====
section
/-! SUPPORT. The emit primitive and what the Builder's loops do with it: every emission is one run of words. -/

namespace Sys2Proof.Machine

open Sys2Proof

/-- The state after emitting `ws`, all of which fit (R151). -/
def emitted (ws : List Word) (s : State) : State :=
  { s with
    tx := s.tx.writeAll s.bp.cursor.toNat ws
    bp := { s.bp with cursor := BitVec.ofNat 32 (s.bp.cursor.toNat + ws.length) } }

/-- `ws` fits below CAPACITY (R151). -/
def Fits (ws : List Word) (s : State) : Prop := s.bp.cursor.toNat + ws.length ≤ s.bp.capacity.toNat

theorem emit_of_fits {ws : List Word} {s : State} (h : Fits ws s) : emit ws s = .done (emitted ws s) := by
  unfold emit
  exact if_neg (by unfold Fits at h; omega)

theorem emit_of_full {ws : List Word} {s : State} (h : ¬Fits ws s) : emit ws s = .raised .errState s := by
  unfold emit
  exact if_pos (by unfold Fits at h; omega)

@[simp] theorem emitted_capacity (ws : List Word) (s : State) : (emitted ws s).bp.capacity = s.bp.capacity := rfl
@[simp] theorem emitted_profile (ws : List Word) (s : State) : (emitted ws s).bp.profile = s.bp.profile := rfl
@[simp] theorem emitted_flags (ws : List Word) (s : State) : (emitted ws s).bp.flags = s.bp.flags := rfl
@[simp] theorem emitted_pp (ws : List Word) (s : State) : (emitted ws s).pp = s.pp := rfl
@[simp] theorem emitted_rx (ws : List Word) (s : State) : (emitted ws s).rx = s.rx := rfl
@[simp] theorem emitted_txEpoch (ws : List Word) (s : State) : (emitted ws s).txEpoch = s.txEpoch := rfl
@[simp] theorem emitted_rxEpoch (ws : List Word) (s : State) : (emitted ws s).rxEpoch = s.rxEpoch := rfl
@[simp] theorem emitted_host (ws : List Word) (s : State) : (emitted ws s).host = s.host := rfl
@[simp] theorem emitted_lastRead (ws : List Word) (s : State) : (emitted ws s).lastRead = s.lastRead := rfl

/-- The words a segment stands for depend on the profile and the flags alone. -/
theorem segmentWords_congr {b c : BuilderRegs} (hp : b.profile = c.profile) (hf : b.flags = c.flags) :
    segmentWords b = segmentWords c := by
  funext x y z g
  cases g <;> simp only [segmentWords, hp, hf]

@[simp] theorem segmentWords_emitted (ws : List Word) (s : State) :
    segmentWords (emitted ws s).bp = segmentWords s.bp := segmentWords_congr rfl rfl

theorem emitted_cursor {ws : List Word} {s : State} (h : Fits ws s) :
    (emitted ws s).bp.cursor.toNat = s.bp.cursor.toNat + ws.length := by
  have := s.bp.capacity.isLt
  unfold Fits at h
  simp only [emitted, BitVec.toNat_ofNat]
  exact Nat.mod_eq_of_lt (by omega)

/-- Nothing emitted changes nothing. -/
@[simp] theorem emitted_nil (s : State) : emitted [] s = s := by
  simp only [emitted, Memory.writeAll, List.length_nil, Nat.add_zero, BitVec.ofNat_toNat, BitVec.setWidth_eq]

/-- Two emissions in a row are one. -/
theorem emitted_append {us vs : List Word} {s : State} (h : Fits us s) :
    emitted vs (emitted us s) = emitted (us ++ vs) s := by
  have hc := emitted_cursor h
  unfold emitted at hc ⊢
  simp only at hc ⊢
  rw [hc, Memory.writeAll_append, List.length_append, Nat.add_assoc]

theorem fits_append {us vs : List Word} {s : State} : Fits (us ++ vs) s → Fits us s := by
  unfold Fits; rw [List.length_append]; omega

theorem fits_after {us vs : List Word} {s : State} (h : Fits (us ++ vs) s) : Fits vs (emitted us s) := by
  have hc := emitted_cursor (fits_append h)
  unfold Fits at *
  rw [hc, emitted_capacity]
  rw [List.length_append] at h
  omega

/-- EMIT_FIELD is one emission of its symbols (R158). -/
theorem emitBits_of_fits (bs : List Bool) (s : State) (h : Fits (bs.map (bitSymbol s.bp)) s) :
    emitBits bs s = .done (emitted (bs.map (bitSymbol s.bp)) s) := by
  induction bs generalizing s with
  | nil => simp only [emitBits, List.map_nil, emitted_nil]
  | cons b bs ih =>
    have hw : (b :: bs).map (bitSymbol s.bp) = [bitSymbol s.bp b] ++ bs.map (bitSymbol s.bp) := rfl
    rw [hw] at h ⊢
    have e : bitSymbol (emitted [bitSymbol s.bp b] s).bp = bitSymbol s.bp := rfl
    have := ih (emitted [bitSymbol s.bp b] s) (by rw [e]; exact fits_after h)
    rw [e] at this
    rw [emitBits, emit_of_fits (fits_append h), Attempt.andThen, this, emitted_append (fits_append h)]

/-- A segment other than HEAD is one emission of its words (R157). -/
theorem emitSegment_of_fits (a c q : Word) {g : Segment} (hg : g ≠ .head) (s : State)
    (h : Fits (segmentWords s.bp a c q g) s) :
    emitSegment a c q g s = .done (emitted (segmentWords s.bp a c q g) s) := by
  cases g with
  | head => exact absurd rfl hg
  | field src w o inv =>
    have e : segmentWords s.bp a c q (.field src w o inv) =
        (fieldBits (pick a c q src) w o inv).map (bitSymbol s.bp) := by
      unfold fieldBits
      rw [List.map_map]
      rfl
    rw [e] at h ⊢
    exact emitBits_of_fits _ s h
  | gap => exact emit_of_fits h
  | endMark => exact emit_of_fits h

/-- The segments after HEAD are one emission of their words (R157). -/
theorem emitTemplate_of_fits (a c q : Word) (gs : List Segment) (hgs : ∀ g ∈ gs, g ≠ .head) (s : State)
    (h : Fits (gs.flatMap (segmentWords s.bp a c q)) s) :
    emitTemplate a c q gs s = .done (emitted (gs.flatMap (segmentWords s.bp a c q)) s) := by
  induction gs generalizing s with
  | nil => simp only [emitTemplate, List.flatMap_nil, emitted_nil]
  | cons g gs ih =>
    rw [List.flatMap_cons] at h ⊢
    have := ih (fun x hx => hgs x (List.mem_cons_of_mem _ hx)) (emitted (segmentWords s.bp a c q g) s)
      (by rw [segmentWords_emitted]; exact fits_after h)
    rw [segmentWords_emitted] at this
    simp only [emitTemplate, emitSegment_of_fits a c q (hgs g List.mem_cons_self) s (fits_append h),
      Attempt.andThen, this, emitted_append (fits_append h)]

/-- The whole template of a well-formed descriptor is one emission of the frame's words from index 0 (R157, R164). -/
theorem emitTemplate_frame {d : Descriptor} {m n : Nat} (hd : d.wf m n = true) (a c q : Word) (s : State)
    (h : dataLen d ≤ s.bp.capacity.toNat) :
    emitTemplate a c q d.template s = .done (emitted (frameWords s.bp d a c q) (s.setCursor 0)) := by
  obtain ⟨mid, ht, hm⟩ := template_shape hd
  have hl := frameWords_length s.bp hd a c q
  have hf : Fits (frameWords s.bp d a c q) (s.setCursor 0) := by
    unfold Fits; rw [hl]; simpa using h
  have hw : frameWords s.bp d a c q = [headSymbol s.bp] ++ (mid ++ [Segment.endMark]).flatMap (segmentWords s.bp a c q) := by
    unfold frameWords; rw [ht, List.flatMap_cons]; rfl
  rw [hw] at hf
  have e : segmentWords (emitted [headSymbol s.bp] (s.setCursor 0)).bp = segmentWords s.bp := segmentWords_congr rfl rfl
  have := emitTemplate_of_fits a c q (mid ++ [.endMark]) (fun g hg => by
    rcases List.mem_append.mp hg with hg | hg
    · exact (hm g hg).1
    · simp at hg; subst hg; exact fun h => by cases h) (emitted [headSymbol s.bp] (s.setCursor 0))
    (by rw [e]; exact fits_after hf)
  rw [e] at this
  rw [hw, ht, emitTemplate]
  simp only [emitSegment, emitHead, emit_of_fits (fits_append hf), Attempt.andThen, this, emitted_append (fits_append hf)]

/-- A word of TX after an emission (R151). -/
theorem txWord_emitted (ws : List Word) (s : State) (i : Nat) : (emitted ws s).txWord i =
    if s.bp.cursor.toNat ≤ i ∧ i < s.bp.cursor.toNat + ws.length then (ws[i - s.bp.cursor.toNat]?).getD 0
    else s.txWord i := by
  simp only [State.txWord, emitted_txEpoch]
  show ((s.tx.writeAll _ ws).read i).getD _ = _
  rw [Memory.read_writeAll]
  split
  · rename_i h
    rw [List.getElem?_eq_getElem (by omega)]
    rfl
  · rfl

/-- What completing an emission leaves (R151, R263): the words are in place and nothing else differs. -/
theorem emitted_spec (ws : List Word) (s : State) {start : Nat} (hs : start < 2 ^ 32) :
    Emitted start ws s ((emitted ws (s.setCursor (BitVec.ofNat 32 start))).setStatus .bp .ok) := by
  have hc : (s.setCursor (BitVec.ofNat 32 start)).bp.cursor.toNat = start := by
    rw [State.setCursor_bp, BitVec.toNat_ofNat, Nat.mod_eq_of_lt hs]
  constructor
  · intro j v hj
    have hlt : j < ws.length := by
      by_contra hn
      rw [List.getElem?_eq_none (by omega)] at hj
      cases hj
    rw [State.txWord_setStatus, txWord_emitted, hc, if_pos (by omega), Nat.add_sub_cancel_left, hj]
    rfl
  · intro i hi
    rw [State.txWord_setStatus, txWord_emitted, hc, if_neg (by omega)]
    rfl
  · simp only [State.setStatus, emitted, hc]
    rfl
  · exact ⟨rfl, fun i => rfl, rfl, rfl⟩

end Sys2Proof.Machine
end

