-- ==== Sys2Proof/Laws/Frames.lean ====
section
/-! SUPPORT. What each operation can change: emissions change TX and CURSOR, a BP operation BP and TX, a PP operation PP. -/

namespace Sys2Proof.Machine

open Sys2Proof

/-- The state an attempt ended in. -/
def att : Attempt → State
  | .done s => s
  | .raised _ s => s

/-- `t` differs from `s` in TX and in the CURSOR of the Builder alone. -/
def EmitOnly (s t : State) : Prop := ∃ m c, t = { s with tx := m, bp := { s.bp with cursor := c } }

/-- An emission of nothing. -/
theorem EmitOnly.refl (s : State) : EmitOnly s s := ⟨s.tx, s.bp.cursor, rfl⟩

/-- Two emissions in a row. -/
theorem EmitOnly.trans {s t u : State} (h : EmitOnly s t) (h' : EmitOnly t u) : EmitOnly s u := by
  obtain ⟨m, c, rfl⟩ := h
  obtain ⟨m', c', rfl⟩ := h'
  exact ⟨m', c', rfl⟩

/-- EMIT changes TX and CURSOR alone (R151). -/
theorem emit_only (ws : List Word) (s : State) : EmitOnly s (att (emit ws s)) := by
  unfold emit; simp only; split
  · exact EmitOnly.refl s
  · exact ⟨_, _, rfl⟩

theorem andThen_only {s : State} {a : Attempt} {f : State → Attempt} (ha : EmitOnly s (att a)) (hf : ∀ u, EmitOnly u (att (f u))) : EmitOnly s (att (a.andThen f)) := by
  cases a with
  | done u => exact EmitOnly.trans ha (hf u)
  | raised c u => exact ha

theorem emitBits_only (bs : List Bool) (s : State) : EmitOnly s (att (emitBits bs s)) := by
  induction bs generalizing s with
  | nil => exact EmitOnly.refl s
  | cons b bs ih => exact andThen_only (emit_only _ _) ih

theorem emitHead_only (s : State) : EmitOnly s (att (emitHead s)) := EmitOnly.trans ⟨s.tx, 0, rfl⟩ (emit_only _ _)

/-- A walk over a template changes TX and CURSOR alone, whether it goes through or not (R157). -/
theorem emitTemplate_only (a c q : Word) (gs : List Segment) (s : State) : EmitOnly s (att (emitTemplate a c q gs s)) := by
  induction gs generalizing s with
  | nil => exact EmitOnly.refl s
  | cons g gs ih =>
    refine andThen_only ?_ ih
    cases g
    · exact emitHead_only s
    · exact emitBits_only _ _
    · exact emit_only _ _
    · exact emit_only _ _

theorem complete_only {s t : State} {a : Attempt} (ha : EmitOnly s (att a)) (h : whenReady s a = .next t) : ∃ m c st, t = { s with tx := m, bp := { s.bp with cursor := c, status := st } } := by
  unfold whenReady at h
  split at h
  · cases a with
    | done u => cases h; obtain ⟨m, c, e⟩ := ha; simp only [att] at e; subst e; exact ⟨m, c, _, rfl⟩
    | raised k u => cases h; obtain ⟨m, c, e⟩ := ha; simp only [att] at e; subst e; exact ⟨m, c, _, rfl⟩
  · cases h; exact ⟨s.tx, s.bp.cursor, _, rfl⟩

/-- What a make step or a frame operation can change: TX, CURSOR and STATUS (R152 to R157, R160). -/
theorem emitting_only {i : Instr} (hi : i = .mkhead ∨ i = .mkl0 ∨ i = .mkl1 ∨ i = .mkend ∨ i = .mkgap ∨ i = .bframe ∨ i = .brepeat) {s t : State} (h : exec i s = .next t) :
    ∃ m c st, t = { s with tx := m, bp := { s.bp with cursor := c, status := st } } := by
  rcases hi with rfl | rfl | rfl | rfl | rfl | rfl | rfl
  · exact complete_only (emitHead_only s) h
  · exact complete_only (emit_only _ _) h
  · exact complete_only (emit_only _ _) h
  · exact complete_only (emit_only _ _) h
  · refine complete_only ?_ h
    split
    · exact emit_only _ _
    · exact EmitOnly.refl s
  · refine complete_only ?_ h
    split
    · exact emitTemplate_only _ _ _ _ _
    · exact EmitOnly.refl s
  · refine complete_only ?_ h
    split
    · exact andThen_only (EmitOnly.trans ⟨s.tx, 0, rfl⟩ (emit_only _ _)) (fun u => emit_only _ _)
    · exact EmitOnly.refl s

/-- No word of TX that has a value in `s` is without one in `t`. -/
def TxGrows (s t : State) : Prop := ∀ i, s.tx.read i ≠ none → t.tx.read i ≠ none

theorem emit_grows (ws : List Word) (s : State) : TxGrows s (att (emit ws s)) := by
  intro i hi
  unfold emit; simp only; split
  · exact hi
  · simp only [att, Memory.read_writeAll]
    split
    · rw [List.getElem?_eq_getElem (by omega)]; simp
    · exact hi

theorem andThen_grows {s : State} {a : Attempt} {f : State → Attempt} (ha : TxGrows s (att a)) (hf : ∀ u, TxGrows u (att (f u))) : TxGrows s (att (a.andThen f)) := by
  cases a with
  | done u => exact fun i hi => hf u i (ha i hi)
  | raised c u => exact ha

theorem emitBits_grows (bs : List Bool) (s : State) : TxGrows s (att (emitBits bs s)) := by
  induction bs generalizing s with
  | nil => exact fun _ h => h
  | cons b bs ih => exact andThen_grows (emit_grows _ _) ih

theorem emitTemplate_grows (a c q : Word) (gs : List Segment) (s : State) : TxGrows s (att (emitTemplate a c q gs s)) := by
  induction gs generalizing s with
  | nil => exact fun _ h => h
  | cons g gs ih =>
    refine andThen_grows ?_ ih
    cases g
    · exact emit_grows _ (s.setCursor 0)
    · exact emitBits_grows _ _
    · exact emit_grows _ _
    · exact emit_grows _ _

theorem complete_grows {s t : State} {a : Attempt} (ha : TxGrows s (att a)) (h : whenReady s a = .next t) : TxGrows s t := by
  unfold whenReady at h
  split at h
  · cases a <;> (cases h; exact ha)
  · cases h; exact fun _ h => h

/-- A make step or a frame operation takes no word of TX its value (R151). -/
theorem emitting_grows {i : Instr} (hi : i = .mkhead ∨ i = .mkl0 ∨ i = .mkl1 ∨ i = .mkend ∨ i = .mkgap ∨ i = .bframe ∨ i = .brepeat) {s t : State} (h : exec i s = .next t) : TxGrows s t := by
  rcases hi with rfl | rfl | rfl | rfl | rfl | rfl | rfl
  · exact complete_grows (emit_grows _ (s.setCursor 0)) h
  · exact complete_grows (emit_grows _ _) h
  · exact complete_grows (emit_grows _ _) h
  · exact complete_grows (emit_grows _ _) h
  · refine complete_grows ?_ h
    split
    · exact emit_grows _ _
    · exact fun _ h => h
  · refine complete_grows ?_ h
    split
    · exact emitTemplate_grows _ _ _ _ _
    · exact fun _ h => h
  · refine complete_grows ?_ h
    split
    · exact andThen_grows (emit_grows _ (s.setCursor 0)) (fun u => emit_grows _ _)
    · exact fun _ h => h

/-- What a BP operation can change: BP, TX and its epoch; of BP no staging or operand register, and no latched configuration while the Builder stays constructed (R26, R28). -/
theorem bp_op {i : Instr} (hp : i.port = .bp) {s t : State} (h : exec i s = .next t) :
    ∃ b m e, t = { s with bp := b, tx := m, txEpoch := e } ∧ b.cfgFamily = s.bp.cfgFamily ∧ b.cfgClkHz = s.bp.cfgClkHz ∧ b.cfgCapacity = s.bp.cfgCapacity
    ∧ b.cfgFlags = s.bp.cfgFlags ∧ b.arg0 = s.bp.arg0 ∧ b.arg1 = s.bp.arg1
    ∧ (s.bp.ready = true → b.ready = true → SameBuilderConfig s.bp b) := by
  by_cases hem : i = .mkhead ∨ i = .mkl0 ∨ i = .mkl1 ∨ i = .mkend ∨ i = .mkgap ∨ i = .bframe ∨ i = .brepeat
  · obtain ⟨m, c, st, rfl⟩ := emitting_only hem h
    exact ⟨_, m, s.txEpoch, rfl, rfl, rfl, rfl, rfl, rfl, rfl, fun _ _ => ⟨rfl, rfl, rfl, rfl, rfl, rfl, rfl, rfl, rfl⟩⟩
  · cases i <;> simp at hem <;> simp [Instr.port] at hp
    case conv p =>
      subst hp
      simp only [exec, execConv] at h
      repeat (split at h; · cases h; exact ⟨_, s.tx, s.txEpoch, rfl, rfl, rfl, rfl, rfl, rfl, rfl, fun _ _ => ⟨rfl, rfl, rfl, rfl, rfl, rfl, rfl, rfl, rfl⟩⟩)
      cases h; exact ⟨_, s.tx, s.txEpoch, rfl, rfl, rfl, rfl, rfl, rfl, rfl, fun _ _ => ⟨rfl, rfl, rfl, rfl, rfl, rfl, rfl, rfl, rfl⟩⟩
    case bnew =>
      simp only [exec, execBnew] at h
      split at h
      · cases h; exact ⟨_, s.tx, s.txEpoch, rfl, rfl, rfl, rfl, rfl, rfl, rfl, fun _ _ => ⟨rfl, rfl, rfl, rfl, rfl, rfl, rfl, rfl, rfl⟩⟩
      · split at h
        · cases h; exact ⟨_, s.tx, s.txEpoch, rfl, rfl, rfl, rfl, rfl, rfl, rfl, fun _ _ => ⟨rfl, rfl, rfl, rfl, rfl, rfl, rfl, rfl, rfl⟩⟩
        · repeat (split at h; · cases h; exact ⟨_, s.tx, s.txEpoch, rfl, rfl, rfl, rfl, rfl, rfl, rfl, fun _ _ => ⟨rfl, rfl, rfl, rfl, rfl, rfl, rfl, rfl, rfl⟩⟩)
          cases h; exact ⟨_, [], s.txEpoch + 1, rfl, rfl, rfl, rfl, rfl, rfl, rfl, fun hr _ => absurd hr ‹_›⟩
    case bdel =>
      simp only [exec, execBdel] at h
      split at h
      · cases h; exact ⟨_, [], s.txEpoch + 1, rfl, rfl, rfl, rfl, rfl, rfl, rfl, fun _ hr => by cases hr⟩
      · cases h; exact ⟨_, s.tx, s.txEpoch, rfl, rfl, rfl, rfl, rfl, rfl, rfl, fun _ _ => ⟨rfl, rfl, rfl, rfl, rfl, rfl, rfl, rfl, rfl⟩⟩
    case bresult =>
      simp only [exec, execBresult, whenReady] at h
      split at h <;> (cases h; exact ⟨_, s.tx, s.txEpoch, rfl, rfl, rfl, rfl, rfl, rfl, rfl, fun _ _ => ⟨rfl, rfl, rfl, rfl, rfl, rfl, rfl, rfl, rfl⟩⟩)

/-- The staging and operand registers of two Parsers are the same (R26, R28). -/
structure Kept (p q : ParserRegs) : Prop where
  a : q.cfgFamily = p.cfgFamily
  b : q.cfgClkHz = p.cfgClkHz
  c : q.cfgMarginUs = p.cfgMarginUs
  d : q.cfgFlags = p.cfgFlags
  e : q.arg0 = p.arg0
  f : q.arg1 = p.arg1

/-- A scan changes no staging, operand or configuration register and not READY (R197, R199). -/
theorem scan_keeps (s : State) : Kept s.pp (scan s).2 ∧ SameParserConfig s.pp (scan s).2 ∧ (scan s).2.ready = s.pp.ready := by
  have hd : Kept s.pp (scanData s).2 ∧ SameParserConfig s.pp (scanData s).2 ∧ (scanData s).2.ready = s.pp.ready := by
    unfold scanData
    split
    · exact ⟨⟨rfl, rfl, rfl, rfl, rfl, rfl⟩, ⟨rfl, rfl, rfl, rfl, rfl, rfl, rfl, rfl⟩, rfl⟩
    · split <;> exact ⟨⟨rfl, rfl, rfl, rfl, rfl, rfl⟩, ⟨rfl, rfl, rfl, rfl, rfl, rfl, rfl, rfl⟩, rfl⟩
  unfold scan
  split
  · unfold scanRepeat
    split
    · split <;> exact ⟨⟨rfl, rfl, rfl, rfl, rfl, rfl⟩, ⟨rfl, rfl, rfl, rfl, rfl, rfl, rfl, rfl⟩, rfl⟩
    · exact ⟨⟨rfl, rfl, rfl, rfl, rfl, rfl⟩, ⟨rfl, rfl, rfl, rfl, rfl, rfl, rfl, rfl⟩, rfl⟩
  · exact hd
  · exact hd

/-- What a PP operation can change: PP; of PP no staging or operand register, and no latched configuration while the Parser stays constructed (R26, R28). -/
theorem pp_op {i : Instr} (hp : i.port = .pp) {s t : State} (h : exec i s = .next t) :
    ∃ p, t = { s with pp := p } ∧ Kept s.pp p ∧ (s.pp.ready = true → p.ready = true → SameParserConfig s.pp p) := by
  have triv : ∀ p : ParserRegs, p.family = s.pp.family → True := fun _ _ => trivial
  cases i <;> simp [Instr.port] at hp
  case conv p =>
    subst hp
    simp only [exec, execConv] at h
    repeat (split at h; · cases h; exact ⟨_, rfl, ⟨rfl, rfl, rfl, rfl, rfl, rfl⟩, fun _ _ => ⟨rfl, rfl, rfl, rfl, rfl, rfl, rfl, rfl⟩⟩)
    cases h; exact ⟨_, rfl, ⟨rfl, rfl, rfl, rfl, rfl, rfl⟩, fun _ _ => ⟨rfl, rfl, rfl, rfl, rfl, rfl, rfl, rfl⟩⟩
  case pnew =>
    simp only [exec, execPnew] at h
    split at h
    · cases h; exact ⟨_, rfl, ⟨rfl, rfl, rfl, rfl, rfl, rfl⟩, fun _ _ => ⟨rfl, rfl, rfl, rfl, rfl, rfl, rfl, rfl⟩⟩
    · split at h
      · cases h; exact ⟨_, rfl, ⟨rfl, rfl, rfl, rfl, rfl, rfl⟩, fun _ _ => ⟨rfl, rfl, rfl, rfl, rfl, rfl, rfl, rfl⟩⟩
      · repeat (split at h; · cases h; exact ⟨_, rfl, ⟨rfl, rfl, rfl, rfl, rfl, rfl⟩, fun _ _ => ⟨rfl, rfl, rfl, rfl, rfl, rfl, rfl, rfl⟩⟩)
        cases h; exact ⟨_, rfl, ⟨rfl, rfl, rfl, rfl, rfl, rfl⟩, fun hr _ => absurd hr ‹_›⟩
  case pdel =>
    simp only [exec, execPdel] at h
    split at h
    · cases h; exact ⟨_, rfl, ⟨rfl, rfl, rfl, rfl, rfl, rfl⟩, fun _ hr => by cases hr⟩
    · cases h; exact ⟨_, rfl, ⟨rfl, rfl, rfl, rfl, rfl, rfl⟩, fun _ _ => ⟨rfl, rfl, rfl, rfl, rfl, rfl, rfl, rfl⟩⟩
  case pinput =>
    simp only [exec, execPinput] at h
    split at h
    · split at h <;> (cases h; exact ⟨_, rfl, ⟨rfl, rfl, rfl, rfl, rfl, rfl⟩, fun _ _ => ⟨rfl, rfl, rfl, rfl, rfl, rfl, rfl, rfl⟩⟩)
    · cases h; exact ⟨_, rfl, ⟨rfl, rfl, rfl, rfl, rfl, rfl⟩, fun _ _ => ⟨rfl, rfl, rfl, rfl, rfl, rfl, rfl, rfl⟩⟩
  case pscan =>
    simp only [exec, execPscan] at h
    split at h
    · cases h
      obtain ⟨⟨a, b, c, d, e, f⟩, hk, -⟩ := scan_keeps s
      exact ⟨_, rfl, ⟨a, b, c, d, e, f⟩, fun _ _ => hk⟩
    · cases h; exact ⟨_, rfl, ⟨rfl, rfl, rfl, rfl, rfl, rfl⟩, fun _ _ => ⟨rfl, rfl, rfl, rfl, rfl, rfl, rfl, rfl⟩⟩

end Sys2Proof.Machine
end

