-- ==== Sys2Proof/Laws/Host.lean ====
section
/-! SUPPORT. What one step can do, action by action, and what the host accesses change. -/

namespace Sys2Proof.Machine

open Sys2Proof

/-- A host buffer write changes RX alone, at one index below RX_CAP (R63, R67). -/
theorem hostWrite_form (b : BufferId) (i : Nat) (v : Word) (s : State) : ∃ m, hostWriteBuffer b i v s = { s with rx := m } ∧ (m = s.rx ∨ i < Config.rxCap ∧ m = s.rx.write i v) := by
  cases b
  · exact ⟨s.rx, rfl, .inl rfl⟩
  · simp only [hostWriteBuffer]
    split
    · refine ⟨_, rfl, .inr ⟨?_, rfl⟩⟩
      have := (fitsRx_iff (i+1)).mp ‹_›; omega
    · exact ⟨s.rx, rfl, .inl rfl⟩

/-- The copy of a frame changes RX alone (R103). -/
theorem copy_form' (n : Nat) (s : State) : ∃ m, copyTxToRx n s = { s with rx := m } := by
  induction n with
  | zero => exact ⟨s.rx, rfl⟩
  | succ n ih =>
    obtain ⟨m, e⟩ := ih
    simp only [copyTxToRx, e]
    obtain ⟨m', e', -⟩ := hostWrite_form .rx n (hostReadBuffer .tx n { s with rx := m }) { s with rx := m }
    rw [e']; exact ⟨m', rfl⟩

/-- A copy keeps RX's epoch and takes no word of RX its value (R103). -/
theorem copy_grows (n : Nat) (s : State) :
    (copyTxToRx n s).rxEpoch = s.rxEpoch ∧ ∀ i, s.rx.read i ≠ none → (copyTxToRx n s).rx.read i ≠ none := by
  induction n with
  | zero => exact ⟨rfl, fun _ h => h⟩
  | succ n ih =>
    simp only [copyTxToRx, hostWriteBuffer]
    split
    · refine ⟨ih.1, fun i h => ?_⟩
      simp only [Memory.read_write]
      split
      · exact Option.some_ne_none _
      · exact ih.2 i h
    · exact ih

/-- A reset of the block leaves the registers of State.reset and no buffer word a value (R34, R290). -/
theorem resetBlock_registers (s : State) : (resetBlock s).bp = State.reset.bp ∧ (resetBlock s).pp = State.reset.pp := ⟨rfl, rfl⟩

/-- A reset of the block is no action on the host's side (R290). -/
theorem resetBlock_host (s : State) : (resetBlock s).host = s.host ∧ (resetBlock s).lastRead = s.lastRead := ⟨rfl, rfl⟩

/-- A host register write changes staging and operand registers alone (R21). -/
theorem writeReg_bp (p : Port) (i : Nat) (v : Word) (s : State) : ∃ f fl c cf a a', (writeReg p i v s).bp = { s.bp with cfgFamily := f, cfgClkHz := fl, cfgCapacity := c, cfgFlags := cf, arg0 := a, arg1 := a' } := by
  cases p
  · simp only [writeReg, writeBp]
    split <;> exact ⟨_, _, _, _, _, _, rfl⟩
  · exact ⟨_, _, _, _, _, _, rfl⟩

/-- A host register write changes staging and operand registers alone (R21). -/
theorem writeReg_pp (p : Port) (i : Nat) (v : Word) (s : State) : ∃ f fl c cf a a', (writeReg p i v s).pp = { s.pp with cfgFamily := f, cfgClkHz := fl, cfgMarginUs := c, cfgFlags := cf, arg0 := a, arg1 := a' } := by
  cases p
  · exact ⟨_, _, _, _, _, _, rfl⟩
  · simp only [writeReg, writePp]
    split <;> exact ⟨_, _, _, _, _, _, rfl⟩

/-- A host register write leaves both buffers alone (R21). -/
theorem writeReg_rest (p : Port) (i : Nat) (v : Word) (s : State) : (writeReg p i v s).tx = s.tx ∧ (writeReg p i v s).rx = s.rx := by
  cases p <;> exact ⟨rfl, rfl⟩

/-- What a step that answers a next state did (R96, R103, R290). -/
theorem step_cases {s t : State} (h : step s = .next t) :
   (s.host = [] ∧ t = s) ∨ (∃ p w rest, s.host = .wr p commandIndex w :: rest ∧ ((∃ i, decode p w = .ok i ∧ exec i { s with host := rest } = .next t) ∨ t = ({ s with host := rest } : State).setStatus p .errUnsupported))
   ∨ (∃ p i v rest, s.host = .wr p i v :: rest ∧ i ≠ commandIndex ∧ t = writeReg p i v { s with host := rest })
   ∨ (∃ rest r, ((∃ p i, s.host = .rd p i :: rest) ∨ ∃ b i, s.host = .rdb b i :: rest) ∧ t = { s with host := rest, lastRead := r })
   ∨ (∃ b i v rest, s.host = .wrb b i v :: rest ∧ t = hostWriteBuffer b i v { s with host := rest })
   ∨ (∃ n rest, s.host = .cp n :: rest ∧ t = copyTxToRx n { s with host := rest })
   ∨ (∃ rest, s.host = .reset :: rest ∧ t = resetBlock { s with host := rest }) := by
  unfold step at h
  cases hh : s.host with
  | nil => rw [hh] at h; cases h; exact .inl ⟨rfl, rfl⟩
  | cons a rest =>
    rw [hh] at h
    right
    cases a with
    | wr p i v =>
      simp only [perform] at h
      split at h
      · rename_i hi; subst hi
        left
        refine ⟨p, v, rest, rfl, ?_⟩
        unfold issue at h
        split at h
        · exact .inl ⟨_, ‹_›, h⟩
        · cases h; exact .inr rfl
      · split at h
        · cases h; exact .inr (.inl ⟨p, i, v, rest, rfl, ‹_›, rfl⟩)
        · cases h
    | rd p i =>
      simp only [perform] at h
      split at h
      · cases h; exact .inr (.inr (.inl ⟨_, _, .inl ⟨p, i, rfl⟩, rfl⟩))
      · cases h
    | rdb b i => cases h; exact .inr (.inr (.inl ⟨_, _, .inr ⟨b, i, rfl⟩, rfl⟩))
    | wrb b i v => cases h; exact .inr (.inr (.inr (.inl ⟨_, _, _, _, rfl, rfl⟩)))
    | cp n => cases h; exact .inr (.inr (.inr (.inr (.inl ⟨_, _, rfl, rfl⟩))))
    | reset => cases h; exact .inr (.inr (.inr (.inr (.inr ⟨_, rfl, rfl⟩))))

end Sys2Proof.Machine
end

