-- ==== Sys2Proof/Laws/PerInstr.lean ====
section
/-! SUPPORT. Statements made of every operation's encoding, one lemma per constructor. -/

namespace Sys2Proof.Laws

/-- The command word of an operation has no reserved bit set (R95), and its opcode's group names its port: 0x0x both,
0x1x the Builder, 0x2x the Parser (R97). -/
def OpcodeGroup.Statement (i : Instr) : Prop :=
  (encode i).toNat < 256
    ∧ ((encode i).toNat / 16 = 0 ∧ (∃ p, i = .conv p)
      ∨ (encode i).toNat / 16 = 1 ∧ i.port = .bp
      ∨ (encode i).toNat / 16 = 2 ∧ i.port = .pp)

theorem OpcodeGroup.conv (port : Port) : OpcodeGroup.Statement (.conv port) :=
  ⟨by simp [encode], .inl ⟨by simp [encode], port, rfl⟩⟩

theorem OpcodeGroup.bnew : OpcodeGroup.Statement .bnew := ⟨by decide, .inr (.inl ⟨rfl, rfl⟩)⟩

theorem OpcodeGroup.bdel : OpcodeGroup.Statement .bdel := ⟨by decide, .inr (.inl ⟨rfl, rfl⟩)⟩

theorem OpcodeGroup.mkhead : OpcodeGroup.Statement .mkhead := ⟨by decide, .inr (.inl ⟨rfl, rfl⟩)⟩

theorem OpcodeGroup.mkl0 : OpcodeGroup.Statement .mkl0 := ⟨by decide, .inr (.inl ⟨rfl, rfl⟩)⟩

theorem OpcodeGroup.mkl1 : OpcodeGroup.Statement .mkl1 := ⟨by decide, .inr (.inl ⟨rfl, rfl⟩)⟩

theorem OpcodeGroup.mkend : OpcodeGroup.Statement .mkend := ⟨by decide, .inr (.inl ⟨rfl, rfl⟩)⟩

theorem OpcodeGroup.mkgap : OpcodeGroup.Statement .mkgap := ⟨by decide, .inr (.inl ⟨rfl, rfl⟩)⟩

theorem OpcodeGroup.bframe : OpcodeGroup.Statement .bframe := ⟨by decide, .inr (.inl ⟨rfl, rfl⟩)⟩

theorem OpcodeGroup.brepeat : OpcodeGroup.Statement .brepeat := ⟨by decide, .inr (.inl ⟨rfl, rfl⟩)⟩

theorem OpcodeGroup.bresult : OpcodeGroup.Statement .bresult := ⟨by decide, .inr (.inl ⟨rfl, rfl⟩)⟩

theorem OpcodeGroup.pnew : OpcodeGroup.Statement .pnew := ⟨by decide, .inr (.inr ⟨rfl, rfl⟩)⟩

theorem OpcodeGroup.pdel : OpcodeGroup.Statement .pdel := ⟨by decide, .inr (.inr ⟨rfl, rfl⟩)⟩

theorem OpcodeGroup.pinput : OpcodeGroup.Statement .pinput := ⟨by decide, .inr (.inr ⟨rfl, rfl⟩)⟩

theorem OpcodeGroup.pscan : OpcodeGroup.Statement .pscan := ⟨by decide, .inr (.inr ⟨rfl, rfl⟩)⟩

end Sys2Proof.Laws
end

