-- ==== Sys2Proof/Laws/Scans.lean ====
section
/-! SUPPORT. The walk over a data frame: what it depends on, how walks compose, and how they end. -/

namespace Sys2Proof.Machine

open Sys2Proof

/-- A walk over two lists of segments is one walk after the other (R199). -/
theorem walkTemplate_append (s : State) (gs hs : List Segment) (k : Walk) : walkTemplate s (gs ++ hs) k = (walkTemplate s gs k).andThen (walkTemplate s hs) := by
  induction gs generalizing k with
  | nil => rfl
  | cons g gs ih =>
    simp only [List.cons_append, walkTemplate]
    cases walkSegment s g k with
    | matched k' => simp only [WalkResult.andThen]; exact ih k'
    | mismatch k' => rfl

/-- Decoding a field depends on the classification and the words read alone (R200). -/
theorem decodeBits_congr {s t : State} (hc : ∀ w, classify t.pp w = classify s.pp w) (hr : ∀ i, t.rxWord i = s.rxWord i) (w : Nat) (o : BitOrder) (inv : Bool) (n pos : Nat) (v : Word) (k : Walk) :
   decodeBits t w o inv n pos v k = decodeBits s w o inv n pos v k := by
  induction n generalizing pos v k with
  | zero => rfl
  | succ n ih => simp only [decodeBits, hc, hr, ih]

/-- A walk depends on the comparator, the profile and the words read alone (R199). -/
theorem walk_congr {s t : State} (hp : ∀ w hi lo, symMatch t.pp w hi lo = symMatch s.pp w hi lo) (hprof : t.pp.profile = s.pp.profile) (hr : ∀ i, t.rxWord i = s.rxWord i) (gs : List Segment) (k : Walk) :
   walkTemplate t gs k = walkTemplate s gs k := by
  have hc : ∀ w, classify t.pp w = classify s.pp w := fun w => by simp only [classify, hp, hprof]
  induction gs generalizing k with
  | nil => rfl
  | cons g gs ih =>
    have hs : walkSegment t g k = walkSegment s g k := by
      cases g with
      | head => simp only [walkSegment, hp, hprof, hr]
      | gap => simp only [walkSegment, hp, hprof, hr]
      | endMark => rfl
      | field src w o inv => simp only [walkSegment, decodeField, decodeBits_congr hc hr]
    simp only [walkTemplate, hs]
    cases walkSegment s g k with
    | matched k' => exact ih k'
    | mismatch k' => rfl

theorem decodeBits_copyBad (s : State) (w : Nat) (o : BitOrder) (inv : Bool) (n pos : Nat) (v v' : Word) (k k' : Walk) (h : decodeBits s w o inv n pos v k = .value v' k') : k'.copyBad = k.copyBad := by
  rcases decodeBits_stops s w o inv n pos v k with ⟨v2, k2, he, -, -, -, -, -, hc⟩ | ⟨j, k2, -, he, -⟩
  · rw [h] at he; cases he; exact hc
  · rw [h] at he; cases he

/-- A copy that differed is not forgotten (R199). -/
theorem walk_copyBad (s : State) (gs : List Segment) (k k' : Walk) (h : walkTemplate s gs k = .matched k') (hc : k.copyBad = true) : k'.copyBad = true := by
  induction gs generalizing k with
  | nil => simp only [walkTemplate] at h; cases h; exact hc
  | cons g gs ih =>
    simp only [walkTemplate] at h
    cases hs : walkSegment s g k with
    | mismatch k2 => rw [hs] at h; cases h
    | matched k2 =>
      rw [hs] at h
      refine ih k2 h ?_
      cases g with
      | head => simp only [walkSegment] at hs; split at hs <;> cases hs; exact hc
      | gap => simp only [walkSegment] at hs; split at hs <;> cases hs; exact hc
      | endMark => simp only [walkSegment] at hs; cases hs; exact hc
      | field src w o inv =>
        simp only [walkSegment] at hs
        split at hs
        · rename_i v k3 hd
          cases hs
          have := decodeBits_copyBad _ _ _ _ _ _ _ _ _ _ hd
          rw [hc] at this
          unfold Walk.record
          split
          · split <;> simp [this]
          · cases src <;> exact this
        · cases hs

/-- A walk ended by a record leaves PSTATE Failed (R203). -/
theorem walk_ends_failed (s : State) (gs : List Segment) (k k' : Walk) (h : walkTemplate s gs k = .mismatch k') : k'.pstate = .failed := by
  rcases walkTemplate_stops s 0 0 0 gs k with ⟨k2, e, -⟩ | ⟨n, k2, -, e, -, hf⟩
  · rw [h] at e; cases e
  · rw [h] at e; cases e; exact hf

/-- A walk never goes beyond the frame (R25). -/
theorem walk_cursor_le {s : State} {d : Descriptor} (hw : d.wf Config.txCap Config.rxCap = true) {k : Walk} (h : walkTemplate s d.template (Walk.start s.pp) = .matched k ∨ walkTemplate s d.template (Walk.start s.pp) = .mismatch k) : k.cursor ≤ dataLen d := by
  have hl := frameExpected_length hw 0 0 0
  rcases walkTemplate_stops s 0 0 0 d.template (Walk.start s.pp) with ⟨k', e, hc, -⟩ | ⟨n, k', hb, e, hc, -⟩
  · rcases h with h | h <;> rw [e] at h <;> cases h
    rw [hc]; simp only [Walk.start]; unfold frameExpected at hl; omega
  · rcases h with h | h <;> rw [e] at h <;> cases h
    have := hb.lt
    rw [hc]; simp only [Walk.start]; unfold frameExpected at hl; omega

/-- A record accepted as what is expected matches a template expected there. -/
theorem Accepts.not_nothing {p : ParserRegs} {w : Word} {e : Expected} (h : Accepts p w e) : ¬MatchesNothing p w e := by
  cases e <;> simp_all [Accepts, MatchesNothing]

theorem AllAccepted.allPass {s : State} {n : Nat} {es : List Expected} (h : AllAccepted s n es) : AllPass s n es :=
  fun i e he => Accepts.not_nothing (h i e he)

/-- A scan changes neither RESULT nor KIND nor LEN (R197, R199). -/
theorem scan_more (s : State) : (scan s).2.result = s.pp.result ∧ (scan s).2.kind = s.pp.kind ∧ (scan s).2.len = s.pp.len := by
  have hd : (scanData s).2.result = s.pp.result ∧ (scanData s).2.kind = s.pp.kind ∧ (scanData s).2.len = s.pp.len := by
    unfold scanData
    split
    · exact ⟨rfl, rfl, rfl⟩
    · split <;> exact ⟨rfl, rfl, rfl⟩
  unfold scan
  split
  · unfold scanRepeat
    split
    · split <;> exact ⟨rfl, rfl, rfl⟩
    · exact ⟨rfl, rfl, rfl⟩
  · exact hd
  · exact hd

/-- What every PSCAN with a bound buffer leaves alone (R198). -/
theorem pscan_frame {s t : State} (hr : s.pp.ready = true) (hb : s.pp.bound = true) (h : exec .pscan s = .next t) : ScanFrame s t := by
  obtain ⟨⟨a1,a2,a3,a4,a5,a6⟩, b, c⟩ := scan_keeps s
  obtain ⟨e, f, g⟩ := scan_more s
  simp only [exec, execPscan, hr, hb, Bool.and_self, if_true] at h
  cases h
  exact ⟨⟨rfl, ⟨fun _ => rfl, fun _ => rfl⟩, rfl, rfl⟩, ⟨⟨rfl,rfl,rfl,rfl,rfl,rfl⟩, a1,a2,a3,a4,a5,a6⟩, b, by rw [← hr] at *; exact c, e, f, g⟩

end Sys2Proof.Machine
end

