-- ==== Sys2Proof/Tests/Slice0.lean ====
section
/-! SUPPORT. Tests. Every expected value is written out from a vector or an example of the spec, named in the comment;
the witnesses show inputs that meet all hypotheses of a statement together. -/

namespace Sys2Proof.Tests

open Sys2Proof Sys2Proof.Machine

/-! ## Well-formedness: one ill-formed descriptor per clause is refused -/

/-- REF_A with another template. -/
def withTemplate (t : List Segment) : Descriptor := { refA with template := t, checks := [] }

theorem test_wf_accepts_refA : refA.wf 128 128 = true := by decide

theorem test_wf_head_twice : headFirst (withTemplate [.head, .head, .field .addr 16 .lsb false, .endMark]).template = false
    ∧ (withTemplate [.head, .head, .field .addr 16 .lsb false, .field .cmd 8 .lsb false, .endMark]).wf 128 128 = false := by
  decide

theorem test_wf_no_end : endLast [.head, .field .addr 16 .lsb false, .field .cmd 8 .lsb false] = false
    ∧ (withTemplate [.head, .field .addr 16 .lsb false, .field .cmd 8 .lsb false]).wf 128 128 = false := by decide

theorem test_wf_cmd_before_addr :
    addrBeforeCmd [.head, .field .cmd 8 .lsb false, .field .addr 16 .lsb false, .endMark] = false
    ∧ (withTemplate [.head, .field .cmd 8 .lsb false, .field .addr 16 .lsb false, .endMark]).wf 128 128 = false := by
  decide

theorem test_wf_width_33 : widthsAgree [.head, .field .addr 33 .lsb false, .field .cmd 8 .lsb false, .endMark] = false
    ∧ (withTemplate [.head, .field .addr 33 .lsb false, .field .cmd 8 .lsb false, .endMark]).wf 128 128 = false := by
  decide

theorem test_wf_copy_width :
    (withTemplate [.head, .field .addr 5 .lsb false, .field .cmd 8 .lsb false, .field .addr 6 .lsb false, .endMark]).wf
      128 128 = false := by decide

theorem test_wf_aux_missing : auxDeclared { refA with auxBits := 4 } = false
    ∧ ({ refA with auxBits := 4 } : Descriptor).wf 128 128 = false := by decide

theorem test_wf_aux_undeclared : auxDeclared { refC with auxBits := 0 } = false := by decide

theorem test_wf_gap_undeclared : gapDeclared { refB with hasGap := false } = false
    ∧ ({ refB with hasGap := false } : Descriptor).wf 128 128 = false := by decide

theorem test_wf_check_too_wide : checkDeclared refA (.invHalves .addr 9 true true) = false
    ∧ ({ refA with checks := [.invHalves .addr 9 true true] } : Descriptor).wf 128 128 = false := by decide

theorem test_wf_check_without_aux : checkDeclared refA (.auxMatch true) = false := by decide

theorem test_wf_frame_too_long : fitsBuffers 50 128 refA = false ∧ refA.wf 50 128 = false ∧ refA.wf 51 51 = true := by
  decide

/-- R239: a Panasonic or DISH descriptor with a 16-bit address needs the complement check. -/
theorem test_admissible_panasonic :
    ({ refA with name := "Panasonic" } : Descriptor).admissible 128 128 0x08 = true
    ∧ ({ refA with name := "Panasonic", checks := [] } : Descriptor).admissible 128 128 0x08 = false
    ∧ ({ refA with name := "DISH" } : Descriptor).admissible 128 128 0x08 = false := by decide

/-! ## Decoding: the words of R97, written bit by bit -/

theorem test_decode_conv_bp : decode .bp 0b00000000000000000000000000000001#32 = .ok (.conv .bp) := by decide
theorem test_decode_conv_pp : decode .pp 0b00000000000000000000000000000001#32 = .ok (.conv .pp) := by decide
theorem test_decode_bnew : decode .bp 0b00000000000000000000000000010000#32 = .ok .bnew := by decide
theorem test_decode_bdel : decode .bp 0b00000000000000000000000000010001#32 = .ok .bdel := by decide
theorem test_decode_mkhead : decode .bp 0b00000000000000000000000000010010#32 = .ok .mkhead := by decide
theorem test_decode_mkl0 : decode .bp 0b00000000000000000000000000010011#32 = .ok .mkl0 := by decide
theorem test_decode_mkl1 : decode .bp 0b00000000000000000000000000010100#32 = .ok .mkl1 := by decide
theorem test_decode_mkend : decode .bp 0b00000000000000000000000000010101#32 = .ok .mkend := by decide
theorem test_decode_mkgap : decode .bp 0b00000000000000000000000000010110#32 = .ok .mkgap := by decide
theorem test_decode_bframe : decode .bp 0b00000000000000000000000000011000#32 = .ok .bframe := by decide
theorem test_decode_brepeat : decode .bp 0b00000000000000000000000000011001#32 = .ok .brepeat := by decide
theorem test_decode_bresult : decode .bp 0b00000000000000000000000000011010#32 = .ok .bresult := by decide
theorem test_decode_pnew : decode .pp 0b00000000000000000000000000100000#32 = .ok .pnew := by decide
theorem test_decode_pdel : decode .pp 0b00000000000000000000000000100001#32 = .ok .pdel := by decide
theorem test_decode_pinput : decode .pp 0b00000000000000000000000000100010#32 = .ok .pinput := by decide
theorem test_decode_pscan : decode .pp 0b00000000000000000000000000100011#32 = .ok .pscan := by decide

/-- V9. -/
theorem test_decode_illegal : decode .bp 0x00000000 = .error .noSuchOpcode ∧ decode .bp 0x00000017 = .error .noSuchOpcode
    ∧ decode .bp 0x00000118 = .error .reservedBits ∧ decode .bp 0x00000020 = .error .wrongPort
    ∧ decode .pp 0x00000010 = .error .wrongPort ∧ decode .pp 0x00000024 = .error .noSuchOpcode
    ∧ decode .pp 0x000000FF = .error .noSuchOpcode ∧ decode .bp 0x80000010 = .error .reservedBits := by decide

theorem test_table_word : decodeTableWord 32 0x18 = some .bframe ∧ decodeTableWord 8 0x23 = some .pscan
    ∧ decodeTableWord 32 0x17 = none := by decide

/-! ## States the tests start from -/

/-- The state after one operation. -/
def after (i : Instr) (s : State) : State :=
  match exec i s with
  | .next t => t
  | .fault _ => s
  | .refused _ => s

/-- After reset, with the Builder's staging registers written. -/
def stagedB (family hz capacity flags : Word) : State :=
  { State.reset with
    bp := { BuilderRegs.zero with cfgFamily := family, cfgClkHz := hz, cfgCapacity := capacity, cfgFlags := flags } }

/-- `s` with the Parser's staging registers written. -/
def stagedP (family hz margin flags : Word) (s : State) : State :=
  { s with
    pp := { ParserRegs.zero with cfgFamily := family, cfgClkHz := hz, cfgMarginUs := margin, cfgFlags := flags } }

/-- The Builder constructed for REF_A at 1 MHz, capacity 51. -/
def builderA (flags : Word) : State := after .bnew (stagedB 0x80 1000000 51 flags)

/-- The Builder constructed for REF_B at 1 MHz, capacity 34. -/
def builderB : State := after .bnew (stagedB 0x81 1000000 34 0)

/-- The Builder constructed for REF_C at 1 MHz, capacity 63. -/
def builderC (flags : Word) : State := after .bnew (stagedB 0x82 1000000 63 flags)

/-- `s` with the Parser constructed for a family at 1 MHz. -/
def parserOn (s : State) (family margin flags : Word) : State := after .pnew (stagedP family 1000000 margin flags s)

/-- The Builder's operands. -/
def argsB (a c : Word) (s : State) : State := { s with bp := { s.bp with arg0 := a, arg1 := c } }

/-- The Builder's cursor. -/
def cursorB (c : Word) (s : State) : State := { s with bp := { s.bp with cursor := c } }

/-- RX holding words from index 0 on, bound for a PSCAN by PINPUT with the given length. -/
def received (ws : List Word) (n : Word) (s : State) : State :=
  after .pinput { s with rx := Memory.writeAll [] 0 ws, pp := { s.pp with arg0 := n } }

/-- REF_A's words for a list of bits (V20). -/
def wordsA (bits : List Bool) : List Word :=
  [0x1194A328] ++ bits.map (fun b => if b then 0x069A8230 else 0x02308230) ++ [0x7FFF8230, 0]

/-- The bits of V20: the address 0x1234, then the command 0x89ABCDEF, as the vector lists them. -/
def bitsV20 : List Bool :=
  [false, false, true, false, true, true, false, false, false, true, false, false, true, false, false, false]
    ++ [true, true, true, true, false, true, true, true, true, false, true, true, false, false, true, true]
    ++ [true, true, false, true, false, true, false, true, true, false, false, true, false, false, false, true]

/-- The 51 words of V20. -/
def v20 : List Word := wordsA bitsV20

/-- The 34 words of V25 (REF_B): 0x15 and 0x2A5 MSB first, gap, copy, inverted copy. -/
def v25 : List Word :=
  let sym (b : Bool) : Word := if b then 0x04B08190 else 0x01908190
  [0x05DC8BB8]
    ++ [true, false, true, false, true, true, false, true, false, true, false, false, true, false, true].map sym
    ++ [0x4E208190]
    ++ [true, false, true, false, true, false, true, false, true, false, true, true, false, true, false].map sym
    ++ [0x7FFF8190, 0]

/-- What a scan leaves, in the order of the spec's result lines: STATUS, RES_ADDR, RES_CMD, RES_AUX, RES_REPEAT, PSTATE,
CURSOR, LAST_VALID. -/
def scanLine (s : State) : Word × Word × Word × Word × Word × Word × Word × Word :=
  (s.pp.status.code, s.pp.resAddr, s.pp.resCmd, s.pp.resAux, bitWord s.pp.resRepeat, s.pp.pstate.code, s.pp.cursor,
    bitWord s.pp.lastValid)

/-! ## One step of each operation -/

/-- V1, V2. -/
theorem test_conv : (after (.conv .bp) (argsB 9000 80000000 State.reset)).bp.result = 720000
    ∧ (after (.conv .bp) (argsB 7 1999999 State.reset)).bp.result = 13
    ∧ (after (.conv .bp) (argsB 1000000 4294967295 State.reset)).bp.result = 4294967295 := by decide

theorem test_conv_error : (after (.conv .bp) (argsB 1000001 4294967295 State.reset)).bp.status = .errConfig
    ∧ (after (.conv .bp) (argsB 5 0 State.reset)).bp.status = .errConfig := by decide

/-- V5, rows 2 and 9. -/
theorem test_bnew :
    (builderA 0).bp.profile = ⟨9000, 4500, 560, 560, 560, 1690, 560, 32767, 9000, 2250, 0, 0⟩
    ∧ ((builderA 0).bp.dataLen, (builderA 0).bp.repeatLen, (builderA 0).bp.caps, (builderA 0).bp.repeatPeriodMs)
      = (51, 3, 1, 110)
    ∧ (after .bnew (stagedB 0x81 1000000 34 2)).bp.profile
      = ⟨3000, 1500, 400, 400, 400, 1200, 400, 32767, 0, 0, 400, 20000⟩
    ∧ (after .bnew (stagedB 0x80 1000000 51 0xFFFFFFFF)).bp.flags = 3 := by decide

/-- V6. -/
theorem test_bnew_error : [stagedB 0x83 1000000 64 0, stagedB 0x180 1000000 64 0, stagedB 0x80 0 64 0,
    stagedB 0x80 1000000 0 0, stagedB 0x80 1000000 50 0, stagedB 0x80 3640889 51 0, stagedB 0x81 1638400 34 0].map
      (fun s => (after .bnew s).bp.status.code) = [1, 1, 1, 1, 1, 1, 1] := by decide

/-- V7. -/
theorem test_bdel : (after .bdel (builderA 0)).bp.ready = false ∧ (after .bdel (builderA 0)).bp.profile.leadHi = 0
    ∧ (after .bdel (after .bdel (builderA 0))).bp.status.code = 6 := by decide

/-- V10: the head is written at 0 whatever the cursor was. -/
theorem test_mkhead : (after .mkhead (cursorB 7 (builderA 0))).bp.cursor = 1
    ∧ (after .mkhead (cursorB 7 (builderA 0))).tx.read 0 = some 0x1194A328 := by decide

/-- V10. -/
theorem test_mkl0 : (after .mkl0 (cursorB 50 (builderA 0))).tx.read 50 = some 0x02308230
    ∧ (after .mkl0 (cursorB 50 (builderA 0))).bp.cursor = 51
    ∧ (after .mkl0 (cursorB 51 (builderA 0))).bp.status.code = 6 := by decide

/-- V10. -/
theorem test_mkl1 : (after .mkl1 (cursorB 1 (builderA 0))).tx.read 1 = some 0x069A8230 := by decide

/-- V10 and V11. -/
theorem test_mkend : (after .mkend (cursorB 50 (builderA 0))).bp.status.code = 6
    ∧ (after .mkend (cursorB 50 (builderA 0))).tx = []
    ∧ (after .mkend (cursorB 1 (builderA 2))).tx = [(1, 0xFFFF0230), (2, 0)] := by decide

/-- V12, V10. -/
theorem test_mkgap : (after .mkgap (after .mkhead builderB)).tx = [(0, 0x05DC8BB8), (1, 0x4E208190)]
    ∧ (after .mkgap (builderA 0)).bp.status.code = 7 := by decide

/-- V20. -/
theorem test_bframe : (after .bframe (argsB 0x1234 0x89ABCDEF (builderA 1))).tx.map (·.2) = v20 := by decide

/-- V21, V28. -/
theorem test_bframe_check : (after .bframe (argsB 0x1234 0x89ABCDEF (builderA 0))).bp.status.code = 4
    ∧ (after .bframe (argsB 0x1234 0x89ABCDEF (builderA 0))).tx = []
    ∧ (after .bframe (argsB 0 0x1234567 (builderC 1))).bp.status.code = 4 := by decide

/-- V25: operand bits above the field widths are ignored. -/
theorem test_bframe_copies : (after .bframe (argsB 0xFFFFFFF5 0xFFFFFEA5 builderB)).tx.map (·.2) = v25 := by decide

/-- V18, V23, V19. -/
theorem test_brepeat : (after .brepeat (builderA 0)).tx = [(0, 0x08CAA328), (1, 0x7FFF8230), (2, 0)]
    ∧ (after .brepeat (builderA 3)).tx = [(0, 0x88CA2328), (1, 0xFFFF0230), (2, 0)]
    ∧ (after .brepeat builderB).bp.status.code = 7 := by decide

/-- R161's corner case and V10. -/
theorem test_bresult : (after .bresult (cursorB 51 (builderA 0))).bp.result = 51
    ∧ (after .bresult (builderA 0)).bp.result = 0 := by decide

/-- V24. -/
theorem test_pnew : (parserOn State.reset 0x81 100 3).pp.margin = 100 ∧ (parserOn State.reset 0x81 100 3).pp.flags = 3
    ∧ (after .pnew (stagedP 0x80 500000 1 0 State.reset)).pp.margin = 0
    ∧ (after .pnew (stagedP 0x80 80000000 200 0 State.reset)).pp.profile.l1Lo = 135200 := by decide

theorem test_pnew_error : (after .pnew (stagedP 0x80 4294967295 4294967295 0 State.reset)).pp.status.code = 1
    ∧ (after .pnew (stagedP 0 1000000 200 0 State.reset)).pp.status.code = 1 := by decide

/-- V51. -/
theorem test_pdel : (after .pdel (parserOn State.reset 0x80 200 1)).pp.ready = false
    ∧ (after .pdel (parserOn State.reset 0x80 200 1)).pp.margin = 0 := by decide

/-- V29: STATUS, KIND, BOUND, LEN, PSTATE for the lengths of the table. -/
theorem test_pinput : [51, 50, 3, 4, 0xFFFFFFFF].map (fun n =>
      let t := received [] n (parserOn State.reset 0x80 200 0)
      (t.pp.status.code, t.pp.kind.code, t.pp.bound, t.pp.len, t.pp.pstate.code)) =
    [(0, 1, true, 51, 0), (2, 0, false, 0, 4), (0, 2, true, 3, 0), (2, 0, false, 0, 4), (2, 0, false, 0, 4)] := by decide

/-- V29, last line. -/
theorem test_pinput_no_repeat : (received [] 3 (parserOn State.reset 0x81 100 0)).pp.status.code = 2 := by decide

/-- V30 and V31. -/
theorem test_pscan : scanLine (after .pscan (received v20 51 (parserOn State.reset 0x80 200 1)))
      = (0, 0x1234, 0x89ABCDEF, 0, 0, 3, 49, 1)
    ∧ scanLine (after .pscan (received v20 51 (parserOn State.reset 0x80 200 0))) = (4, 0, 0, 0, 0, 4, 49, 0) := by decide

/-- V37: record 5 off in its mark; and V46: a copy that differs. -/
theorem test_pscan_error : scanLine (after .pscan (received (v20.set 5 0x069A82F8) 51 (parserOn State.reset 0x80 200 1)))
      = (3, 0, 0, 0, 0, 4, 6, 0)
    ∧ scanLine (after .pscan (received (v25.set 17 0x01908190) 34 (parserOn State.reset 0x81 100 0)))
      = (4, 0, 0, 0, 0, 4, 32, 0) := by decide

/-! ## Functions the operations share -/

/-- V4. -/
theorem test_record : [pulseRec 9000 4500 false, pulseRec 9000 4500 true, pulseRec 560 32767 true, pulseRec 0 0 false,
    pulseRec 0 0 true, pulseRec 32767 32767 true] =
    [0x1194A328, 0x91942328, 0xFFFF0230, 0x00008000, 0x80000000, 0xFFFF7FFF] := by decide

/-- V3. -/
theorem test_match : [matchTicks 8800 9000 200, matchTicks 8801 9000 200, matchTicks 9199 9000 200,
    matchTicks 9200 9000 200, matchTicks 560 560 0, matchTicks 0 100 200, matchTicks 32767 32967 200] =
    [false, true, true, false, false, true, false] := by decide

/-- V36: a head record with mark and space at +199, and at +200. -/
theorem test_margin : symMatch (parserOn State.reset 0x80 200 1).pp (pulseRec 9199 4699 false) 9000 4500 = true
    ∧ symMatch (parserOn State.reset 0x80 200 1).pp (pulseRec 9200 4500 false) 9000 4500 = false
    ∧ symMatch (parserOn State.reset 0x80 200 1).pp 0x11942328 9000 4500 = false := by decide

/-- R301: nothing pending, nothing happens; and a command word issued right after reset runs (V8). -/
theorem test_step_idle : step State.reset = .next State.reset := rfl

theorem test_fetch_word : step (State.reset.withFetchWord 32 0x18) = .next (State.reset.setStatus .bp .errState) := rfl

/-- R21, R63: a read of STATUS after an illegal word, and a read of TX above every size. -/
theorem test_host_read : (match step { State.reset.setStatus .bp .errUnsupported with host := [.rd .bp 0x07] } with
    | .next t => t.lastRead | _ => none) = some 7 := by decide

/-! ## Witnesses: for each statement with hypotheses, inputs that meet all of them together

A statement whose conclusion is a list of cases has one conjunct per case, at a boundary value where it has one. -/

/-- Both engines constructed for REF_A at 1 MHz, margin 200. -/
def duo (flags : Word) : State := parserOn (builderA flags) 0x80 200 flags

/-- The Parser alone constructed for REF_A. -/
def solo : State := parserOn State.reset 0x80 200 1

theorem fits51 : (51 : Nat) ≤ Config.txCap := Nat.le_trans (by decide) minBuffer_le_txCap

theorem duo_builder (flags : Word) (h : flags = 0 ∨ flags = 1) : BuilderBuilt (duo flags).bp refA := by
  rcases h with rfl | rfl <;>
    exact ⟨rfl, by decide, by decide, fits51, by decide, by decide, by decide, rfl, rfl, rfl, rfl⟩

theorem duo_parser (flags : Word) (h : flags = 0 ∨ flags = 1) : ParserBuilt (duo flags).pp refA := by
  rcases h with rfl | rfl <;>
    exact ⟨rfl, by decide, by decide, by decide, rfl, rfl, rfl, .inl rfl, .inr (.inr ⟨rfl, rfl, rfl⟩), by decide,
      fun h => absurd h (by decide), fun _ => ⟨rfl, rfl⟩⟩

/-- `duo` meets the invariant. -/
theorem duo_inv (flags : Word) (h : flags = 0 ∨ flags = 1) : (duo flags).Inv := by
  refine ⟨⟨fun hr => ?_, fun _ => ⟨refA, duo_builder flags h⟩⟩, ⟨fun hr => ?_, fun _ => ⟨refA, duo_parser flags h⟩⟩,
    ⟨?_, ?_, ?_, ?_⟩⟩
  · rcases h with rfl | rfl <;> exact absurd hr (by decide)
  · rcases h with rfl | rfl <;> exact absurd hr (by decide)
  · rcases h with rfl | rfl <;> decide
  · rcases h with rfl | rfl <;> decide
  · have e : (duo flags).tx = [] := by rcases h with rfl | rfl <;> decide
    rw [e]; intro i w hw; cases hw
  · have e : (duo flags).rx = [] := by rcases h with rfl | rfl <;> decide
    rw [e]; intro i w hw; cases hw

/-- `solo` meets the invariant. -/
theorem solo_inv : solo.Inv := by
  refine ⟨⟨fun _ => ?_, fun h => absurd h (by decide)⟩, ⟨fun h => absurd h (by decide), fun _ => ⟨refA, ?_⟩⟩,
    ⟨rfl, rfl, fun i w h => ?_, fun i w h => ?_⟩⟩
  · constructor <;> decide
  · exact ⟨rfl, by decide, by decide, by decide, rfl, rfl, rfl, .inl rfl, .inr (.inr ⟨rfl, rfl, rfl⟩), by decide,
      fun h => absurd h (by decide), fun _ => ⟨rfl, rfl⟩⟩
  · cases h
  · cases h

/-- A repeat frame of three records bound in RX, after `duo`. -/
def repeatBound (w flags : Word) : State := received [w] 3 (duo flags)

/-- `repeatBound` meets the invariant. -/
theorem repeatBound_inv : (repeatBound 0x08CAA3F0 1).Inv := by
  refine ⟨⟨fun h => absurd h (by decide), fun _ => ⟨refA, duo_builder 1 (.inr rfl)⟩⟩,
    ⟨fun h => absurd h (by decide), fun _ => ⟨refA, ?_⟩⟩, ⟨by decide, by decide, fun i w h => ?_, fun i w h => ?_⟩⟩
  · exact ⟨rfl, by decide, by decide, by decide, rfl, rfl, rfl, .inl rfl, .inr (.inl ⟨rfl, rfl, rfl⟩), by decide,
      fun _ => ⟨rfl, rfl⟩, fun _ => ⟨rfl, rfl⟩⟩
  · have e : (repeatBound 0x08CAA3F0 1).tx = [] := by decide
    rw [e] at h; cases h
  · have e : (repeatBound 0x08CAA3F0 1).rx = [(0, 0x08CAA3F0)] := by decide
    rw [e] at h
    simp only [Memory.read] at h
    split at h
    · subst_vars; exact Nat.lt_of_lt_of_le (by decide) minBuffer_le_rxCap
    · cases h

/-- IllegalWordsChangeOnlyStatus: a word of each kind R98 lists, at the ends of the ranges. -/
theorem witness_illegalWords :
    ([0x00, 0x02, 0x0F, 0x17, 0x1B, 0x1F, 0x24, 0xFF, 0x118, 0x20] : List Word).all
      (fun w => match decode .bp w with | .ok _ => false | .error _ => true) = true
    ∧ (match decode .pp 0x1A with | .ok _ => false | .error _ => true) = true := by decide

/-- StepRunsDecodedInstruction. -/
theorem witness_stepRuns : (withNextAction (.wr .pp commandIndex 0x23) State.reset).host = [.wr .pp commandIndex 0x23]
    ∧ decode .pp 0x23 = .ok .pscan := ⟨rfl, rfl⟩

/-- TicksLaws. -/
theorem witness_ticksLaws : (560 : Nat) ≤ 560 ∧ (1000000 : Nat) ≤ 1000001 := by decide

/-- ConvConverts: a zero frequency, a result one above 32 bits' reach, and the largest that fits (R132). -/
theorem witness_conv : (argsB 5 0 State.reset).arg1 .bp = 0
    ∧ 0xFFFFFFFF < ticks ((argsB 1000001 4294967295 State.reset).arg0 .bp).toNat
        ((argsB 1000001 4294967295 State.reset).arg1 .bp).toNat
    ∧ (argsB 1000000 4294967295 State.reset).arg1 .bp ≠ 0
    ∧ ticks ((argsB 1000000 4294967295 State.reset).arg0 .bp).toNat
        ((argsB 1000000 4294967295 State.reset).arg1 .bp).toNat = 0xFFFFFFFF := by decide

/-- RecordWordLayout: the largest durations. -/
theorem witness_recordWord : (32767 : Word).toNat ≤ 32767 ∧ (0 : Word).toNat ≤ 32767 := by decide

/-- FieldBitOrder: the narrowest and the widest field, first and last position. -/
theorem witness_fieldBits : ((1 : Nat) ≤ 1 ∧ (1 : Nat) ≤ 32 ∧ (0 : Nat) < 1) ∧ (1 : Nat) ≤ 32 ∧ (32 : Nat) ≤ 32 ∧ (31 : Nat) < 32 := by
  decide

/-- MatchIsStrictOpenInterval: a margin as large as the target, and a margin of one tick. -/
theorem witness_match : ((1 : Nat) ≤ 560 ∧ (560 : Nat) ≤ 560) ∧ (1 : Nat) ≤ 1 ∧ (1 : Nat) ≤ 560 := by decide

/-- ClassifyTriesLogicZeroFirst: a logic-1 record that matches both templates under a margin of 1200 (V40). -/
theorem witness_classify : symMatch (parserOn State.reset 0x80 1200 1).pp 0x069A8230 560 560 = true
    ∧ symMatch (parserOn State.reset 0x80 1200 1).pp 0x069A8230 560 1690 = true
    ∧ classify (parserOn State.reset 0x80 1200 1).pp 0x069A8230 = some false := by decide

/-- ReferenceFamilies: the first tag past the table, and one past 8 bits. -/
theorem witness_families : 0x83 ≤ (0x83 : Word).toNat ∧ 0x83 ≤ (0x180 : Word).toNat := by decide

/-- BnewConstructsBuilder: constructed; no family; each failing test; and the smallest capacity that fits. -/
theorem witness_bnew : (builderA 0).bp.ready = true
    ∧ (State.reset.bp.ready = false ∧ familyTable State.reset.bp.cfgFamily = none)
    ∧ ((stagedB 0x80 1000000 50 0).bp.ready = false ∧ familyTable (stagedB 0x80 1000000 50 0).bp.cfgFamily = some refA
      ∧ (50 : Nat) < dataLen refA)
    ∧ ((stagedB 0x80 1000000 51 0).bp.ready = false ∧ familyTable (stagedB 0x80 1000000 51 0).bp.cfgFamily = some refA
      ∧ (1000000 : Nat) ≠ 0 ∧ dataLen refA ≤ 51 ∧ 51 ≤ Config.txCap
      ∧ maxDur refA (resolve refA 1000000) ≤ 0x7FFF) :=
  ⟨by decide, ⟨rfl, rfl⟩, ⟨rfl, rfl, by decide⟩, ⟨rfl, rfl, by decide, by decide, fits51, by decide⟩⟩

/-- BnewConstructsBuilder: the largest frequency a REF_A Builder takes and the first it refuses (R298). -/
theorem witness_bnewDuration : maxDur refA (resolve refA 3640888) ≤ 0x7FFF ∧ 0x7FFF < maxDur refA (resolve refA 3640889) := by
  decide

/-- RefALargestClock: at the boundary and past it. -/
theorem witness_refAClock : (stagedB 0x80 3640888 51 0).bp.ready = false ∧ (stagedB 0x80 3640888 51 0).bp.cfgFamily = 0x80
    ∧ 51 ≤ (stagedB 0x80 3640888 51 0).bp.cfgCapacity.toNat
    ∧ (stagedB 0x80 3640888 51 0).bp.cfgCapacity.toNat ≤ Config.txCap ∧ (stagedB 0x80 3640888 51 0).bp.cfgClkHz ≠ 0
    ∧ (stagedB 0x80 3640889 51 0).bp.ready = false ∧ (stagedB 0x80 3640889 51 0).bp.cfgClkHz ≠ 0 :=
  ⟨rfl, rfl, by decide, fits51, by decide, rfl, by decide⟩

/-- BdelReleasesBuilder, BresultPublishesCursor: not constructed, and constructed. -/
theorem witness_bdel : State.reset.bp.ready = false ∧ (builderA 0).bp.ready = true := by decide

/-- MkheadStartsFrame, both cases. -/
theorem witness_mkhead : (solo.Inv ∧ solo.bp.ready = false) ∧ ((duo 0).Inv ∧ (duo 0).bp.ready = true) :=
  ⟨⟨solo_inv, by decide⟩, duo_inv 0 (.inl rfl), by decide⟩

/-- MakeStepsEmitAtCursor: not constructed; one word too many; the last word or words that fit. -/
theorem witness_makeSteps : State.reset.bp.ready = false
    ∧ ((cursorB 51 (builderA 0)).bp.capacity.toNat < (cursorB 51 (builderA 0)).bp.cursor.toNat + 1)
    ∧ ((cursorB 50 (builderA 0)).bp.capacity.toNat < (cursorB 50 (builderA 0)).bp.cursor.toNat + 2)
    ∧ ((cursorB 50 (builderA 0)).bp.ready = true
      ∧ (cursorB 50 (builderA 0)).bp.cursor.toNat + 1 ≤ (cursorB 50 (builderA 0)).bp.capacity.toNat)
    ∧ ((cursorB 49 (builderA 0)).bp.ready = true
      ∧ (cursorB 49 (builderA 0)).bp.cursor.toNat + 2 ≤ (cursorB 49 (builderA 0)).bp.capacity.toNat) := by decide

/-- MkgapEmitsGap: not constructed; no gap; no room; the last word that fits. -/
theorem witness_mkgap : State.reset.bp.ready = false
    ∧ (familyTable (builderA 0).bp.family = some refA ∧ (builderA 0).bp.ready = true ∧ refA.hasGap = false)
    ∧ (familyTable builderB.bp.family = some refB ∧ builderB.bp.ready = true ∧ refB.hasGap = true)
    ∧ (cursorB 34 builderB).bp.capacity.toNat < (cursorB 34 builderB).bp.cursor.toNat + 1
    ∧ (cursorB 33 builderB).bp.cursor.toNat + 1 ≤ (cursorB 33 builderB).bp.capacity.toNat :=
  ⟨rfl, ⟨rfl, by decide, rfl⟩, ⟨rfl, by decide, rfl⟩, by decide, by decide⟩

/-- The address 0xED12 meets REF_A's check, 0x1234 does not (V21, V22). -/
theorem witness_checks : BuilderChecksHold refA false 0xED12 0 ∧ ¬BuilderChecksHold refA false 0x1234 0 := by
  constructor
  · intro src h b1 b2 hm
    simp only [refA, List.mem_singleton, Check.invHalves.injEq] at hm
    obtain ⟨rfl, rfl, rfl, rfl⟩ := hm
    exact .inr (by unfold HalvesHold; decide)
  · intro hk
    rcases hk .addr 8 true true (by simp [refA]) with hk | hk
    · simp at hk
    · revert hk; unfold HalvesHold; decide

/-- BframeWritesFrame, MakeStepsBuildTheFrame: not constructed; checks that fail; checks that hold. -/
theorem witness_bframe : (solo.Inv ∧ solo.bp.ready = false)
    ∧ ((duo 0).Inv ∧ (duo 0).bp.ready = true ∧ familyTable (duo 0).bp.family = some refA)
    ∧ ((0x1234 : Word).toNat = (0xABCD1234 : Word).toNat % 2 ^ fieldWidth refA.template .addr
      ∧ (0x89ABCDEF : Word).toNat = (0x89ABCDEF : Word).toNat % 2 ^ fieldWidth refA.template .cmd)
    ∧ BuilderChecksHold refA ((duo 0).bp.flags.getLsbD 0) 0xED12 0
    ∧ ¬BuilderChecksHold refA ((duo 0).bp.flags.getLsbD 0) 0x1234 0 :=
  ⟨⟨solo_inv, by decide⟩, ⟨duo_inv 0 (.inl rfl), by decide, rfl⟩, by decide,
    by rw [show (duo 0).bp.flags.getLsbD 0 = false by decide]; exact witness_checks⟩

/-- MakeStepsBuildTheFrame: all hypotheses at once, with the operands 0 (whose halves agree only under EXT). -/
theorem witness_makeFrame : (duo 1).Inv ∧ (duo 1).bp.ready = true ∧ familyTable (duo 1).bp.family = some refA
    ∧ (0 : Word).toNat = (duo 1).bp.arg0.toNat % 2 ^ fieldWidth refA.template .addr
    ∧ (0 : Word).toNat = (duo 1).bp.arg1.toNat % 2 ^ fieldWidth refA.template .cmd
    ∧ BuilderChecksHold refA ((duo 1).bp.flags.getLsbD 0) 0 0 := by
  refine ⟨duo_inv 1 (.inr rfl), by decide, rfl, by decide, by decide, ?_⟩
  intro src h b1 b2 hm
  simp only [refA, List.mem_singleton, Check.invHalves.injEq] at hm
  obtain ⟨rfl, rfl, rfl, rfl⟩ := hm
  exact .inl ⟨by decide, rfl⟩

/-- BrepeatWritesRepeatFrame: a family with a repeat frame, and REF_B, which has none. -/
theorem witness_brepeat : (solo.Inv ∧ solo.bp.ready = false)
    ∧ ((duo 0).Inv ∧ (duo 0).bp.ready = true ∧ familyTable (duo 0).bp.family = some refA ∧ refA.hasRepeat = true)
    ∧ (builderB.bp.ready = true ∧ familyTable builderB.bp.family = some refB ∧ refB.hasRepeat = false) :=
  ⟨⟨solo_inv, by decide⟩, ⟨duo_inv 0 (.inl rfl), by decide, rfl, rfl⟩, by decide, rfl, rfl⟩

/-- BrepeatWritesRepeatFrame: REF_B's Builder meets the invariant. -/
theorem witness_brepeatInv : builderB.Inv := by
  refine ⟨⟨fun h => absurd h (by decide), fun _ => ⟨refB, ?_⟩⟩, ⟨fun _ => ?_, fun h => absurd h (by decide)⟩,
    ⟨by decide, by decide, fun i w h => ?_, fun i w h => ?_⟩⟩
  · exact ⟨rfl, by decide, by decide, Nat.le_trans (by decide) minBuffer_le_txCap, by decide, by decide, by decide, rfl,
      rfl, rfl, rfl⟩
  · constructor <;> decide
  · have e : builderB.tx = [] := by decide
    rw [e] at h; cases h
  · have e : builderB.rx = [] := by decide
    rw [e] at h; cases h

/-- PnewConstructsParser: constructed; no family; each failing test; a configuration that passes. -/
theorem witness_pnew : solo.pp.ready = true
    ∧ (State.reset.pp.ready = false ∧ familyTable State.reset.pp.cfgFamily = none)
    ∧ ((stagedP 0x80 1000000 200 0 State.reset).pp.ready = false
      ∧ familyTable (stagedP 0x80 1000000 200 0 State.reset).pp.cfgFamily = some refA
      ∧ (1000000 : Nat) ≠ 0 ∧ maxDur refA (resolve refA 1000000) ≤ 0xFFFFFFFF ∧ ticks 200 1000000 ≤ 0xFFFFFFFF)
    ∧ (ticks 4294967295 1000000 = 0xFFFFFFFF ∧ 0xFFFFFFFF < ticks 4294967295 4294967295) :=
  ⟨by decide, ⟨rfl, rfl⟩, ⟨rfl, rfl, by decide, by decide, by decide⟩, by decide, by decide⟩

/-- PdelReleasesParser. -/
theorem witness_pdel : State.reset.pp.ready = false ∧ solo.pp.ready = true := by decide

/-- PinputFramesByLength: both lengths of REF_A, their neighbours, and 3 on REF_B. -/
theorem witness_pinput : State.reset.pp.ready = false ∧ solo.pp.ready = true ∧ familyTable solo.pp.family = some refA
    ∧ dataLen refA = 51 ∧ (repeatLen refA = 3 ∧ refA.hasRepeat = true ∧ (3 : Nat) ≠ dataLen refA)
    ∧ (50 ≠ dataLen refA ∧ ¬(refA.hasRepeat = true ∧ 50 = repeatLen refA))
    ∧ (3 ≠ dataLen refB ∧ ¬(refB.hasRepeat = true ∧ 3 = repeatLen refB)) :=
  ⟨rfl, by decide, rfl, by decide, by decide, by decide, by decide⟩

/-- PscanRepeatReturnsCache: at target + 200; within, with an empty and with a full cache (V33, V34). -/
theorem witness_pscanRepeat :
    let bad := repeatBound 0x08CAA3F0 1
    let good := repeatBound 0x08CAA3EF 1
    let full : State := { good with pp := { good.pp with lastValid := true, lastAddr := 0x1234 } }
    (bad.pp.ready = true ∧ bad.pp.bound = true ∧ bad.pp.kind = .repeated
      ∧ symMatch bad.pp (bad.rxWord 0) bad.pp.profile.repHi bad.pp.profile.repLo = false)
    ∧ (good.pp.ready = true ∧ good.pp.bound = true ∧ good.pp.kind = .repeated ∧ good.pp.lastValid = false
      ∧ symMatch good.pp (good.rxWord 0) good.pp.profile.repHi good.pp.profile.repLo = true)
    ∧ (full.pp.ready = true ∧ full.pp.bound = true ∧ full.pp.kind = .repeated ∧ full.pp.lastValid = true
      ∧ symMatch full.pp (full.rxWord 0) full.pp.profile.repHi full.pp.profile.repLo = true) := by decide

/-- `Accepts` as a test. -/
def accepts (p : ParserRegs) (w : Word) : Expected → Bool
  | .head => symMatch p w p.profile.leadHi p.profile.leadLo
  | .bit b => classify p w == some b
  | .gap => symMatch p w p.profile.gapHi p.profile.gapLo

theorem accepts_iff (p : ParserRegs) (w : Word) (e : Expected) : accepts p w e = true ↔ Accepts p w e := by
  cases e <;> simp [accepts, Accepts]

/-- Every record of a list is accepted where it stands. -/
def acceptsAll (s : State) : Nat → List Expected → Bool
  | _, [] => true
  | n, e :: es => accepts s.pp (s.rxWord n) e && acceptsAll s (n + 1) es

theorem acceptsAll_spec (s : State) (es : List Expected) (start : Nat) (h : acceptsAll s start es = true) :
    ∀ n e, es[n]? = some e → Accepts s.pp (s.rxWord (start + n)) e := by
  induction es generalizing start with
  | nil => intro n e he; simp at he
  | cons x es ih =>
    simp only [acceptsAll, Bool.and_eq_true] at h
    intro n e he
    rcases n with _ | n
    · simp only [List.getElem?_cons_zero, Option.some.injEq] at he
      subst he
      exact (accepts_iff _ _ _).mp h.1
    · rw [List.getElem?_cons_succ] at he
      rw [show start + (n + 1) = start + 1 + n by omega]
      exact ih _ h.2 n e he

/-- V20 bound in RX of a REF_A Parser. -/
def v20Bound (flags : Word) : State := received v20 51 (parserOn State.reset 0x80 200 flags)

/-- PscanDecodesAcceptedFrame: V20 under EXT, whose checks hold, and without EXT, whose check fails (V30, V31). -/
theorem witness_pscanDecodes :
    ((v20Bound 1).pp.ready = true ∧ (v20Bound 1).pp.bound = true ∧ (v20Bound 1).pp.kind = .data
      ∧ familyTable (v20Bound 1).pp.family = some refA)
    ∧ (FitsField refA .addr 0x1234 ∧ FitsField refA .cmd 0x89ABCDEF ∧ FitsField refA .aux 0)
    ∧ (∀ n e, (frameExpected refA 0x1234 0x89ABCDEF 0)[n]? = some e → Accepts (v20Bound 1).pp ((v20Bound 1).rxWord n) e)
    ∧ (∀ n e, (frameExpected refA 0x1234 0x89ABCDEF 0)[n]? = some e → Accepts (v20Bound 0).pp ((v20Bound 0).rxWord n) e)
    ∧ ParserChecksHold refA ((v20Bound 1).pp.flags.getLsbD 0) 0x1234 0x89ABCDEF 0
    ∧ ¬ParserChecksHold refA ((v20Bound 0).pp.flags.getLsbD 0) 0x1234 0x89ABCDEF 0 := by
  have key : ∀ s : State, acceptsAll s 0 (frameExpected refA 0x1234 0x89ABCDEF 0) = true →
      ∀ n e, (frameExpected refA 0x1234 0x89ABCDEF 0)[n]? = some e → Accepts s.pp (s.rxWord n) e := by
    intro s h n e he
    simpa only [Nat.zero_add] using acceptsAll_spec s _ 0 h n e he
  refine ⟨⟨by decide, by decide, by decide, rfl⟩, ⟨?_, ?_, ?_⟩, key _ (by decide), key _ (by decide), ⟨?_, ?_⟩, ?_⟩
  · unfold FitsField; decide
  · unfold FitsField; decide
  · unfold FitsField; decide
  · intro src h b1 b2 hm
    simp only [refA, List.mem_singleton, Check.invHalves.injEq] at hm
    obtain ⟨rfl, rfl, rfl, rfl⟩ := hm
    exact .inl ⟨by decide, rfl⟩
  · intro b hm; simp [refA] at hm
  · intro hk
    rcases hk.1 .addr 8 true true (by simp [refA]) with hk | hk
    · exact absurd hk.1 (by decide)
    · revert hk; unfold HalvesHold; decide

/-- V37's frame bound in RX: record 5 has a mark of 760. -/
def badBound : State := received (v20.set 5 0x069A82F8) 51 (parserOn State.reset 0x80 200 1)

/-- `MatchesNothing` as a test. -/
def matchesNothing (p : ParserRegs) (w : Word) : Expected → Bool
  | .head => !symMatch p w p.profile.leadHi p.profile.leadLo
  | .bit _ => classify p w == none
  | .gap => !symMatch p w p.profile.gapHi p.profile.gapLo

theorem matchesNothing_iff (p : ParserRegs) (w : Word) (e : Expected) :
    matchesNothing p w e = true ↔ MatchesNothing p w e := by
  cases e <;> simp [matchesNothing, MatchesNothing]

/-- TimingErrorAtFirstBadRecord: a bad repeat symbol; V37's frame, bad at record 5 and not before; V20, all good. -/
theorem witness_timing :
    (repeatBound 0x08CAA3F0 1).pp.kind = .repeated
    ∧ (badBound.pp.ready = true ∧ badBound.pp.bound = true ∧ badBound.pp.kind = .data
      ∧ familyTable badBound.pp.family = some refA
      ∧ (frameExpected refA 0 0 0)[5]? = some (.bit false) ∧ MatchesNothing badBound.pp (badBound.rxWord 5) (.bit false)
      ∧ ∀ m f, m < 5 → (frameExpected refA 0 0 0)[m]? = some f → ¬MatchesNothing badBound.pp (badBound.rxWord m) f)
    ∧ ∀ n e, (frameExpected refA 0x1234 0x89ABCDEF 0)[n]? = some e → ¬MatchesNothing (v20Bound 1).pp ((v20Bound 1).rxWord n) e := by
  refine ⟨by decide, ⟨by decide, by decide, by decide, rfl, by decide, ?_, ?_⟩, ?_⟩
  · exact (matchesNothing_iff _ _ _).mp (by decide)
  · have h : ∀ m < 5, ∀ f ∈ (frameExpected refA 0 0 0)[m]?, matchesNothing badBound.pp (badBound.rxWord m) f = false := by
      decide
    intro m f hm hf hn
    rw [← matchesNothing_iff, h m hm f hf] at hn
    cases hn
  · intro n e he
    exact (witness_pscanDecodes.2.2.1 n e he).not_nothing

/-- A REF_B frame whose address copy differs in its first bit (V46). -/
def copyBad : State := received (v25.set 17 0x01908190) 34 (parserOn State.reset 0x81 100 0)

/-- CopyMismatchFailsDecode. -/
theorem witness_copyMismatch :
    let pre : List Segment := [.head, .field .addr 5 .msb false, .field .cmd 10 .msb false, .gap]
    let post : List Segment := [.field .cmd 10 .msb true, .endMark]
    (copyBad.pp.ready = true ∧ copyBad.pp.bound = true ∧ copyBad.pp.kind = .data
      ∧ familyTable copyBad.pp.family = some refB)
    ∧ (FitsField refB .addr 0x15 ∧ FitsField refB .cmd 0x2A5 ∧ FitsField refB .aux 0
      ∧ FitsField refB .addr (pick 0x05 0 0 .addr))
    ∧ refB.template = pre ++ .field .addr 5 .msb false :: post
    ∧ (∃ w₀ o₀ inv₀, Segment.field .addr w₀ o₀ inv₀ ∈ pre) ∧ pick 0x05 0 0 .addr ≠ pick 0x15 0x2A5 0 .addr
    ∧ (∀ n e, (pre.flatMap (segmentExpected 0x15 0x2A5 0) ++ segmentExpected 0x05 0 0 (.field .addr 5 .msb false)
        ++ post.flatMap (segmentExpected 0x15 0x2A5 0))[n]? = some e → Accepts copyBad.pp (copyBad.rxWord n) e)
    ∧ ¬(copyBad.pp.flags.getLsbD 0 = true ∧ refB.copyBypassP = true) := by
  refine ⟨⟨by decide, by decide, by decide, rfl⟩, ⟨?_, ?_, ?_, ?_⟩, rfl, ⟨5, .msb, false, by simp⟩, by decide, ?_, by decide⟩
  · unfold FitsField; decide
  · unfold FitsField; decide
  · unfold FitsField; decide
  · unfold FitsField; decide
  · intro n e he
    simpa only [Nat.zero_add] using acceptsAll_spec copyBad _ 0 (by decide) n e he

/-- LoopbackRoundTrip: P1's configuration and operands. -/
theorem witness_loopback : (duo 1).Inv ∧ (duo 1).bp.ready = true ∧ (duo 1).pp.ready = true
    ∧ familyTable (duo 1).bp.family = some refA ∧ (duo 1).pp.family = (duo 1).bp.family
    ∧ (duo 1).pp.clkHz = (duo 1).bp.clkHz ∧ (duo 1).pp.flags.getLsbD 1 = (duo 1).bp.flags.getLsbD 1
    ∧ 1 ≤ (duo 1).pp.margin.toNat
    ∧ ¬(|((duo 1).pp.profile.l1Hi.toNat : Int) - (duo 1).pp.profile.l0Hi.toNat| < (duo 1).pp.margin.toNat
      ∧ |((duo 1).pp.profile.l1Lo.toNat : Int) - (duo 1).pp.profile.l0Lo.toNat| < (duo 1).pp.margin.toNat)
    ∧ FitsField refA .addr 0x1234 ∧ FitsField refA .cmd 0x89ABCDEF
    ∧ BuilderChecksHold refA ((duo 1).bp.flags.getLsbD 0) 0x1234 0x89ABCDEF
    ∧ ParserHalvesHold refA ((duo 1).pp.flags.getLsbD 0) 0x1234 0x89ABCDEF ∧ (51 : Word).toNat = dataLen refA := by
  have hx : ∀ ext : Bool, ext = true → BuilderChecksHold refA ext 0x1234 0x89ABCDEF
      ∧ ParserHalvesHold refA ext 0x1234 0x89ABCDEF := by
    rintro ext rfl
    constructor <;>
    · intro src h b1 b2 hm
      simp only [refA, List.mem_singleton, Check.invHalves.injEq] at hm
      obtain ⟨rfl, rfl, rfl, rfl⟩ := hm
      exact .inl ⟨rfl, rfl⟩
  refine ⟨duo_inv 1 (.inr rfl), by decide, by decide, rfl, by decide, by decide, by decide, by decide, ?_, ?_, ?_,
    (hx _ (by decide)).1, (hx _ (by decide)).2, by decide⟩
  · have e1 : (duo 1).pp.profile.l1Lo.toNat = 1690 := by decide
    have e0 : (duo 1).pp.profile.l0Lo.toNat = 560 := by decide
    have em : (duo 1).pp.margin.toNat = 200 := by decide
    rw [e1, e0, em]
    rintro ⟨-, h⟩
    rw [abs_lt] at h
    omega
  · unfold FitsField; decide
  · unfold FitsField; decide

/-- StateErrorExactlyWhenNotLegal, FailureEffects, OperationFrames: a legal and an illegal operation. -/
theorem witness_exec : ((duo 0).Inv ∧ exec .mkhead (duo 0) = .next (after .mkhead (duo 0)) ∧ ¬NotLegal (duo 0) .mkhead)
    ∧ (exec .bnew (duo 0) = .next (after .bnew (duo 0)) ∧ NotLegal (duo 0) .bnew
      ∧ (after .bnew (duo 0)).bp.status = .errState) :=
  ⟨⟨duo_inv 0 (.inl rfl), rfl, by unfold NotLegal; decide⟩, rfl, by unfold NotLegal; decide, by decide⟩

/-- FailureEffects: a framing error and a timing error, from states that keep the invariant. -/
theorem witness_failures :
    ((duo 0).Inv ∧ exec .pinput (duo 0) = .next (after .pinput (duo 0)) ∧ (after .pinput (duo 0)).pp.status = .errFraming)
    ∧ ((repeatBound 0x08CAA3F0 1).Inv
      ∧ exec .pscan (repeatBound 0x08CAA3F0 1) = .next (after .pscan (repeatBound 0x08CAA3F0 1))
      ∧ (after .pscan (repeatBound 0x08CAA3F0 1)).pp.status = .errTiming) :=
  ⟨⟨duo_inv 0 (.inl rfl), rfl, by decide⟩, repeatBound_inv, rfl, by decide⟩

/-- StatusNamesItsOperations: each code is raised somewhere. -/
theorem witness_statuses : (after .bnew State.reset).bp.status = .errConfig ∧ (after .pinput (duo 0)).pp.status = .errFraming
    ∧ (after .bframe (argsB 0x1234 0 (builderA 0))).bp.status = .errStruct
    ∧ (after .pscan (repeatBound 0x08CAA3EF 1)).pp.status = .errNocache
    ∧ (after .mkgap (builderA 0)).bp.status = .errUnsupported ∧ (after .brepeat builderB).bp.status = .errUnsupported := by
  decide

/-- EnginesAreIndependent. -/
theorem witness_independent : Instr.bframe.port = .bp ∧ Instr.pscan.port = .pp := by decide

/-- CacheHasOneWriter, ConfigurationImmutable, StepKeepsInvariant: a step that answers a next state from a state that
meets the invariant, with both engines constructed before and after. -/
theorem witness_step :
    let s : State := withNextAction (.wr .bp commandIndex 0x12) (duo 0)
    s.Inv ∧ step s = .next (after .mkhead (duo 0)) ∧ s.bp.ready = true ∧ (after .mkhead (duo 0)).bp.ready = true
      ∧ s.pp.ready = true ∧ (after .mkhead (duo 0)).pp.ready = true := by
  have h := duo_inv 0 (.inl rfl)
  exact ⟨⟨h.builder, h.parser, h.buffers.txForm, h.buffers.rxForm, h.buffers.txRange, h.buffers.rxRange⟩, rfl, by decide,
    by decide, by decide, by decide⟩

/-- ForgettingIsFreshAndRare: a BNEW and a BDEL that succeed and a reset; and where the clauses meet, a BNEW that fails, a
make step, a host write to RX and a read, each of which answers a next state. -/
theorem witness_forgetting :
    (step (withNextAction (.wr .bp 0x06 0x10) (stagedB 0x80 1000000 51 0)) = .next (builderA 0)
      ∧ (builderA 0).bp.status = .ok)
    ∧ (step (withNextAction (.wr .bp 0x06 0x11) (builderA 0)) = .next (after .bdel (builderA 0))
      ∧ (after .bdel (builderA 0)).bp.status = .ok)
    ∧ step (withNextAction .reset (builderA 0)) = .next (resetBlock (builderA 0))
    ∧ (step (withNextAction (.wr .bp 0x06 0x10) (builderA 0)) = .next (after .bnew (builderA 0))
      ∧ (after .bnew (builderA 0)).bp.status ≠ .ok)
    ∧ step (withNextAction (.wr .bp 0x06 0x12) (builderA 0)) = .next (after .mkhead (builderA 0))
    ∧ step (withNextAction (.wrb .rx 0 1) (builderA 0)) = .next (hostWriteBuffer .rx 0 1 (builderA 0))
    ∧ step (withNextAction (.rd .bp 0x07) (builderA 0)) = .next { builderA 0 with lastRead := some 0 } :=
  ⟨⟨rfl, by decide⟩, ⟨rfl, by decide⟩, rfl, ⟨rfl, by decide⟩, rfl, rfl, rfl⟩

/-- ResetActionResetsTheBlock (R34, R290): a constructed Builder after a reset, and the ends of both register files. -/
theorem test_reset_action : (resetBlock (builderA 0)).bp.ready = false ∧ (resetBlock (builderA 0)).bp.family = 0
    ∧ hasRegister .bp 0x1F = true ∧ hasRegister .pp 0x2F = true := by decide

/-- PscanEndsBorrow. -/
theorem witness_borrow : (v20Bound 1).pp.ready = true ∧ (v20Bound 1).pp.bound = true := by decide

/-- ResetReadsZero: a release of either engine, and the indices next to STATUS. -/
theorem witness_release : ((builderA 0).bp.ready = true ∧ exec .bdel (builderA 0) = .next (after .bdel (builderA 0)))
    ∧ (solo.pp.ready = true ∧ exec .pdel solo = .next (after .pdel solo))
    ∧ ((0x06 : Nat) ≤ 0x06 ∧ (0x06 : Nat) ≠ 0x07 ∧ (0x06 : Nat) ≤ 0x08 ∧ (0x08 : Nat) ≠ 0x07) :=
  ⟨⟨by decide, rfl⟩, ⟨by decide, rfl⟩, by decide⟩

/-- RegisterAccess: the ends of the index ranges. -/
theorem witness_registers : ((0 : Nat) ≤ 0x05 ∧ (5 : Nat) ≤ 0x05)
    ∧ ((0x07 : Nat) ≤ 0x07 ∧ hasRegister .bp 0x07 = true ∧ hasRegister .bp 0x1F = true ∧ hasRegister .pp 0x2F = true)
    ∧ (hasRegister .bp 0x20 = false ∧ hasRegister .pp 0x30 = false) := by decide

/-- BufferAccess, CopyMovesFrame: the first index at a buffer's size, and indices below every size. -/
theorem witness_buffers : Config.rxCap ≤ Config.rxCap ∧ 0 < Config.rxCap ∧ 62 < Config.rxCap
    ∧ 63 ≤ Config.txCap ∧ 63 ≤ Config.rxCap :=
  ⟨Nat.le_refl _, Nat.lt_of_lt_of_le (by decide) minBuffer_le_rxCap,
    Nat.lt_of_lt_of_le (by decide) minBuffer_le_rxCap, minBuffer_le_txCap, minBuffer_le_rxCap⟩

/-- DecodeAgreesWithEncode, RegisterAccess: a word that decodes. -/
theorem witness_decode : decode .bp 0x18 = .ok .bframe ∧ encode .bframe = 0x18 := by decide

end Sys2Proof.Tests
end

section
/-! PROOFS. What each operation answers, case by case: the lemmas the statements of the state's family are assembled from. -/

namespace Sys2Proof.Machine

open Sys2Proof

/-! ## What each operation answers -/

/-- What CONV answers (R132). -/
theorem conv_cases {p : Port} {s t : State} (h : exec (.conv p) s = .next t) :
    t = s.setStatus p .errConfig ∨ ∃ r, t = (s.setResult p r).setStatus p .ok := by
  simp only [exec, execConv] at h
  split at h
  · cases h; exact .inl rfl
  · split at h
    · cases h; exact .inl rfl
    · cases h; exact .inr ⟨_, rfl⟩

/-- What BNEW answers (R150): a state or configuration error, or a Builder constructed from a configuration that
passed every test. -/
theorem bnew_cases {s t : State} (h : exec .bnew s = .next t) :
    (∃ c, t = s.setStatus .bp c)
    ∨ ∃ d, familyTable s.bp.cfgFamily = some d ∧ s.bp.cfgClkHz ≠ 0 ∧ dataLen d ≤ s.bp.cfgCapacity.toNat
      ∧ s.bp.cfgCapacity.toNat ≤ Config.txCap ∧ maxDur d (resolve d s.bp.cfgClkHz.toNat) ≤ 0x7FFF
      ∧ t = ({ forgetTx s with bp := constructBuilder d s.bp } : State).setStatus .bp .ok := by
  simp only [exec, execBnew] at h
  split at h
  · cases h; exact .inl ⟨_, rfl⟩
  · split at h
    · cases h; exact .inl ⟨_, rfl⟩
    · next d hd =>
      split at h
      · cases h; exact .inl ⟨_, rfl⟩
      · next hz =>
        split at h
        · cases h; exact .inl ⟨_, rfl⟩
        · split at h
          · cases h; exact .inl ⟨_, rfl⟩
          · next hcap =>
            split at h
            · cases h; exact .inl ⟨_, rfl⟩
            · next hdur =>
              cases h
              simp only [Bool.or_eq_true, decide_eq_true_eq, Bool.not_eq_true', not_or, Bool.not_eq_false,
                fitsTx_iff] at hcap
              exact .inr ⟨d, hd, hz, Nat.le_of_not_lt hcap.1, hcap.2, Nat.le_of_not_lt hdur, rfl⟩

/-- What BDEL answers (R162). -/
theorem bdel_cases {s t : State} (h : exec .bdel s = .next t) :
    s.bp.ready = false ∧ t = s.setStatus .bp .errState
    ∨ s.bp.ready = true ∧ t = ({ forgetTx s with bp := releaseBuilder s.bp } : State).setStatus .bp .ok := by
  simp only [exec, execBdel] at h
  split at h
  · next hr => cases h; exact .inr ⟨hr, rfl⟩
  · next hr => cases h; exact .inl ⟨Bool.eq_false_of_not_eq_true hr, rfl⟩

/-- What BRESULT answers (R161). -/
theorem bresult_cases {s t : State} (h : exec .bresult s = .next t) :
    t = s.setStatus .bp .errState ∨ t = (s.setResult .bp s.bp.cursor).setStatus .bp .ok := by
  simp only [exec, execBresult, whenReady] at h
  split at h
  · cases h; exact .inr rfl
  · cases h; exact .inl rfl

/-- What PNEW answers (R192): a state or configuration error, or a Parser constructed from a configuration that passed
every test. -/
theorem pnew_cases {s t : State} (h : exec .pnew s = .next t) :
    (∃ c, t = s.setStatus .pp c)
    ∨ ∃ d, familyTable s.pp.cfgFamily = some d ∧ s.pp.cfgClkHz ≠ 0
      ∧ maxDur d (resolve d s.pp.cfgClkHz.toNat) ≤ 0xFFFFFFFF
      ∧ t = ({ s with pp := constructParser d s.pp } : State).setStatus .pp .ok := by
  simp only [exec, execPnew] at h
  split at h
  · cases h; exact .inl ⟨_, rfl⟩
  · split at h
    · cases h; exact .inl ⟨_, rfl⟩
    · next d hd =>
      split at h
      · cases h; exact .inl ⟨_, rfl⟩
      · next hz =>
        split at h
        · cases h; exact .inl ⟨_, rfl⟩
        · next hdur =>
          cases h
          simp only [Bool.or_eq_true, decide_eq_true_eq, not_or] at hdur
          exact .inr ⟨d, hd, hz, Nat.le_of_not_lt hdur.1, rfl⟩

/-- What PDEL answers (R193). -/
theorem pdel_cases {s t : State} (h : exec .pdel s = .next t) :
    s.pp.ready = false ∧ t = s.setStatus .pp .errState
    ∨ s.pp.ready = true ∧ t = ({ s with pp := releaseParser s.pp } : State).setStatus .pp .ok := by
  simp only [exec, execPdel] at h
  split at h
  · next hr => cases h; exact .inr ⟨hr, rfl⟩
  · next hr => cases h; exact .inl ⟨Bool.eq_false_of_not_eq_true hr, rfl⟩

/-- What PINPUT answers (R194). -/
theorem pinput_cases {s t : State} (h : exec .pinput s = .next t) :
    t = s.setStatus .pp .errState
    ∨ s.pp.ready = true ∧ (∃ k, kindOfLength (parserDescriptor s) s.pp.arg0.toNat = some k
        ∧ t = ({ s with pp := { unbind s.pp with kind := k, len := s.pp.arg0, bound := true } } : State).setStatus .pp .ok)
    ∨ s.pp.ready = true
        ∧ t = ({ s with pp := { unbind s.pp with pstate := .failed } } : State).setStatus .pp .errFraming := by
  simp only [exec, execPinput] at h
  split at h
  · next hr =>
    split at h
    · next k hk => cases h; exact .inr (.inl ⟨hr, k, hk, rfl⟩)
    · cases h; exact .inr (.inr ⟨hr, rfl⟩)
  · cases h; exact .inl rfl

/-- What PSCAN answers (R198). -/
theorem pscan_cases {s t : State} (h : exec .pscan s = .next t) :
    t = s.setStatus .pp .errState
    ∨ s.pp.ready = true ∧ s.pp.bound = true
      ∧ t = ({ s with pp := { (scan s).2 with bound := false } } : State).setStatus .pp (scan s).1 := by
  simp only [exec, execPscan] at h
  split at h
  · next hr =>
    rw [Bool.and_eq_true] at hr
    cases h; exact .inr ⟨hr.1, hr.2, rfl⟩
  · cases h; exact .inl rfl

/-- The lengths PINPUT recognises (R194). -/
theorem kindOfLength_eq_some {d : Descriptor} {n : Nat} {k : FrameKind} (h : kindOfLength d n = some k) :
    k = .data ∧ n = dataLen d ∨ k = .repeated ∧ d.hasRepeat = true ∧ n = repeatLen d := by
  unfold kindOfLength at h
  split at h
  · next hn => cases h; exact .inl ⟨rfl, hn⟩
  · split at h
    · next hn =>
      rw [Bool.and_eq_true, beq_iff_eq] at hn
      cases h; exact .inr ⟨rfl, hn.1, hn.2⟩
    · cases h

/-! ## How a scan ends -/

/-- How a scan ends that began on the registers `p` and read at most `n` records (R202, R203). -/
structure ScanEnd (n : Nat) (p q : ParserRegs) : Prop where
  pstate : q.pstate = .complete ∨ q.pstate = .failed
  cursor : q.cursor.toNat ≤ n
  cache : q.lastValid = true ∨ SameCache p q

/-- A data scan stays within the frame (R199). -/
theorem scanData_end {s : State} (hw : (parserDescriptor s).wf Config.txCap Config.rxCap = true) :
    ScanEnd (dataLen (parserDescriptor s)) s.pp (scanData s).2 := by
  have cursor : ∀ k : Walk, k.cursor ≤ dataLen (parserDescriptor s) →
      (BitVec.ofNat 32 k.cursor).toNat ≤ dataLen (parserDescriptor s) := fun k hk => by
    rw [BitVec.toNat_ofNat]; exact (Nat.mod_le _ _).trans hk
  unfold scanData
  split
  · next k hk =>
    exact ⟨.inr (walk_ends_failed _ _ _ _ hk), cursor k (walk_cursor_le hw (.inr hk)), .inr ⟨rfl, rfl, rfl⟩⟩
  · next k hk =>
    have hc := cursor k (walk_cursor_le hw (.inl hk))
    split
    · exact ⟨.inl rfl, hc, .inl rfl⟩
    · exact ⟨.inr rfl, hc, .inr ⟨rfl, rfl, rfl⟩⟩

/-- A repeat scan reads one record (R197). -/
theorem scanRepeat_end (s : State) : ScanEnd 1 s.pp (scanRepeat s).2 := by
  unfold scanRepeat
  split
  · split
    · exact ⟨.inl rfl, Nat.le_refl 1, .inr ⟨rfl, rfl, rfl⟩⟩
    · exact ⟨.inr rfl, Nat.le_refl 1, .inr ⟨rfl, rfl, rfl⟩⟩
  · exact ⟨.inr rfl, Nat.le_refl 1, .inr ⟨rfl, rfl, rfl⟩⟩

end Sys2Proof.Machine
end

section
/-! PROOFS. The invariant of the machine: it holds after reset, and every part of an operation and every action of the
host keeps it. -/

namespace Sys2Proof.Machine

open Sys2Proof

/-! ## Parts of the state the invariant does not speak of -/

/-- The invariant of a Builder does not speak of its staging, operand, STATUS and RESULT registers. -/
theorem BuilderInv.outside {b : BuilderRegs} (h : BuilderInv b) (f hz cap fl a a' r : Word) (st : Status) :
    BuilderInv { b with cfgFamily := f, cfgClkHz := hz, cfgCapacity := cap, cfgFlags := fl, arg0 := a, arg1 := a',
                        status := st, result := r } := by
  refine ⟨fun hr => { h.1 hr with }, fun hr => ?_⟩
  obtain ⟨d, hb⟩ := h.2 hr
  exact ⟨d, { hb with }⟩

/-- The invariant of a Parser does not speak of its staging, operand, STATUS and RESULT registers. -/
theorem ParserInv.outside {p : ParserRegs} (h : ParserInv p) (f hz m fl a a' r : Word) (st : Status) :
    ParserInv { p with cfgFamily := f, cfgClkHz := hz, cfgMarginUs := m, cfgFlags := fl, arg0 := a, arg1 := a',
                       status := st, result := r } := by
  refine ⟨fun hr => { h.1 hr with }, fun hr => ?_⟩
  obtain ⟨d, hb⟩ := h.2 hr
  exact ⟨d, { hb with }⟩

/-- The invariant of the buffers speaks of TX, RX and CAPACITY alone. -/
theorem BuffersInv.congr {s t : State} (h : BuffersInv s) (htx : t.tx = s.tx) (hrx : t.rx = s.rx)
    (hcap : t.bp.capacity = s.bp.capacity) : BuffersInv t := by
  obtain ⟨h1, h2, h3, h4⟩ := h
  exact ⟨by rw [htx, h1], by rw [hrx, h2], by rw [htx, hcap]; exact h3, by rw [hrx]; exact h4⟩

theorem State.Inv.setStatus {s : State} (h : s.Inv) (p : Port) (c : Status) : (s.setStatus p c).Inv := by
  cases p with
  | bp => exact ⟨h.builder.outside .., h.parser, h.buffers.congr rfl rfl rfl⟩
  | pp => exact ⟨h.builder, h.parser.outside .., h.buffers.congr rfl rfl rfl⟩

theorem State.Inv.setResult {s : State} (h : s.Inv) (p : Port) (v : Word) : (s.setResult p v).Inv := by
  cases p with
  | bp => exact ⟨h.builder.outside .., h.parser, h.buffers.congr rfl rfl rfl⟩
  | pp => exact ⟨h.builder, h.parser.outside .., h.buffers.congr rfl rfl rfl⟩

/-- The invariant does not speak of the host's side. -/
theorem State.Inv.hostSide {s : State} (h : s.Inv) (host : List HostAction) (r : Option Word) :
    ({ s with host := host, lastRead := r } : State).Inv :=
  ⟨h.builder, h.parser, h.buffers.congr rfl rfl rfl⟩

/-- An operation on the Parser keeps the invariant when it keeps that of the Parser. -/
theorem State.Inv.withParser {s : State} (h : s.Inv) {p : ParserRegs} (hp : ParserInv p) :
    ({ s with pp := p } : State).Inv := ⟨h.builder, hp, h.buffers.congr rfl rfl rfl⟩

/-! ## The Builder's operations -/

/-- CURSOR may stand anywhere within CAPACITY, which is 0 on an unconstructed Builder. -/
theorem BuilderInv.moveCursor {b : BuilderRegs} (h : BuilderInv b) {c : Word} (hc : c.toNat ≤ b.capacity.toNat) :
    BuilderInv { b with cursor := c } := by
  refine ⟨fun hr => ?_, fun hr => ?_⟩
  · have hi := h.1 hr
    have h0 : c = 0 := by
      rw [hi.capacity] at hc
      exact BitVec.eq_of_toNat_eq (Nat.le_zero.mp hc)
    exact { hi with cursor := h0 }
  · obtain ⟨d, hb⟩ := h.2 hr
    exact ⟨d, { hb with cursorFits := hc }⟩

/-- Going back to index 0 keeps the invariant (R152, R160). -/
theorem State.Inv.home {s : State} (h : s.Inv) : (s.setCursor 0).Inv :=
  ⟨h.builder.moveCursor (Nat.zero_le _), h.parser, h.buffers.congr rfl rfl rfl⟩

/-- Words that fit below CAPACITY keep the invariant (R151). -/
theorem State.Inv.emitted {s : State} (h : s.Inv) {ws : List Word} (hf : Fits ws s) : (emitted ws s).Inv := by
  refine ⟨h.builder.moveCursor ?_, h.parser, Memory.wf_writeAll ws _ _ h.buffers.txForm, h.buffers.rxForm, ?_,
    h.buffers.rxRange⟩
  · exact (emitted_cursor hf).trans_le hf
  · intro i w hi
    change (s.tx.writeAll _ ws).read i = some w at hi
    rw [Memory.read_writeAll] at hi
    split at hi
    · next hlt => exact lt_of_lt_of_le hlt.2 hf
    · exact h.buffers.txRange i w hi

/-- EMIT keeps the invariant, whether its words fit or not (R151). -/
theorem State.Inv.emit {s : State} (h : s.Inv) (ws : List Word) : (att (emit ws s)).Inv := by
  by_cases hf : Fits ws s
  · rw [emit_of_fits hf]; exact h.emitted hf
  · rw [emit_of_full hf]; exact h

theorem andThen_inv {a : Attempt} {f : State → Attempt} (ha : (att a).Inv) (hf : ∀ u : State, u.Inv → (att (f u)).Inv) :
    (att (a.andThen f)).Inv := by
  cases a with
  | done u => exact hf u ha
  | raised c u => exact ha

theorem emitBits_inv (bs : List Bool) {s : State} (h : s.Inv) : (att (emitBits bs s)).Inv := by
  induction bs generalizing s with
  | nil => exact h
  | cons b bs ih => exact andThen_inv (h.emit _) fun _ hu => ih hu

theorem emitSegment_inv (a c q : Word) (g : Segment) {s : State} (h : s.Inv) : (att (emitSegment a c q g s)).Inv := by
  cases g with
  | head => exact h.home.emit _
  | field src w o inv => exact emitBits_inv _ h
  | gap => exact h.emit _
  | endMark => exact h.emit _

/-- A walk over a template keeps the invariant, whether it goes through or not (R157). -/
theorem emitTemplate_inv (a c q : Word) (gs : List Segment) {s : State} (h : s.Inv) :
    (att (emitTemplate a c q gs s)).Inv := by
  induction gs generalizing s with
  | nil => exact h
  | cons g gs ih => exact andThen_inv (emitSegment_inv a c q g h) fun _ hu => ih hu

/-- Completing an attempt keeps the invariant of the state it ended in. -/
theorem whenReady_inv {s t : State} {a : Attempt} (hs : s.Inv) (ha : (att a).Inv) (h : whenReady s a = .next t) :
    t.Inv := by
  unfold whenReady at h
  split at h
  · cases a <;> (cases h; exact State.Inv.setStatus ha .bp _)
  · cases h; exact hs.setStatus .bp _

/-- REPEAT_LEN fits a register (R234). -/
theorem repeatLen_toNat (d : Descriptor) : (BitVec.ofNat 32 (repeatLen d)).toNat = repeatLen d := by
  unfold repeatLen
  split <;> rfl

/-- With TX forgotten, a BP operation keeps the invariant when it keeps that of the Builder. -/
theorem State.Inv.forgotten {s : State} (h : s.Inv) {b : BuilderRegs} (hb : BuilderInv b) :
    ({ forgetTx s with bp := b } : State).Inv :=
  ⟨hb, h.parser, rfl, h.buffers.rxForm, fun _ _ hi => (Option.some_ne_none _ hi.symm).elim, h.buffers.rxRange⟩

/-- BNEW keeps the invariant (R150). -/
theorem bnew_inv {s t : State} (hs : s.Inv) (h : exec .bnew s = .next t) : t.Inv := by
  obtain ⟨c, rfl⟩ | ⟨d, hfam, hhz, hcap, hcap', hdur, rfl⟩ := bnew_cases h
  · exact hs.setStatus .bp c
  · have built : BuilderBuilt (constructBuilder d s.bp) d :=
      { family := hfam, clkHz := hhz, frameFits := hcap, capacityFits := hcap', cursorFits := Nat.zero_le _,
        profile := rfl, durations := hdur, dataLen := ofNat_toNat (dataLen_lt (familyTable_wf hfam)),
        repeatLen := repeatLen_toNat d, caps := rfl, repeatPeriodMs := rfl }
    have inv : BuilderInv (constructBuilder d s.bp) :=
      ⟨fun hr => (Bool.false_ne_true hr.symm).elim, fun _ => ⟨d, built⟩⟩
    exact (hs.forgotten inv).setStatus .bp _

theorem releaseBuilder_idle (b : BuilderRegs) : BuilderIdle (releaseBuilder b) :=
  ⟨rfl, rfl, rfl, rfl, rfl, rfl, rfl, rfl, rfl, rfl⟩

theorem releaseBuilder_inv (b : BuilderRegs) : BuilderInv (releaseBuilder b) :=
  ⟨fun _ => releaseBuilder_idle b, fun hr => (Bool.false_ne_true hr).elim⟩

/-- BDEL keeps the invariant (R162). -/
theorem bdel_inv {s t : State} (hs : s.Inv) (h : exec .bdel s = .next t) : t.Inv := by
  obtain ⟨-, rfl⟩ | ⟨-, rfl⟩ := bdel_cases h
  · exact hs.setStatus .bp _
  · exact (hs.forgotten (releaseBuilder_inv s.bp)).setStatus .bp _

/-- CONV keeps the invariant: it writes RESULT and STATUS alone (R132). -/
theorem conv_inv {p : Port} {s t : State} (hs : s.Inv) (h : exec (.conv p) s = .next t) : t.Inv := by
  obtain rfl | ⟨r, rfl⟩ := conv_cases h
  · exact hs.setStatus p _
  · exact (hs.setResult p r).setStatus p _

/-- BRESULT keeps the invariant: it writes RESULT and STATUS alone (R161). -/
theorem bresult_inv {s t : State} (hs : s.Inv) (h : exec .bresult s = .next t) : t.Inv := by
  obtain rfl | rfl := bresult_cases h
  · exact hs.setStatus .bp _
  · exact (hs.setResult .bp _).setStatus .bp _

/-! ## The Parser's operations -/

/-- A Parser constructed for `d` meets the invariant. -/
theorem ParserBuilt.inv {p : ParserRegs} {d : Descriptor} (h : ParserBuilt p d) (hr : p.ready = true) : ParserInv p :=
  ⟨fun hr' => (Bool.false_ne_true (hr'.symm.trans hr)).elim, fun _ => ⟨d, h⟩⟩

/-- PNEW keeps the invariant (R192). -/
theorem pnew_inv {s t : State} (hs : s.Inv) (h : exec .pnew s = .next t) : t.Inv := by
  obtain ⟨c, rfl⟩ | ⟨d, hfam, hhz, hdur, rfl⟩ := pnew_cases h
  · exact hs.setStatus .pp c
  · have built : ParserBuilt (constructParser d s.pp) d :=
      { family := hfam, clkHz := hhz, profile := rfl, durations := hdur,
        dataLen := ofNat_toNat (dataLen_lt (familyTable_wf hfam)), repeatLen := repeatLen_toNat d, caps := rfl,
        pstate := .inl rfl, lengths := .inr (.inr ⟨rfl, rfl, rfl⟩), cursorFits := Nat.le_refl _,
        bound := fun hb => (Bool.false_ne_true hb).elim, cacheEmpty := fun _ => ⟨rfl, rfl⟩ }
    exact (hs.withParser (built.inv rfl)).setStatus .pp _

theorem releaseParser_idle (p : ParserRegs) : ParserIdle (releaseParser p) :=
  ⟨rfl, rfl, rfl, rfl, rfl, rfl, rfl, rfl, rfl, rfl, rfl, rfl, rfl, rfl, rfl, rfl, rfl, rfl, rfl, rfl⟩

theorem releaseParser_inv (p : ParserRegs) : ParserInv (releaseParser p) :=
  ⟨fun _ => releaseParser_idle p, fun hr => (Bool.false_ne_true hr).elim⟩

/-- PDEL keeps the invariant (R193). -/
theorem pdel_inv {s t : State} (hs : s.Inv) (h : exec .pdel s = .next t) : t.Inv := by
  obtain ⟨-, rfl⟩ | ⟨-, rfl⟩ := pdel_cases h
  · exact hs.setStatus .pp _
  · exact (hs.withParser (releaseParser_inv s.pp)).setStatus .pp _

/-- PINPUT keeps the invariant: it binds a buffer of one of the family's two lengths, or none (R194). -/
theorem pinput_inv {s t : State} (hs : s.Inv) (h : exec .pinput s = .next t) : t.Inv := by
  obtain rfl | ⟨hr, k, hk, rfl⟩ | ⟨hr, rfl⟩ := pinput_cases h
  · exact hs.setStatus .pp _
  · obtain ⟨d, hd⟩ := hs.parser.2 hr
    rw [parserDescriptor, descriptorAt_of_some hd.family] at hk
    have lengths : k = .data ∧ s.pp.arg0.toNat = dataLen d
        ∨ k = .repeated ∧ d.hasRepeat = true ∧ s.pp.arg0.toNat = repeatLen d
        ∨ k = .none ∧ s.pp.arg0 = 0 ∧ true = false := by
      obtain hk | hk := kindOfLength_eq_some hk
      · exact .inl hk
      · exact .inr (.inl hk)
    have built : ParserBuilt { unbind s.pp with kind := k, len := s.pp.arg0, bound := true } d :=
      { hd with pstate := .inl rfl, lengths := lengths, cursorFits := Nat.zero_le _, bound := fun _ => ⟨rfl, rfl⟩ }
    exact (hs.withParser (built.inv hr)).setStatus .pp _
  · obtain ⟨d, hd⟩ := hs.parser.2 hr
    have built : ParserBuilt { unbind s.pp with pstate := .failed } d :=
      { hd with pstate := .inr (.inr rfl), lengths := .inr (.inr ⟨rfl, rfl, rfl⟩), cursorFits := Nat.le_refl _,
                bound := fun hb => (Bool.false_ne_true hb).elim }
    exact (hs.withParser (built.inv hr)).setStatus .pp _

/-- A scan of a bound buffer stays within LEN, whichever of the family's two lengths it is (R197, R199). -/
theorem scan_end {s : State} {d : Descriptor} (hd : ParserBuilt s.pp d) (hb : s.pp.bound = true) :
    ScanEnd s.pp.len.toNat s.pp (scan s).2 := by
  have he : parserDescriptor s = d := descriptorAt_of_some hd.family
  unfold scan
  obtain ⟨hk, hl⟩ | ⟨hk, hrep, hl⟩ | ⟨-, -, hb'⟩ := hd.lengths
  · rw [hk, hl, ← he]
    exact scanData_end (he ▸ familyTable_wf hd.family)
  · obtain ⟨h1, h2, h3⟩ := scanRepeat_end s
    rw [hk, hl, repeatLen, if_pos hrep]
    exact ⟨h1, h2.trans (by decide), h3⟩
  · rw [hb] at hb'; cases hb'

/-- PSCAN keeps the invariant (R198, R203). -/
theorem pscan_inv {s t : State} (hs : s.Inv) (h : exec .pscan s = .next t) : t.Inv := by
  obtain rfl | ⟨hr, hb, rfl⟩ := pscan_cases h
  · exact hs.setStatus .pp _
  · obtain ⟨d, hd⟩ := hs.parser.2 hr
    obtain ⟨hps, hcur, hcache⟩ := scan_end hd hb
    obtain ⟨-, hcfg, hready⟩ := scan_keeps s
    obtain ⟨hfam, hclk, hmar, hfl, hprof, hdl, hrl, hcaps⟩ := hcfg
    obtain ⟨-, hkind, hlen⟩ := scan_more s
    have built : ParserBuilt { (scan s).2 with bound := false } d := by
      refine
        { family := hfam ▸ hd.family, clkHz := hclk ▸ hd.clkHz, profile := ?_, durations := ?_, dataLen := hdl ▸ hd.dataLen,
          repeatLen := hrl ▸ hd.repeatLen, caps := hcaps.trans hd.caps, pstate := .inr hps, lengths := ?_,
          cursorFits := hlen ▸ hcur, bound := fun hb => (Bool.false_ne_true hb).elim, cacheEmpty := ?_ }
      · show (scan s).2.profile = profileRegs (resolve d (scan s).2.clkHz.toNat)
        rw [hprof, hclk, hd.profile]
      · show maxDur d (resolve d (scan s).2.clkHz.toNat) ≤ _
        rw [hclk]; exact hd.durations
      · obtain ⟨hk, hl⟩ | ⟨hk, hrep, hl⟩ | ⟨hk, hl, -⟩ := hd.lengths
        · exact .inl ⟨hkind.trans hk, hlen ▸ hl⟩
        · exact .inr (.inl ⟨hkind.trans hk, hrep, hlen ▸ hl⟩)
        · exact .inr (.inr ⟨hkind.trans hk, hlen.trans hl, rfl⟩)
      · intro hv
        obtain hv' | ⟨hlv, hla, hlc⟩ := hcache
        · exact (Bool.false_ne_true (hv.symm.trans hv')).elim
        · obtain ⟨ha, hc⟩ := hd.cacheEmpty (hlv.symm.trans hv)
          exact ⟨hla.trans ha, hlc.trans hc⟩
    exact (hs.withParser (built.inv (hready.trans hr))).setStatus .pp _

/-! ## Every operation and every action of the host -/

/-- Every operation keeps the invariant. -/
theorem exec_inv (i : Instr) {s t : State} (hs : s.Inv) (h : exec i s = .next t) : t.Inv := by
  cases i with
  | conv p => exact conv_inv hs h
  | bnew => exact bnew_inv hs h
  | bdel => exact bdel_inv hs h
  | mkhead => exact whenReady_inv hs (hs.home.emit _) h
  | mkl0 => exact whenReady_inv hs (hs.emit _) h
  | mkl1 => exact whenReady_inv hs (hs.emit _) h
  | mkend => exact whenReady_inv hs (hs.emit _) h
  | mkgap =>
    refine whenReady_inv hs ?_ h
    split
    · exact hs.emit _
    · exact hs
  | bframe =>
    refine whenReady_inv hs ?_ h
    split
    · exact emitTemplate_inv _ _ _ _ hs
    · exact hs
  | brepeat =>
    refine whenReady_inv hs ?_ h
    split
    · exact andThen_inv (hs.home.emit _) fun _ hu => hu.emit _
    · exact hs
  | bresult => exact bresult_inv hs h
  | pnew => exact pnew_inv hs h
  | pdel => exact pdel_inv hs h
  | pinput => exact pinput_inv hs h
  | pscan => exact pscan_inv hs h

/-- A host write to a register keeps the invariant: it reaches staging and operand registers alone (R21). -/
theorem State.Inv.writeReg {s : State} (h : s.Inv) (p : Port) (i : Nat) (v : Word) : (writeReg p i v s).Inv := by
  obtain ⟨f, hz, cap, fl, a, a', hbp⟩ := writeReg_bp p i v s
  obtain ⟨f', hz', m, fl', b, b', hpp⟩ := writeReg_pp p i v s
  obtain ⟨htx, hrx⟩ := writeReg_rest p i v s
  exact ⟨hbp ▸ h.builder.outside .., hpp ▸ h.parser.outside .., h.buffers.congr htx hrx (by rw [hbp])⟩

/-- A host write to a buffer keeps the invariant: it reaches words of RX below RX_CAP alone (R63, R67). -/
theorem State.Inv.hostWrite {s : State} (h : s.Inv) (b : BufferId) (i : Nat) (v : Word) :
    (hostWriteBuffer b i v s).Inv := by
  obtain ⟨m, hm, rfl | ⟨hi, rfl⟩⟩ := hostWrite_form b i v s
  · rw [hm]; exact ⟨h.builder, h.parser, h.buffers.congr rfl rfl rfl⟩
  · rw [hm]
    refine ⟨h.builder, h.parser, h.buffers.txForm, Memory.wf_write _ i v h.buffers.rxForm, h.buffers.txRange, ?_⟩
    intro j w hj
    change (s.rx.write i v).read j = some w at hj
    rw [Memory.read_write] at hj
    split at hj
    · next hji => rw [hji]; exact hi
    · exact h.buffers.rxRange j w hj

/-- A copy of a frame keeps the invariant: it is a run of host writes to RX (R103). -/
theorem State.Inv.copy {s : State} (h : s.Inv) (n : Nat) : (copyTxToRx n s).Inv := by
  induction n with
  | zero => exact h
  | succ n ih => exact ih.hostWrite .rx n _

/-- A block with the registers of reset and empty buffers meets the invariant (R34). -/
theorem inv_of_cleared {s : State} (hbp : s.bp = BuilderRegs.zero) (hpp : s.pp = ParserRegs.zero) (htx : s.tx = [])
    (hrx : s.rx = []) : s.Inv := by
  have builder : BuilderInv BuilderRegs.zero := releaseBuilder_inv BuilderRegs.zero
  have parser : ParserInv ParserRegs.zero := releaseParser_inv ParserRegs.zero
  refine ⟨hbp ▸ builder, hpp ▸ parser, ⟨by rw [htx]; rfl, by rw [hrx]; rfl, fun i w hi => ?_, fun i w hi => ?_⟩⟩
  · rw [htx] at hi; cases hi
  · rw [hrx] at hi; cases hi

/-- Every step keeps the invariant. -/
theorem step_inv {s t : State} (hs : s.Inv) (h : step s = .next t) : t.Inv := by
  have taken : ∀ rest, ({ s with host := rest } : State).Inv := fun rest => hs.hostSide rest s.lastRead
  obtain ⟨-, rfl⟩ | ⟨p, w, rest, -, ⟨i, -, he⟩ | rfl⟩ | ⟨p, i, v, rest, -, -, rfl⟩ | ⟨rest, r, -, rfl⟩
    | ⟨b, i, v, rest, -, rfl⟩ | ⟨n, rest, -, rfl⟩ | ⟨rest, -, rfl⟩ := step_cases h
  · exact hs
  · exact exec_inv i (taken rest) he
  · exact (taken rest).setStatus p _
  · exact (taken rest).writeReg p i v
  · exact hs.hostSide rest r
  · exact (taken rest).hostWrite b i v
  · exact (taken rest).copy n
  · exact inv_of_cleared rfl rfl rfl rfl

/-- Settles O47: the registers of reset are those a release of both engines leaves, and both buffers are empty. -/
theorem resetMeetsInvariant : Obligations.ResetMeetsInvariant := inv_of_cleared rfl rfl rfl rfl

/-- Settles O48: an operation keeps the invariant part by part, and a host action reaches no more of it than a staging
register or a word of RX in range. -/
theorem stepKeepsInvariant : Obligations.StepKeepsInvariant := fun _ _ hs h => step_inv hs h

end Sys2Proof.Machine
end

section
/-! PROOFS. What an operation leaves alone and what it cannot depend on: its frame, the other engine, the accumulators. -/

namespace Sys2Proof.Machine

open Sys2Proof

/-! ## Frames -/

/-- An operation on BP leaves PP, RX and the host's side as they are (R60). -/
theorem exec_onlyBuilder {i : Instr} (hp : i.port = .bp) {s t : State} (h : exec i s = .next t) : OnlyBuilder s t := by
  obtain ⟨b, m, e, rfl, -⟩ := bp_op hp h
  exact ⟨rfl, fun _ => rfl, rfl, rfl⟩

/-- An operation on PP leaves BP, both buffers and the host's side as they are (R60). -/
theorem exec_onlyParser {i : Instr} (hp : i.port = .pp) {s t : State} (h : exec i s = .next t) : OnlyParser s t := by
  obtain ⟨p, rfl, -⟩ := pp_op hp h
  exact ⟨rfl, ⟨fun _ => rfl, fun _ => rfl⟩, rfl, rfl⟩

/-- No operation writes a staging or operand register (R26, R28). -/
theorem exec_sameStaging {i : Instr} {s t : State} (h : exec i s = .next t) : SameStaging s t := by
  cases hp : i.port with
  | bp =>
    obtain ⟨b, m, e, rfl, hf, hz, hc, hfl, h0, h1, -⟩ := bp_op hp h
    exact ⟨⟨hf, hz, hc, hfl, h0, h1⟩, rfl, rfl, rfl, rfl, rfl, rfl⟩
  | pp =>
    obtain ⟨p, rfl, ⟨hf, hz, hm, hfl, h0, h1⟩, -⟩ := pp_op hp h
    exact ⟨⟨rfl, rfl, rfl, rfl, rfl, rfl⟩, hf, hz, hm, hfl, h0, h1⟩

/-- A change of RESULT and STATUS is none of a buffer. -/
theorem sameBuffers_setResult_setStatus (s : State) (p : Port) (v : Word) (c : Status) :
    SameBuffers s ((s.setResult p v).setStatus p c) :=
  ⟨State.txWord_congr (by simp) (by simp), State.rxWord_congr (by simp) (by simp)⟩

theorem sameBuffers_setStatus (s : State) (p : Port) (c : Status) : SameBuffers s (s.setStatus p c) :=
  ⟨State.txWord_setStatus s p c, State.rxWord_setStatus s p c⟩

/-- CONV leaves both buffers as they are (R132). -/
theorem conv_sameBuffers {p : Port} {s t : State} (h : exec (.conv p) s = .next t) : SameBuffers s t := by
  obtain rfl | ⟨r, rfl⟩ := conv_cases h
  · exact sameBuffers_setStatus s p _
  · exact sameBuffers_setResult_setStatus s p r _

/-- BRESULT leaves both buffers as they are (R161). -/
theorem bresult_sameBuffers {s t : State} (h : exec .bresult s = .next t) : SameBuffers s t := by
  obtain rfl | rfl := bresult_cases h
  · exact sameBuffers_setStatus s .bp _
  · exact sameBuffers_setResult_setStatus s .bp _ _

/-- RESULT and STATUS of a port are no part of either engine's cursor, lifecycle and configuration. -/
theorem engines_setResult_setStatus (s : State) (p : Port) (v : Word) (c : Status) :
    let t := (s.setResult p v).setStatus p c
    t.bp.cursor = s.bp.cursor ∧ t.pp.cursor = s.pp.cursor ∧ t.bp.ready = s.bp.ready ∧ t.pp.ready = s.pp.ready
      ∧ SameBuilderConfig s.bp t.bp ∧ SameParserConfig s.pp t.pp := by
  cases p <;>
    exact ⟨rfl, rfl, rfl, rfl, ⟨rfl, rfl, rfl, rfl, rfl, rfl, rfl, rfl, rfl⟩, rfl, rfl, rfl, rfl, rfl, rfl, rfl, rfl⟩

/-- Writing back what RESULT holds changes nothing. -/
@[simp] theorem State.setResult_resultOf (s : State) (p : Port) : s.setResult p (s.resultOf p) = s := by cases p <;> rfl

/-- CONV leaves the cursors, READY and the latched configuration of both engines as they are (R132). -/
theorem conv_keeps_engines {p : Port} {s t : State} (h : exec (.conv p) s = .next t) :
    t.bp.cursor = s.bp.cursor ∧ t.pp.cursor = s.pp.cursor ∧ t.bp.ready = s.bp.ready ∧ t.pp.ready = s.pp.ready
      ∧ SameBuilderConfig s.bp t.bp ∧ SameParserConfig s.pp t.pp := by
  obtain rfl | ⟨r, rfl⟩ := conv_cases h
  · simpa using engines_setResult_setStatus s p (s.resultOf p) .errConfig
  · exact engines_setResult_setStatus s p r .ok

/-- Settles O36, from what an operation on either port can write. -/
theorem operationFrames : Obligations.OperationFrames := by
  intro i s t h
  refine ⟨exec_sameStaging h, fun hp => exec_onlyBuilder hp h, fun hp => exec_onlyParser hp h, ?_, ?_⟩
  · rintro (⟨p, rfl⟩ | rfl)
    · exact conv_sameBuffers h
    · exact bresult_sameBuffers h
  · rintro ⟨p, rfl⟩
    exact conv_keeps_engines h

/-! ## Every operation answers -/

/-- An operation on a constructed Builder always answers (R274). -/
theorem whenReady_total (s : State) (a : Attempt) : ∃ t, whenReady s a = .next t := by
  unfold whenReady
  split
  · cases a <;> exact ⟨_, rfl⟩
  · exact ⟨_, rfl⟩

/-- Every operation answers a next state from every state (R274). -/
theorem exec_total (i : Instr) (s : State) : ∃ t, exec i s = .next t := by
  cases i with
  | conv p =>
    simp only [exec, execConv]
    split
    · exact ⟨_, rfl⟩
    · split <;> exact ⟨_, rfl⟩
  | bnew =>
    simp only [exec, execBnew]
    split
    · exact ⟨_, rfl⟩
    · split
      · exact ⟨_, rfl⟩
      · repeat (split; · exact ⟨_, rfl⟩)
        exact ⟨_, rfl⟩
  | bdel =>
    simp only [exec, execBdel]
    split <;> exact ⟨_, rfl⟩
  | pnew =>
    simp only [exec, execPnew]
    split
    · exact ⟨_, rfl⟩
    · split
      · exact ⟨_, rfl⟩
      · repeat (split; · exact ⟨_, rfl⟩)
        exact ⟨_, rfl⟩
  | pdel =>
    simp only [exec, execPdel]
    split <;> exact ⟨_, rfl⟩
  | pinput =>
    simp only [exec, execPinput]
    split
    · split <;> exact ⟨_, rfl⟩
    · exact ⟨_, rfl⟩
  | pscan =>
    simp only [exec, execPscan]
    split <;> exact ⟨_, rfl⟩
  | _ => exact whenReady_total s _

/-! ## The Builder does not look at the Parser -/

/-- A state with other registers in PP. -/
def State.withParser (s : State) (p : ParserRegs) : State := { s with pp := p }

@[simp] theorem State.withParser_bp (s : State) (p : ParserRegs) : (s.withParser p).bp = s.bp := rfl
@[simp] theorem State.withParser_pp (s : State) (p : ParserRegs) : (s.withParser p).pp = p := rfl

/-- An attempt that ended in a state with other registers in PP. -/
def Attempt.withParser (p : ParserRegs) : Attempt → Attempt
  | .done s => .done (s.withParser p)
  | .raised c s => .raised c (s.withParser p)

/-- EMIT does not look at PP (R151). -/
theorem emit_withParser (ws : List Word) (s : State) (p : ParserRegs) :
    emit ws (s.withParser p) = (emit ws s).withParser p := by
  by_cases hf : Fits ws s
  · have hf' : Fits ws (s.withParser p) := hf
    rw [emit_of_fits hf, emit_of_fits hf']; rfl
  · have hf' : ¬Fits ws (s.withParser p) := hf
    rw [emit_of_full hf, emit_of_full hf']; rfl

theorem andThen_withParser (a : Attempt) {f : State → Attempt} {p : ParserRegs}
    (hf : ∀ u, f (u.withParser p) = (f u).withParser p) :
    (a.withParser p).andThen f = (a.andThen f).withParser p := by
  cases a with
  | done u => exact hf u
  | raised c u => rfl

theorem emitBits_withParser (bs : List Bool) (s : State) (p : ParserRegs) :
    emitBits bs (s.withParser p) = (emitBits bs s).withParser p := by
  induction bs generalizing s with
  | nil => rfl
  | cons b bs ih => simp only [emitBits, State.withParser_bp, emit_withParser, andThen_withParser _ ih]

theorem emitHead_withParser (s : State) (p : ParserRegs) : emitHead (s.withParser p) = (emitHead s).withParser p :=
  emit_withParser _ (s.setCursor 0) p

theorem emitEnd_withParser (s : State) (p : ParserRegs) : emitEnd (s.withParser p) = (emitEnd s).withParser p :=
  emit_withParser _ s p

theorem emitSegment_withParser (a c q : Word) (g : Segment) (s : State) (p : ParserRegs) :
    emitSegment a c q g (s.withParser p) = (emitSegment a c q g s).withParser p := by
  cases g with
  | head => exact emitHead_withParser s p
  | field src w o inv => exact emitBits_withParser _ s p
  | gap => exact emit_withParser _ s p
  | endMark => exact emitEnd_withParser s p

theorem emitTemplate_withParser (a c q : Word) (gs : List Segment) (s : State) (p : ParserRegs) :
    emitTemplate a c q gs (s.withParser p) = (emitTemplate a c q gs s).withParser p := by
  induction gs generalizing s with
  | nil => rfl
  | cons g gs ih => simp only [emitTemplate, emitSegment_withParser, andThen_withParser _ ih]

/-- An outcome with its next state changed by `f`. -/
def mapNext (f : State → State) : Host.Outcome State Fault Refusal → Host.Outcome State Fault Refusal
  | .next t => .next (f t)
  | .fault r => .fault r
  | .refused r => .refused r

theorem whenReady_withParser {s : State} {p : ParserRegs} {a a' : Attempt} (h : a' = a.withParser p) :
    whenReady (s.withParser p) a' = mapNext (·.withParser p) (whenReady s a) := by
  subst h
  rw [whenReady, whenReady, apply_ite (mapNext (·.withParser p))]
  cases a <;> rfl

/-- An operation on BP does the same whatever PP holds (R68). -/
theorem exec_withParser {i : Instr} (hp : i.port = .bp) (s : State) (p : ParserRegs) :
    exec i (s.withParser p) = mapNext (·.withParser p) (exec i s) := by
  cases i <;> simp only [Instr.port, reduceCtorEq] at hp
  case conv =>
    subst hp
    simp only [exec, execConv, apply_ite (mapNext (·.withParser p))]
    rfl
  case bnew =>
    cases hd : familyTable s.bp.cfgFamily <;>
    · simp only [exec, execBnew, State.withParser_bp, hd, apply_ite (mapNext (·.withParser p))]
      rfl
  case bdel =>
    simp only [exec, execBdel, apply_ite (mapNext (·.withParser p))]
    rfl
  case mkhead => exact whenReady_withParser (emitHead_withParser s p)
  case mkl0 => exact whenReady_withParser (emit_withParser _ s p)
  case mkl1 => exact whenReady_withParser (emit_withParser _ s p)
  case mkend => exact whenReady_withParser (emitEnd_withParser s p)
  case mkgap =>
    refine whenReady_withParser ?_
    rw [apply_ite (Attempt.withParser p), ← emit_withParser]
    rfl
  case bframe =>
    refine whenReady_withParser ?_
    rw [apply_ite (Attempt.withParser p), ← emitTemplate_withParser]
    rfl
  case brepeat =>
    refine whenReady_withParser ?_
    rw [apply_ite (Attempt.withParser p), ← andThen_withParser _ fun u => emitEnd_withParser u p, ← emit_withParser]
    rfl
  case bresult => exact whenReady_withParser rfl

/-! ## The accumulators -/

/-- Parser registers with other accumulators (R31). -/
def ParserRegs.withAcc (p : ParserRegs) (x y z : Word) : ParserRegs := { p with accAddr := x, accCmd := y, accAux := z }

/-- A state with other accumulators (R31). -/
def State.withAcc (s : State) (x y z : Word) : State := s.withParser (s.pp.withAcc x y z)

/-- A data scan does not look at what the accumulators hold, and overwrites it (R199). -/
theorem scanData_withAcc (s : State) (x y z : Word) : scanData (s.withAcc x y z) = scanData s := by
  have walk : walkTemplate (s.withAcc x y z) = walkTemplate s := by
    funext gs k
    exact walk_congr (s := s) (t := s.withAcc x y z) (fun _ _ _ => rfl) rfl (fun _ => rfl) gs k
  unfold scanData
  rw [walk]
  rfl

/-- A repeat scan does not look at the accumulators and leaves them as they are (R197). -/
theorem scanRepeat_withAcc (s : State) (x y z : Word) :
    scanRepeat (s.withAcc x y z) = ((scanRepeat s).1, (scanRepeat s).2.withAcc x y z) := by
  unfold scanRepeat
  show (if symMatch s.pp (s.rxWord 0) s.pp.profile.repHi s.pp.profile.repLo then if s.pp.lastValid then _ else _ else _) = _
  split
  · split <;> rfl
  · rfl

/-- A scan does not look at what the accumulators hold (R31). -/
theorem scan_withAcc (s : State) (x y z : Word) :
    ∃ x' y' z', scan (s.withAcc x y z) = ((scan s).1, (scan s).2.withAcc x' y' z') := by
  have kind : (s.withAcc x y z).pp.kind = s.pp.kind := rfl
  have same : scanData (s.withAcc x y z) = ((scanData s).1,
      (scanData s).2.withAcc (scanData s).2.accAddr (scanData s).2.accCmd (scanData s).2.accAux) :=
    scanData_withAcc s x y z
  unfold scan
  rw [kind]
  cases s.pp.kind with
  | repeated => exact ⟨x, y, z, scanRepeat_withAcc s x y z⟩
  | data => exact ⟨_, _, _, same⟩
  | none => exact ⟨_, _, _, same⟩

/-- PSCAN answers the same for any accumulators, but for the accumulators (R31). -/
theorem pscan_withAcc (s : State) (x y z : Word) :
    ∃ x' y' z', exec .pscan (s.withAcc x y z) = mapNext (·.withAcc x' y' z') (exec .pscan s) := by
  obtain ⟨x', y', z', hscan⟩ := scan_withAcc s x y z
  by_cases hb : (s.pp.ready && s.pp.bound) = true
  · refine ⟨x', y', z', ?_⟩
    have hb' : ((s.withAcc x y z).pp.ready && (s.withAcc x y z).pp.bound) = true := hb
    rw [exec, exec, execPscan, execPscan, if_pos hb, if_pos hb', hscan]
    rfl
  · refine ⟨x, y, z, ?_⟩
    have hb' : ¬((s.withAcc x y z).pp.ready && (s.withAcc x y z).pp.bound) = true := hb
    rw [exec, exec, execPscan, execPscan, if_neg hb, if_neg hb']
    rfl

/-- An operation on PP other than PSCAN does the same whatever the accumulators hold, and keeps them. -/
theorem exec_pp_withAcc {i : Instr} (hp : i.port = .pp) (hi : i ≠ .pscan) (s : State) (x y z : Word) :
    exec i (s.withAcc x y z) = mapNext (·.withAcc x y z) (exec i s) := by
  cases i <;> simp only [Instr.port, reduceCtorEq] at hp
  case conv =>
    subst hp
    simp only [exec, execConv, apply_ite (mapNext (·.withAcc x y z))]
    rfl
  case pnew =>
    have same : familyTable (s.withAcc x y z).pp.cfgFamily = familyTable s.pp.cfgFamily := rfl
    cases hd : familyTable s.pp.cfgFamily <;>
    · simp only [exec, execPnew, same, hd, apply_ite (mapNext (·.withAcc x y z))]
      rfl
  case pdel =>
    simp only [exec, execPdel, apply_ite (mapNext (·.withAcc x y z))]
    rfl
  case pinput =>
    have same : kindOfLength (parserDescriptor (s.withAcc x y z)) (s.withAcc x y z).pp.arg0.toNat
        = kindOfLength (parserDescriptor s) s.pp.arg0.toNat := rfl
    cases hk : kindOfLength (parserDescriptor s) s.pp.arg0.toNat <;>
    · simp only [exec, execPinput, same, hk, apply_ite (mapNext (·.withAcc x y z))]
      rfl
  case pscan => exact absurd rfl hi

/-- For any accumulators an operation answers the same next state, but for the accumulators (R31). -/
theorem exec_withAcc (i : Instr) (s : State) (x y z : Word) :
    ∃ x' y' z', exec i (s.withAcc x y z) = mapNext (·.withAcc x' y' z') (exec i s) := by
  cases hp : i.port with
  | bp =>
    refine ⟨x, y, z, ?_⟩
    obtain ⟨t, h⟩ := exec_total i s
    have hpp : t.pp = s.pp := (exec_onlyBuilder hp h).1
    rw [State.withAcc, exec_withParser hp, h, mapNext, mapNext, State.withAcc, hpp]
  | pp =>
    by_cases hi : i = .pscan
    · subst hi; exact pscan_withAcc s x y z
    · exact ⟨x, y, z, exec_pp_withAcc hp hi s x y z⟩

/-- Settles O42: no operation looks at the accumulators; PSCAN on a data frame overwrites them and every other operation
keeps them. -/
theorem accumulatorsCarryNothing : Obligations.AccumulatorsCarryNothing := by
  intro i s x y z
  obtain ⟨t, h⟩ := exec_total i s
  obtain ⟨x', y', z', e⟩ := exec_withAcc i s x y z
  rw [h] at e
  exact ⟨t, x', y', z', h, e⟩

end Sys2Proof.Machine
end

section
/-! PROOFS. The register files as the lists of words the host reads, and the host's accesses in those terms. -/

namespace Sys2Proof.Machine

open Sys2Proof

/-! ## The register files (R22, R23) -/

/-- The words of the twelve profile registers, in the order of their indices (R22, R23, R29). -/
def Timing.words (t : Timing Word) : List Word :=
  [t.leadHi, t.leadLo, t.l0Hi, t.l0Lo, t.l1Hi, t.l1Lo, t.endHi, t.endLo, t.repHi, t.repLo, t.gapHi, t.gapLo]

/-- The register file of BP: the word the host reads at each index, index 0 first (R22). -/
def bpFile (b : BuilderRegs) : List Word :=
  [b.cfgFamily, b.cfgClkHz, b.cfgCapacity, b.cfgFlags, b.arg0, b.arg1, 0, b.status.code, b.result, b.cursor,
    bitWord b.ready, b.family, b.clkHz, b.capacity, b.flags.setWidth 32, b.repeatPeriodMs]
  ++ b.profile.words ++ [b.dataLen, b.repeatLen, b.caps, 0]

/-- The register file of PP: the word the host reads at each index, index 0 first (R23). -/
def ppFile (p : ParserRegs) : List Word :=
  [p.cfgFamily, p.cfgClkHz, p.cfgMarginUs, p.cfgFlags, p.arg0, p.arg1, 0, p.status.code, p.result, p.cursor,
    bitWord p.ready, p.family, p.clkHz, p.margin, p.flags.setWidth 32, p.pstate.code]
  ++ p.profile.words
  ++ [p.dataLen, p.repeatLen, p.caps, 0, p.resAddr, p.resCmd, p.resAux, bitWord p.resRepeat, bitWord p.bound, p.len,
    p.kind.code, bitWord p.lastValid, p.lastAddr, p.lastCmd, 0, 0, 0, 0, 0, 0]

/-- The register file of a port. -/
def regFile (p : Port) (s : State) : List Word :=
  match p with
  | .bp => bpFile s.bp
  | .pp => ppFile s.pp

/-- A host read looks the index up in the register file of BP (R21). -/
theorem readBp_eq (b : BuilderRegs) (i : Nat) : readBp b i = (bpFile b)[i]? := by
  obtain hi | hi := Nat.lt_or_ge i 32
  · interval_cases i <;> rfl
  · obtain ⟨n, rfl⟩ := Nat.exists_eq_add_of_le' hi
    rfl

/-- A host read looks the index up in the register file of PP (R21). -/
theorem readPp_eq (p : ParserRegs) (i : Nat) : readPp p i = (ppFile p)[i]? := by
  obtain hi | hi := Nat.lt_or_ge i 48
  · interval_cases i <;> rfl
  · obtain ⟨n, rfl⟩ := Nat.exists_eq_add_of_le' hi
    rfl

/-- A host read looks the index up in the port's register file (R21). -/
theorem readReg_eq (p : Port) (i : Nat) (s : State) : readReg p i s = (regFile p s)[i]? := by
  cases p with
  | bp => exact readBp_eq s.bp i
  | pp => exact readPp_eq s.pp i

/-- The indices of a port are those of its register file (R60). -/
theorem hasRegister_iff (p : Port) (i : Nat) (s : State) : hasRegister p i = true ↔ i < (regFile p s).length := by
  cases p <;> exact decide_eq_true_iff

/-- Every register there is can be read (R21). -/
theorem readReg_of_hasRegister {p : Port} {i : Nat} (h : hasRegister p i = true) (s : State) :
    ∃ v, readReg p i s = some v :=
  ⟨_, (readReg_eq p i s).trans (List.getElem?_eq_getElem ((hasRegister_iff p i s).mp h))⟩

/-- A host write to one of the six read-write registers of a port sets that word of its register file alone (R21). -/
theorem regFile_writeReg {p : Port} {i : Nat} (hi : i ≤ 5) (v : Word) (s : State) :
    regFile p (writeReg p i v s) = (regFile p s).set i v := by
  cases p <;> interval_cases i <;> rfl

/-- A host write to a port leaves the other port's register file alone (R20, R21). -/
theorem regFile_writeReg_other {p p' : Port} (hp : p' ≠ p) (i : Nat) (v : Word) (s : State) :
    regFile p' (writeReg p i v s) = regFile p' s := by
  cases p with
  | bp =>
    cases p' with
    | bp => exact absurd rfl hp
    | pp => rfl
  | pp =>
    cases p' with
    | bp => rfl
    | pp => exact absurd rfl hp

/-- A host write to any other register is ignored (R21). -/
theorem writeReg_readOnly (p : Port) {i : Nat} (hi : 6 ≤ i) (v : Word) (s : State) : writeReg p i v s = s := by
  obtain ⟨n, rfl⟩ := Nat.exists_eq_add_of_le' hi
  cases p <;> rfl

/-! ## The host's accesses as steps -/

/-- A step performs the host's next action (R301). -/
@[simp] theorem step_withNextAction (a : HostAction) (s : State) : step (withNextAction a s) = perform a s := rfl

/-- A host write to a register that is not COMMAND stores it (R21). -/
theorem perform_wr {p : Port} {i : Nat} (hc : i ≠ commandIndex) (hi : hasRegister p i = true) (v : Word) (s : State) :
    perform (.wr p i v) s = .next (writeReg p i v s) := by
  rw [perform, if_neg hc, if_pos hi]

/-- A host write of a word to COMMAND runs the operation it names (R96). -/
theorem perform_command {p : Port} {w : Word} {i : Instr} (h : decode p w = .ok i) (s : State) :
    perform (.wr p commandIndex w) s = exec i s := by
  rw [perform, if_pos rfl, issue, h]

/-- A host read returns the register and changes nothing of the block (R21). -/
theorem perform_rd {p : Port} {i : Nat} {s : State} {v : Word} (h : readReg p i s = some v) :
    perform (.rd p i) s = .next { s with lastRead := some v } := by
  rw [perform, h]

theorem hasRegister_of_le {p : Port} {i : Nat} (hi : i ≤ 5) : hasRegister p i = true := by
  cases p <;> exact decide_eq_true (by omega)

/-- A host write to a read-write register stores the word, and changes no other register and no buffer (R21). -/
theorem write_readWrite {p : Port} {i : Nat} (hi : i ≤ 5) (v : Word) (s : State) :
    step (withNextAction (.wr p i v) s) = .next (writeReg p i v s) ∧ readReg p i (writeReg p i v s) = some v
      ∧ ∀ p' j, (p' ≠ p ∨ j ≠ i) → readReg p' j (writeReg p i v s) = readReg p' j s := by
  refine ⟨perform_wr (by unfold commandIndex; omega) (hasRegister_of_le hi) v s, ?_, ?_⟩
  · have hlt := (hasRegister_iff p i s).mp (hasRegister_of_le hi)
    rw [readReg_eq, regFile_writeReg hi, List.getElem?_set_self hlt]
  · intro p' j hne
    rw [readReg_eq, readReg_eq]
    by_cases hp : p' = p
    · subst hp
      have hj : j ≠ i := hne.resolve_left (not_not_intro rfl)
      rw [regFile_writeReg hi, List.getElem?_set_ne hj.symm]
    · rw [regFile_writeReg_other hp]

/-- Settles O43, on the register files as lists of words. -/
theorem registerAccess : Obligations.RegisterAccess := by
  refine ⟨fun p i v s hi => ?_, fun p w i s h => perform_command h s, fun p i v s hi hr => ?_, fun p i s hr => ?_,
    fun s => ⟨rfl, rfl, rfl, rfl, fun i h1 h2 => ?_⟩⟩
  · obtain ⟨hstep, hsame, hother⟩ := write_readWrite hi v s
    refine ⟨_, hstep, hsame, hother, ?_, ?_, ?_⟩
    · cases p <;> exact ⟨fun _ => rfl, fun _ => rfl⟩
    · cases p <;> rfl
    · cases p <;> rfl
  · rw [step_withNextAction, perform_wr (by unfold commandIndex; omega) hr, writeReg_readOnly p (by omega)]
  · obtain ⟨v, hv⟩ := readReg_of_hasRegister hr s
    exact ⟨v, hv, perform_rd hv⟩
  · interval_cases i <;> rfl

/-! ## The register maps -/

/-- An index and a word from an initial part of a register file name what the host reads at that index. -/
theorem readReg_of_mem_map {p : Port} {s : State} {n : Nat} {e : Nat × Word}
    (h : e ∈ ((regFile p s).zipIdx.take n).map Prod.swap) : readReg p e.1 s = some e.2 := by
  obtain ⟨x, hx, rfl⟩ := List.mem_map.mp h
  rw [readReg_eq]
  exact List.mem_zipIdx_iff_getElem?.mp (List.mem_of_mem_take hx)

/-- Settles O49: the maps are the register files with their indices, and each write is its arm. -/
theorem registerMapsNameTheRegisters : Obligations.RegisterMapsNameTheRegisters := by
  intro s
  refine ⟨fun e he => readReg_of_mem_map (n := 32) he, fun e he => readReg_of_mem_map (n := 42) he, fun v => ?_,
    fun v => ?_, rfl, rfl, rfl⟩
  · simp only [List.forall_mem_cons]
    exact ⟨rfl, rfl, rfl, rfl, rfl, rfl, List.forall_mem_nil _⟩
  · simp only [List.forall_mem_cons]
    exact ⟨rfl, rfl, rfl, rfl, rfl, rfl, List.forall_mem_nil _⟩

/-! ## Reset and release -/

/-- After reset every word of both register files is 0 (R34). -/
theorem regFile_reset (p : Port) : regFile p State.reset = List.replicate (regFile p State.reset).length 0 := by
  cases p <;> rfl

/-- After reset every register reads 0 (R34). -/
theorem readReg_reset {p : Port} {i : Nat} (h : hasRegister p i = true) : readReg p i State.reset = some 0 := by
  have hlt := (hasRegister_iff p i State.reset).mp h
  rw [readReg_eq, regFile_reset, List.getElem?_replicate, if_pos hlt]

/-- Two register files that agree on COMMAND and beyond STATUS read the same there. -/
theorem readReg_of_drop_eq {p : Port} {s t : State} (h6 : readReg p 6 t = readReg p 6 s)
    (h8 : (regFile p t).drop 8 = (regFile p s).drop 8) {i : Nat} (hi : 6 ≤ i) (h7 : i ≠ 7) :
    readReg p i t = readReg p i s := by
  obtain rfl | hi : i = 6 ∨ 8 ≤ i := by omega
  · exact h6
  · obtain ⟨n, rfl⟩ := Nat.exists_eq_add_of_le hi
    rw [readReg_eq, readReg_eq, ← List.getElem?_drop, ← List.getElem?_drop, h8]

/-- BDEL on a constructed Builder leaves the registers of reset but for staging, operand and STATUS (R34, R35). -/
theorem bdel_reads_reset {s t : State} (hr : s.bp.ready = true) (h : exec .bdel s = .next t) {i : Nat} (hi : 6 ≤ i)
    (h7 : i ≠ 7) : readReg .bp i t = readReg .bp i State.reset := by
  obtain ⟨hr', -⟩ | ⟨-, rfl⟩ := bdel_cases h
  · exact (Bool.false_ne_true (hr'.symm.trans hr)).elim
  · refine readReg_of_drop_eq ?_ ?_ hi h7 <;> rfl

/-- PDEL on a constructed Parser leaves the registers of reset but for staging, operand and STATUS (R34, R35). -/
theorem pdel_reads_reset {s t : State} (hr : s.pp.ready = true) (h : exec .pdel s = .next t) {i : Nat} (hi : 6 ≤ i)
    (h7 : i ≠ 7) : readReg .pp i t = readReg .pp i State.reset := by
  obtain ⟨hr', -⟩ | ⟨-, rfl⟩ := pdel_cases h
  · exact (Bool.false_ne_true (hr'.symm.trans hr)).elim
  · refine readReg_of_drop_eq ?_ ?_ hi h7 <;> rfl

/-- Settles O46: the register files of reset are 0 throughout, and a release leaves them but for the first eight words. -/
theorem resetReadsZero : Obligations.ResetReadsZero :=
  ⟨fun _ _ h => readReg_reset h, rfl, rfl, rfl, rfl, rfl, fun _ => rfl, fun _ => rfl,
    fun _ _ _ hr h hi h7 => bdel_reads_reset hr h hi h7, fun _ _ _ hr h hi h7 => pdel_reads_reset hr h hi h7⟩

end Sys2Proof.Machine
end

section
/-! PROOFS. The decoder inverts the encoder; the host's accesses to the pulse buffers, and what a step does to what the
buffers hold. -/

namespace Sys2Proof.Machine

open Sys2Proof

/-! ## Command words (R95, R97) -/

/-- Each row of the opcode map holds the port and the opcode of its operation (R97). -/
theorem opcodeMap_row : ∀ r ∈ opcodeMap, r.instr.port = r.port ∧ r.opcode.setWidth 32 = encode r.instr := by decide

/-- A word with no reserved bit set is its opcode (R95). -/
theorem opcode_setWidth {w : Word} (h : w.extractLsb' 8 24 = 0) : (w.setWidth 8).setWidth 32 = w := by
  have hi : w.toNat / 2 ^ 8 % 2 ^ 24 = 0 := by simpa [Nat.shiftRight_eq_div_pow] using congrArg BitVec.toNat h
  apply BitVec.eq_of_toNat_eq
  simp only [BitVec.toNat_setWidth]
  omega

/-- A word that decodes is the command word of its operation, on that operation's port (R95, R97). -/
theorem port_encode_of_decode {p : Port} {w : Word} {i : Instr} (h : decode p w = .ok i) : i.port = p ∧ w = encode i := by
  unfold decode at h
  split at h
  · cases h
  · next hres =>
    split at h
    · next r hr =>
      cases h
      obtain ⟨hport, hop⟩ := opcodeMap_row r (List.mem_of_find?_eq_some hr)
      have hfound := List.find?_some hr
      rw [Bool.and_eq_true, beq_iff_eq, beq_iff_eq] at hfound
      exact ⟨hport.trans hfound.2, by rw [← hop, hfound.1, opcode_setWidth (not_not.mp hres)]⟩
    · split at h <;> cases h

/-- An operation's command word decodes to it on its port (R97). -/
theorem decode_encode (i : Instr) : decode i.port (encode i) = .ok i := by
  cases i with
  | conv p => cases p <;> decide
  | _ => decide

/-- The decoder inverts the encoder (R95, R97). -/
theorem decode_eq_ok_iff {p : Port} {w : Word} {i : Instr} : decode p w = .ok i ↔ i.port = p ∧ w = encode i := by
  refine ⟨port_encode_of_decode, ?_⟩
  rintro ⟨rfl, rfl⟩
  exact decode_encode i

/-! ## The host's buffer accesses (R63, R67) -/

/-- A host read of TX returns the word below TX_CAP, and 0 from there on (R63). -/
theorem hostReadBuffer_tx (i : Nat) (s : State) :
    hostReadBuffer .tx i s = if i < Config.txCap then s.txWord i else 0 := by
  simp only [hostReadBuffer, fitsTx_iff, Nat.succ_le_iff]

/-- A host read of RX returns the word below RX_CAP, and 0 from there on (R63). -/
theorem hostReadBuffer_rx (i : Nat) (s : State) :
    hostReadBuffer .rx i s = if i < Config.rxCap then s.rxWord i else 0 := by
  simp only [hostReadBuffer, fitsRx_iff, Nat.succ_le_iff]

/-- A host write to RX stores the word below RX_CAP, and is ignored from there on (R63, R67). -/
theorem hostWriteBuffer_rx (i : Nat) (v : Word) (s : State) :
    hostWriteBuffer .rx i v s = if i < Config.rxCap then { s with rx := s.rx.write i v } else s := by
  simp only [hostWriteBuffer, fitsRx_iff, Nat.succ_le_iff]

/-- A word of RX after one was stored (R63). -/
theorem rxWord_write (s : State) (i j : Nat) (v : Word) :
    ({ s with rx := s.rx.write i v } : State).rxWord j = if j = i then v else s.rxWord j := by
  simp only [State.rxWord, Memory.read_write]
  split <;> rfl

/-- Settles O44, from what a host access to either buffer does on each side of the buffer's size. -/
theorem bufferAccess : Obligations.BufferAccess := by
  intro s i v
  refine ⟨rfl, fun hi => ?_, fun hi => ?_, ?_, ?_⟩
  · rw [step_withNextAction, perform, hostWriteBuffer_rx, if_neg (Nat.not_lt.mpr hi)]
  · rw [step_withNextAction, perform, hostWriteBuffer_rx, if_pos hi]
    refine ⟨_, rfl, ?_, fun j hj => ?_, fun _ => rfl, rfl, rfl, rfl, rfl⟩
    · rw [rxWord_write, if_pos rfl]
    · rw [rxWord_write, if_neg hj]
  · rw [step_withNextAction, perform, hostReadBuffer_tx]
  · rw [step_withNextAction, perform, hostReadBuffer_rx]

/-! ## What a step may do to a buffer's contents (R66, R67, R71) -/

/-- A buffer's contents `m` and epoch `e` become `m'` and `e'`: where `forgets`, no word has a value afterwards and the
epoch is a new one; elsewhere the epoch stays and no word loses its value, and where `untouched` no word changes. -/
def BufferRule (forgets untouched : Prop) (e e' : Nat) (m m' : Memory) : Prop :=
  (forgets → e' = e + 1 ∧ ∀ i, m'.read i = none)
  ∧ (¬forgets → e' = e ∧ (∀ i, m.read i ≠ none → m'.read i ≠ none) ∧ (untouched → ∀ i, m'.read i = m.read i))

section
variable {forgets untouched : Prop} {e e' : Nat} {m m' : Memory}

theorem BufferRule.forgotten (hf : forgets) : BufferRule forgets untouched e (e + 1) m [] :=
  ⟨fun _ => ⟨rfl, fun _ => rfl⟩, fun hn => absurd hf hn⟩

theorem BufferRule.same (hf : ¬forgets) (he : e' = e) (hm : m' = m) : BufferRule forgets untouched e e' m m' := by
  subst he hm
  exact ⟨fun h => absurd h hf, fun _ => ⟨rfl, fun _ h => h, fun _ _ => rfl⟩⟩

theorem BufferRule.changed (hf : ¬forgets) (hu : ¬untouched) (he : e' = e) (hm : ∀ i, m.read i ≠ none → m'.read i ≠ none) :
    BufferRule forgets untouched e e' m m' :=
  ⟨fun h => absurd h hf, fun _ => ⟨he, hm, fun h => absurd h hu⟩⟩

theorem BufferRule.congr {forgets' : Prop} (h : BufferRule forgets untouched e e' m m') (hf : forgets' ↔ forgets) :
    BufferRule forgets' untouched e e' m m' := by
  rwa [propext hf]

end

/-! ## TX (R32, R35, R66) -/

/-- The operation constructs or releases the Builder. -/
def IsLifecycle (i : Instr) : Prop := i = .bnew ∨ i = .bdel

/-- The operation failed and left TX as it is, or it succeeded and forgot TX (R35, R263). -/
def FailsOrForgets (s t : State) : Prop :=
  (t.bp.status ≠ .ok ∧ t.txEpoch = s.txEpoch ∧ t.tx = s.tx)
  ∨ (t.bp.status = .ok ∧ t.txEpoch = s.txEpoch + 1 ∧ t.tx = [])

/-- BNEW fails and leaves TX as it is, or succeeds and forgets TX (R35, R150). -/
theorem bnew_tx {s t : State} (h : exec .bnew s = .next t) : FailsOrForgets s t := by
  have fails {c : Status} (hc : c ≠ .ok) : (s.setStatus .bp c).bp.status ≠ .ok
      ∧ (s.setStatus .bp c).txEpoch = s.txEpoch ∧ (s.setStatus .bp c).tx = s.tx := ⟨hc, rfl, rfl⟩
  simp only [exec, execBnew] at h
  split at h
  · cases h; exact .inl (fails (by decide))
  · split at h
    · cases h; exact .inl (fails (by decide))
    · repeat (split at h; · cases h; exact .inl (fails (by decide)))
      cases h; exact .inr ⟨rfl, rfl, rfl⟩

/-- BDEL fails and leaves TX as it is, or succeeds and forgets TX (R35, R162). -/
theorem bdel_tx {s t : State} (h : exec .bdel s = .next t) : FailsOrForgets s t := by
  obtain ⟨-, rfl⟩ | ⟨-, rfl⟩ := bdel_cases h
  · exact .inl ⟨by simp, rfl, rfl⟩
  · exact .inr ⟨rfl, rfl, rfl⟩

/-- A make step or a frame operation takes no word of TX its value (R151). -/
theorem emitting_tx {i : Instr}
    (hi : i = .mkhead ∨ i = .mkl0 ∨ i = .mkl1 ∨ i = .mkend ∨ i = .mkgap ∨ i = .bframe ∨ i = .brepeat) {s t : State}
    (h : exec i s = .next t) {untouched : Prop} (hu : ¬untouched) :
    BufferRule (IsLifecycle i ∧ t.bp.status = .ok) untouched s.txEpoch t.txEpoch s.tx t.tx := by
  have hl : ¬IsLifecycle i := by rcases hi with rfl | rfl | rfl | rfl | rfl | rfl | rfl <;> simp [IsLifecycle]
  obtain ⟨m, c, st, ht⟩ := emitting_only hi h
  exact .changed (fun hf => hl hf.1) hu (by rw [ht]) (emitting_grows hi h)

/-- What an operation on BP does to TX: BNEW and BDEL forget it when they succeed, and no other takes a word its value. -/
theorem exec_bp_tx {i : Instr} (hp : i.port = .bp) {s t : State} (h : exec i s = .next t) {untouched : Prop}
    (hu : ¬untouched) :
    BufferRule (IsLifecycle i ∧ t.bp.status = .ok) untouched s.txEpoch t.txEpoch s.tx t.tx := by
  have lifecycle (hi : IsLifecycle i) (hc : FailsOrForgets s t) :
      BufferRule (IsLifecycle i ∧ t.bp.status = .ok) untouched s.txEpoch t.txEpoch s.tx t.tx := by
    obtain ⟨hst, he, hm⟩ | ⟨hst, he, hm⟩ := hc
    · exact .same (fun hf => hst hf.2) he hm
    · rw [he, hm]; exact .forgotten ⟨hi, hst⟩
  cases i with
  | bnew => exact lifecycle (.inl rfl) (bnew_tx h)
  | bdel => exact lifecycle (.inr rfl) (bdel_tx h)
  | conv p =>
    obtain rfl | ⟨r, rfl⟩ := conv_cases h <;> exact .same (by simp [IsLifecycle]) (by simp) (by simp)
  | bresult =>
    obtain rfl | rfl := bresult_cases h <;> exact .same (by simp [IsLifecycle]) rfl rfl
  | mkhead | mkl0 | mkl1 | mkend | mkgap | bframe | brepeat => exact emitting_tx (by simp) h hu
  | pnew | pdel | pinput | pscan => cases hp

/-- The command words of BNEW and BDEL (R97). -/
theorem encode_isLifecycle_iff (i : Instr) : encode i = 0x10 ∨ encode i = 0x11 ↔ IsLifecycle i := by
  cases i <;> simp [IsLifecycle, encode]

/-- The step took a BNEW or BDEL that succeeded. -/
def TookLifecycle (s t : State) : Prop :=
  ((∃ rest, s.host = .wr .bp 0x06 0x10 :: rest) ∨ ∃ rest, s.host = .wr .bp 0x06 0x11 :: rest) ∧ t.bp.status = .ok

/-- The step's action is a reset. -/
def TakesReset (s : State) : Prop := ∃ rest, s.host = .reset :: rest

/-- A command word on BP forgets TX when it is that of BNEW or BDEL and they succeed (R35, R97). -/
theorem forgets_of_command {s t : State} {i : Instr} {rest : List HostAction}
    (hh : s.host = .wr .bp commandIndex (encode i) :: rest) :
    TookLifecycle s t ∨ TakesReset s ↔ IsLifecycle i ∧ t.bp.status = .ok := by
  rw [← encode_isLifecycle_iff i]
  simp [TookLifecycle, TakesReset, hh, commandIndex]

/-- What a step does to TX: a BNEW or BDEL that succeeds and a reset forget it, and but for a command word on BP no other
changes a word (R35, R66, R71). -/
theorem step_tx {s t : State} (h : step s = .next t) :
    BufferRule (TookLifecycle s t ∨ TakesReset s) (∀ w rest, s.host ≠ .wr .bp 0x06 w :: rest)
      s.txEpoch t.txEpoch s.tx t.tx := by
  obtain ⟨hh, rfl⟩ | ⟨p, w, rest, hh, ⟨i, hd, he⟩ | rfl⟩ | ⟨p, i, v, rest, hh, hi, rfl⟩ | ⟨rest, r, hh, rfl⟩
    | ⟨b, i, v, rest, hh, rfl⟩ | ⟨n, rest, hh, rfl⟩ | ⟨rest, hh, rfl⟩ := step_cases h
  · exact .same (by simp [TookLifecycle, TakesReset, hh]) rfl rfl
  · obtain ⟨hp, rfl⟩ := port_encode_of_decode hd
    cases p with
    | bp => exact (exec_bp_tx hp he fun hu => hu _ _ hh).congr (forgets_of_command hh)
    | pp =>
      obtain ⟨q, rfl, -⟩ := pp_op hp he
      exact .same (by simp [TookLifecycle, TakesReset, hh]) rfl rfl
  · exact .same (by cases p <;> simp [TookLifecycle, TakesReset, hh]) (by simp) (by simp)
  · have hi : i ≠ 0x06 := hi
    exact .same (by simp [TookLifecycle, TakesReset, hh, hi]) (by cases p <;> rfl) (writeReg_rest p i v _).1
  · exact .same (by rcases hh with ⟨p, i, hh⟩ | ⟨b, i, hh⟩ <;> simp [TookLifecycle, TakesReset, hh]) rfl rfl
  · obtain ⟨m, hm, -⟩ := hostWrite_form b i v { s with host := rest }
    rw [hm]
    exact .same (by simp [TookLifecycle, TakesReset, hh]) rfl rfl
  · obtain ⟨m, hm⟩ := copy_form' n { s with host := rest }
    rw [hm]
    exact .same (by simp [TookLifecycle, TakesReset, hh]) rfl rfl
  · exact .forgotten (.inr ⟨rest, hh⟩)

/-! ## RX (R34, R67) -/

/-- No operation changes RX or its epoch (R60, R67). -/
theorem exec_rx {i : Instr} {s t : State} (h : exec i s = .next t) : t.rxEpoch = s.rxEpoch ∧ t.rx = s.rx := by
  cases hp : i.port with
  | bp =>
    obtain ⟨b, m, e, rfl, -⟩ := bp_op hp h
    exact ⟨rfl, rfl⟩
  | pp =>
    obtain ⟨q, rfl, -⟩ := pp_op hp h
    exact ⟨rfl, rfl⟩

/-- A host write to RX takes no word its value (R67). -/
theorem hostWriteBuffer_rx_grows (i : Nat) (v : Word) (s : State) :
    (hostWriteBuffer .rx i v s).rxEpoch = s.rxEpoch
      ∧ ∀ j, s.rx.read j ≠ none → (hostWriteBuffer .rx i v s).rx.read j ≠ none := by
  rw [hostWriteBuffer_rx]
  split
  · refine ⟨rfl, fun j hj => ?_⟩
    rw [Memory.read_write]
    split
    · exact Option.some_ne_none _
    · exact hj
  · exact ⟨rfl, fun _ hj => hj⟩

/-- What a step does to RX: a reset forgets it, and but for a host write to RX and a copy no other changes a word (R34,
R67, R71). -/
theorem step_rx {s t : State} (h : step s = .next t) :
    BufferRule (TakesReset s) ((∀ i v rest, s.host ≠ .wrb .rx i v :: rest) ∧ ∀ n rest, s.host ≠ .cp n :: rest)
      s.rxEpoch t.rxEpoch s.rx t.rx := by
  obtain ⟨hh, rfl⟩ | ⟨p, w, rest, hh, ⟨i, -, he⟩ | rfl⟩ | ⟨p, i, v, rest, hh, -, rfl⟩ | ⟨rest, r, hh, rfl⟩
    | ⟨b, i, v, rest, hh, rfl⟩ | ⟨n, rest, hh, rfl⟩ | ⟨rest, hh, rfl⟩ := step_cases h
  · exact .same (by simp [TakesReset, hh]) rfl rfl
  · exact .same (by simp [TakesReset, hh]) (exec_rx he).1 (exec_rx he).2
  · exact .same (by simp [TakesReset, hh]) (by simp) (by simp)
  · exact .same (by simp [TakesReset, hh]) (by cases p <;> rfl) (writeReg_rest p i v _).2
  · exact .same (by rcases hh with ⟨p, i, hh⟩ | ⟨b, i, hh⟩ <;> simp [TakesReset, hh]) rfl rfl
  · have hr : ¬TakesReset s := by simp [TakesReset, hh]
    cases b with
    | tx => exact .same hr rfl rfl
    | rx =>
      obtain ⟨hepoch, hgrows⟩ := hostWriteBuffer_rx_grows i v { s with host := rest }
      exact .changed hr (fun hu => hu.1 _ _ _ hh) hepoch hgrows
  · obtain ⟨hepoch, hgrows⟩ := copy_grows n { s with host := rest }
    exact .changed (by simp [TakesReset, hh]) (fun hu => hu.2 _ _ hh) hepoch hgrows
  · exact .forgotten ⟨rest, hh⟩

/-- Settles O40, buffer by buffer, from what each action of the host does to it. -/
theorem forgettingIsFreshAndRare : Obligations.ForgettingIsFreshAndRare := by
  intro s t h
  obtain ⟨txForgotten, txKept⟩ := step_tx h
  obtain ⟨rxForgotten, rxKept⟩ := step_rx h
  refine ⟨txForgotten, txKept, rxForgotten, fun hr => ?_⟩
  obtain ⟨hepoch, hgrows, hsame⟩ := rxKept hr
  exact ⟨hepoch, hgrows, fun hw hc => hsame ⟨hw, hc⟩⟩

end Sys2Proof.Machine
end

section
/-! PROOFS. The engines are independent: an operation on PP does not look at BP and TX, nor one on BP at PP. -/

namespace Sys2Proof.Machine

open Sys2Proof

/-! ## The Parser does not look at the Builder (R20, R68) -/

/-- A state with other registers in BP and another TX. -/
def State.withBuilder (s : State) (b : BuilderRegs) (m : Memory) (e : Nat) : State :=
  { s with bp := b, tx := m, txEpoch := e }

/-- A scan does not look at BP and TX (R197, R199). -/
theorem scan_withBuilder (s : State) (b : BuilderRegs) (m : Memory) (e : Nat) : scan (s.withBuilder b m e) = scan s := by
  have walk : walkTemplate (s.withBuilder b m e) = walkTemplate s := by
    funext gs k
    exact walk_congr (s := s) (t := s.withBuilder b m e) (fun _ _ _ => rfl) rfl (fun _ => rfl) gs k
  have data : scanData (s.withBuilder b m e) = scanData s := by
    unfold scanData
    rw [walk]
    rfl
  unfold scan
  rw [data]
  rfl

/-- An operation on PP does the same whatever BP and TX hold (R68). -/
theorem exec_withBuilder {j : Instr} (hp : j.port = .pp) (s : State) (b : BuilderRegs) (m : Memory) (e : Nat) :
    exec j (s.withBuilder b m e) = mapNext (·.withBuilder b m e) (exec j s) := by
  cases j with
  | conv p =>
    cases hp
    simp only [exec, execConv, apply_ite (mapNext (·.withBuilder b m e))]
    rfl
  | pnew =>
    have same : familyTable (s.withBuilder b m e).pp.cfgFamily = familyTable s.pp.cfgFamily := rfl
    cases hd : familyTable s.pp.cfgFamily <;>
    · simp only [exec, execPnew, same, hd, apply_ite (mapNext (·.withBuilder b m e))]
      rfl
  | pdel =>
    simp only [exec, execPdel, apply_ite (mapNext (·.withBuilder b m e))]
    rfl
  | pinput =>
    have same : kindOfLength (parserDescriptor (s.withBuilder b m e)) (s.withBuilder b m e).pp.arg0.toNat
        = kindOfLength (parserDescriptor s) s.pp.arg0.toNat := rfl
    cases hk : kindOfLength (parserDescriptor s) s.pp.arg0.toNat <;>
    · simp only [exec, execPinput, same, hk, apply_ite (mapNext (·.withBuilder b m e))]
      rfl
  | pscan =>
    simp only [exec, execPscan, scan_withBuilder, apply_ite (mapNext (·.withBuilder b m e))]
    rfl
  | bnew | bdel | mkhead | mkl0 | mkl1 | mkend | mkgap | bframe | brepeat | bresult => cases hp

/-- Two operations one after the other (R68). -/
theorem execAll_pair {i j : Instr} {s t u : State} (hi : exec i s = .next t) (hj : exec j t = .next u) :
    execAll [i, j] s = .next u := by
  simp only [execAll, hi, hj]

/-- Settles O37: neither operation looks at what the other writes, and they write apart. -/
theorem enginesAreIndependent : Obligations.EnginesAreIndependent := by
  intro i j s hi hj
  obtain ⟨t, ht⟩ := exec_total i s
  obtain ⟨u, hu⟩ := exec_total j s
  obtain ⟨b, m, e, rfl, -⟩ := bp_op hi ht
  obtain ⟨p, rfl, -⟩ := pp_op hj hu
  have afterBuilder : exec j (s.withBuilder b m e) = .next ((s.withBuilder b m e).withParser p) := by
    rw [exec_withBuilder hj, hu]; rfl
  have afterParser : exec i (s.withParser p) = .next ((s.withBuilder b m e).withParser p) := by
    rw [exec_withParser hi, ht]; rfl
  exact ⟨_, execAll_pair ht afterBuilder, execAll_pair hu afterParser⟩

end Sys2Proof.Machine
end

section
/-! PROOFS. Command words, legal and illegal; the host's copy of a frame; the layout of a pulse record and the bits of a
field in wire order. -/

namespace Sys2Proof.Machine

open Sys2Proof

/-! ## Command words (R95 to R98) -/

/-- Settles O2: the decoder inverts the encoder. -/
theorem decodeAgreesWithEncode : Obligations.DecodeAgreesWithEncode := by
  intro p w i
  rw [decode_eq_ok_iff, and_comm, eq_comm (a := p)]

/-- The opcodes of a port's rows in the opcode map, as numbers (R97). -/
def opcodesOf (p : Port) : List Nat := (opcodeMap.filter (·.port == p)).map (·.opcode.toNat)

/-- An operation's opcode stands in the map among those of its port (R97). -/
theorem encode_mem_opcodesOf (i : Instr) : (encode i).toNat ∈ opcodesOf i.port := by
  cases i with
  | conv p => cases p <;> decide
  | _ => decide

/-- The words that decode on a port are the numbers of its opcodes (R95, R97). -/
theorem exists_decode_iff (p : Port) (w : Word) : (∃ i, decode p w = .ok i) ↔ w.toNat ∈ opcodesOf p := by
  constructor
  · rintro ⟨i, h⟩
    obtain ⟨rfl, rfl⟩ := decode_eq_ok_iff.mp h
    exact encode_mem_opcodesOf i
  · intro h
    obtain ⟨r, hr, hw⟩ := List.mem_map.mp h
    obtain ⟨hrow, hp⟩ := List.mem_filter.mp hr
    obtain ⟨hport, hop⟩ := opcodeMap_row r hrow
    have word : w = encode r.instr :=
      BitVec.eq_of_toNat_eq (by rw [← hop, BitVec.toNat_setWidth_of_le (by decide), hw])
    exact ⟨r.instr, decode_eq_ok_iff.mpr ⟨hport.trans (beq_iff_eq.mp hp), word⟩⟩

/-- R98's list of the illegal command words of a port, the word as a number. -/
def IllegalWord (p : Port) (n : Nat) : Prop :=
  n / 256 ≠ 0
    ∨ n % 256 = 0x00 ∨ (0x02 ≤ n % 256 ∧ n % 256 ≤ 0x0F) ∨ n % 256 = 0x17 ∨ (0x1B ≤ n % 256 ∧ n % 256 ≤ 0x1F)
    ∨ 0x24 ≤ n % 256 ∨ (p = .pp ∧ n % 256 / 16 = 1) ∨ (p = .bp ∧ n % 256 / 16 = 2)

/-- R98's list is what R97's map leaves out. -/
theorem illegalWord_iff (p : Port) (n : Nat) : IllegalWord p n ↔ n ∉ opcodesOf p := by
  cases p with
  | bp =>
    have rows : opcodesOf .bp = [0x01, 0x10, 0x11, 0x12, 0x13, 0x14, 0x15, 0x16, 0x18, 0x19, 0x1A] := by decide
    simp only [IllegalWord, rows, List.mem_cons, List.not_mem_nil, reduceCtorEq, false_and, true_and, false_or, or_false]
    omega
  | pp =>
    have rows : opcodesOf .pp = [0x01, 0x20, 0x21, 0x22, 0x23] := by decide
    simp only [IllegalWord, rows, List.mem_cons, List.not_mem_nil, reduceCtorEq, false_and, true_and, or_false]
    omega

/-- A word is on R98's list exactly when it decodes to no operation. -/
theorem illegalWord_iff_undecoded (p : Port) (w : Word) : IllegalWord p w.toNat ↔ ∀ i, decode p w ≠ .ok i := by
  rw [illegalWord_iff, ← exists_decode_iff, not_exists]

/-- A host write to COMMAND of a word that decodes to no operation changes STATUS alone (R98). -/
theorem perform_illegal {p : Port} {w : Word} (h : ∀ i, decode p w ≠ .ok i) (s : State) :
    perform (.wr p commandIndex w) s = .next (s.setStatus p .errUnsupported) := by
  rw [perform, if_pos rfl, issue]
  cases hd : decode p w with
  | ok i => exact absurd hd (h i)
  | error e => rfl

/-- Settles O3, from R98's list being the complement of the opcode map. -/
theorem illegalWordsChangeOnlyStatus : Obligations.IllegalWordsChangeOnlyStatus := by
  intro p w op illegal
  have undecoded : illegal ↔ ∀ i, decode p w ≠ .ok i := illegalWord_iff_undecoded p w
  exact ⟨undecoded, fun hw s => perform_illegal (undecoded.mp hw) s, rfl⟩

/-- Settles O1: each word is the encoding of the operation named, and the three errors are the decoder's own. -/
theorem specWordsDecode : Obligations.SpecWordsDecode :=
  ⟨decode_encode (.conv .bp), decode_encode (.conv .pp), decode_encode .bnew, decode_encode .bframe,
    decode_encode .bresult, decode_encode .pnew, decode_encode .pscan, by decide, by decide, by decide⟩

/-- Settles O4: the step takes the write off the queue and performs it. -/
theorem stepRunsDecodedInstruction : Obligations.StepRunsDecodedInstruction := by
  intro p w i s rest hhost hdecode
  rw [step, hhost]
  exact perform_command hdecode _

/-! ## The host's copy of a frame (R103) -/

/-- A copy leaves TX alone (R103). -/
@[simp] theorem txWord_copy (n i : Nat) (s : State) : (copyTxToRx n s).txWord i = s.txWord i := by
  obtain ⟨m, hm⟩ := copy_form' n s
  rw [hm]
  rfl

/-- After a copy of `n` words that both buffers have, RX holds TX below `n` and is unchanged from there on (R103). -/
theorem rxWord_copy {n : Nat} (htx : n ≤ Config.txCap) (hrx : n ≤ Config.rxCap) (i : Nat) (s : State) :
    (copyTxToRx n s).rxWord i = if i < n then s.txWord i else s.rxWord i := by
  induction n with
  | zero => rfl
  | succ n ih =>
    rw [copyTxToRx, hostReadBuffer_tx, if_pos (Nat.lt_of_succ_le htx), hostWriteBuffer_rx, if_pos (Nat.lt_of_succ_le hrx), rxWord_write, txWord_copy,
      ih (Nat.le_of_succ_le htx) (Nat.le_of_succ_le hrx)]
    rcases Nat.lt_trichotomy i n with hlt | rfl | hgt
    · rw [if_neg hlt.ne, if_pos hlt, if_pos (by omega)]
    · rw [if_pos rfl, if_pos (by omega)]
    · rw [if_neg hgt.ne', if_neg hgt.asymm, if_neg (by omega)]

/-- Settles O45: the copy changes RX alone, and there word by word. -/
theorem copyMovesFrame : Obligations.CopyMovesFrame := by
  intro s n htx hrx
  obtain ⟨m, hm⟩ := copy_form' n s
  refine ⟨copyTxToRx n s, rfl, fun i hi => ?_, fun i hi => ?_, fun i => txWord_copy n i s, ?_⟩
  · rw [rxWord_copy htx hrx, if_pos hi]
  · rw [rxWord_copy htx hrx, if_neg (Nat.not_lt.mpr hi)]
  · rw [hm]
    exact ⟨rfl, rfl, rfl, rfl⟩

/-! ## The pulse record as a number (R90, R93) -/

/-- Two bit vectors side by side, as a number. -/
theorem toNat_append_eq_add {m n : Nat} (x : BitVec m) (y : BitVec n) :
    (x ++ y).toNat = x.toNat * 2 ^ n + y.toNat := by
  rw [BitVec.toNat_append, ← Nat.shiftLeft_add_eq_or_of_lt y.isLt, Nat.shiftLeft_eq]

/-- A record's word as a number (R90). -/
theorem recordWord_toNat (r : PulseRecord) : (recordWord r).toNat =
    r.level1.toNat * 2 ^ 31 + r.duration1.toNat * 2 ^ 16 + r.level0.toNat * 2 ^ 15 + r.duration0.toNat := by
  unfold recordWord
  simp only [toNat_append_eq_add, BitVec.toNat_ofBool]
  omega

/-- Settles O8: durations that fit their fields are carried whole. -/
theorem recordWordLayout : Obligations.RecordWordLayout := by
  intro hi lo inv hhi hlo
  rw [pulseRec, recordWord_toNat, toNat_setWidth15 hhi, toNat_setWidth15 hlo]
  cases inv <;> rfl

/-! ## The bits of a field (R99) -/

/-- A field of width `w` has `w` bits on the wire (R99). -/
@[simp] theorem fieldBits_length (v : Word) (w : Nat) (o : BitOrder) (inv : Bool) : (fieldBits v w o inv).length = w := by
  rw [fieldBits, List.length_map, List.length_range]

/-- The bit of a field at a wire position (R99). -/
theorem fieldBits_getElem? (v : Word) {w k : Nat} (o : BitOrder) (inv : Bool) (hk : k < w) :
    (fieldBits v w o inv)[k]? = some (v.getLsbD (bitIndex k w o) ^^ inv) := by
  rw [fieldBits, List.getElem?_map, List.getElem?_range hk, Option.map_some]

/-- Settles O10: the bit at position `k` is the one IDX selects, in either order. -/
theorem fieldBitOrder : Obligations.FieldBitOrder := by
  intro v w inv _ _
  exact ⟨fieldBits_length v w .lsb inv, fieldBits_length v w .msb inv,
    fun k hk => ⟨fieldBits_getElem? v .lsb inv hk, fieldBits_getElem? v .msb inv hk⟩⟩

end Sys2Proof.Machine
end

section
/-! PROOFS. The Tick Converter: the arithmetic of TICKS and what CONV answers (R130 to R132). -/

namespace Sys2Proof.Machine

open Sys2Proof

/-! ## The arithmetic of TICKS (R130, R131) -/

/-- TICKS stays below a bound exactly when the product stays below that many millions. -/
theorem ticks_lt_iff {us hz n : Nat} : ticks us hz < n ↔ us * hz < n * 1000000 :=
  Nat.div_lt_iff_lt_mul (by decide)

/-- TICKS is monotone in both arguments (R131). -/
theorem ticks_mono {us us' hz hz' : Nat} (hus : us ≤ us') (hhz : hz ≤ hz') : ticks us hz ≤ ticks us' hz' :=
  Nat.div_le_div_right (Nat.mul_le_mul hus hhz)

/-- No time is no ticks (R131). -/
@[simp] theorem ticks_zero_left (hz : Nat) : ticks 0 hz = 0 := by
  rw [ticks, Nat.zero_mul, Nat.zero_div]

/-- Without a clock there are no ticks (R131). -/
@[simp] theorem ticks_zero_right (us : Nat) : ticks us 0 = 0 := by
  rw [ticks, Nat.mul_zero, Nat.zero_div]

/-- At `k` megahertz a microsecond is `k` ticks (R131). -/
theorem ticks_megahertz (us k : Nat) : ticks us (k * 1000000) = k * us := by
  rw [ticks, ← Nat.mul_assoc, Nat.mul_div_cancel _ (by decide), Nat.mul_comm]

/-- On 32-bit operands the product is below 2^64, which is below 2^45 millions (R131). -/
theorem ticks_word_lt (us hz : Word) : ticks us.toNat hz.toNat < 2 ^ 45 := by
  have product : us.toNat * hz.toNat < 2 ^ 32 * 2 ^ 32 := Nat.mul_lt_mul'' us.isLt hz.isLt
  exact ticks_lt_iff.mpr (product.trans (by decide))

/-- Settles O5: the quotient times its divisor is at most the product, and one more is above it. -/
theorem ticksIsExactFloor : Obligations.TicksIsExactFloor :=
  fun us hz => ⟨Nat.div_mul_le_self (us * hz) 1000000, ticks_lt_iff.mp (Nat.lt_succ_self (ticks us hz))⟩

/-- Settles O6, law by law. -/
theorem ticksLaws : Obligations.TicksLaws :=
  ⟨fun _ _ _ _ => ticks_mono, fun us hz => ⟨ticks_zero_left hz, ticks_zero_right us⟩, ticks_megahertz, ticks_word_lt⟩

/-! ## CONV (R132) -/

/-- CONV with a zero frequency or a result beyond 32 bits changes STATUS alone (R132). -/
theorem conv_errConfig {p : Port} {s : State}
    (hbad : s.arg1 p = 0 ∨ 0xFFFFFFFF < ticks (s.arg0 p).toNat (s.arg1 p).toNat) :
    exec (.conv p) s = .next (s.setStatus p .errConfig) := by
  rw [exec, execConv]
  split
  · rfl
  · next hz => rw [if_pos (hbad.resolve_left hz), raise]

/-- CONV on operands that pass both tests writes the tick count to RESULT (R132). -/
theorem conv_ok {p : Port} {s : State} (hz : s.arg1 p ≠ 0)
    (hfit : ticks (s.arg0 p).toNat (s.arg1 p).toNat ≤ 0xFFFFFFFF) :
    exec (.conv p) s
      = .next ((s.setResult p (BitVec.ofNat 32 (ticks (s.arg0 p).toNat (s.arg1 p).toNat))).setStatus p .ok) := by
  rw [exec, execConv, if_neg hz, if_neg (Nat.not_lt.mpr hfit), finish]

/-- Settles O7: the two errors are one answer, and a tick count that fits RESULT is stored whole. -/
theorem convConverts : Obligations.ConvConverts := by
  refine fun p s => ⟨conv_errConfig, fun hz hfit => ⟨_, ?_, conv_ok hz hfit⟩⟩
  exact ofNat_toNat (Nat.lt_succ_of_le hfit)

end Sys2Proof.Machine
end

section
/-! PROOFS. The Builder: its construction and release, and what the make steps and the frame operations emit. -/

namespace Sys2Proof.Machine

open Sys2Proof

/-! ## What a BP operation answers on an idle and on a constructed Builder (R263, R267) -/

/-- On an unconstructed Builder an operation is a state error, whatever it would have done (R267). -/
theorem whenReady_idle {s : State} (hr : s.bp.ready = false) (a : Attempt) :
    whenReady s a = .next (s.setStatus .bp .errState) := by
  rw [whenReady, hr]; rfl

theorem whenReady_done {s u : State} (hr : s.bp.ready = true) :
    whenReady s (.done u) = .next (u.setStatus .bp .ok) := by
  rw [whenReady, if_pos hr]; rfl

theorem whenReady_raised {s u : State} {c : Status} (hr : s.bp.ready = true) :
    whenReady s (.raised c u) = .next (u.setStatus .bp c) := by
  rw [whenReady, if_pos hr]; rfl

/-- A constructed Builder is built for the descriptor its FAMILY names. -/
theorem State.Inv.built {s : State} {d : Descriptor} (hs : s.Inv) (hr : s.bp.ready = true)
    (hd : familyTable s.bp.family = some d) : BuilderBuilt s.bp d := by
  obtain ⟨d', hb⟩ := hs.builder.2 hr
  rwa [Option.some.inj (hd.symm.trans hb.family)]

/-- A constructed Builder has room for the shortest frame (R150, R234). -/
theorem State.Inv.five_le_capacity {s : State} (hs : s.Inv) (hr : s.bp.ready = true) : 5 ≤ s.bp.capacity.toNat := by
  obtain ⟨d, hb⟩ := hs.builder.2 hr
  exact (five_le_dataLen (familyTable_wf hb.family)).trans hb.frameFits

/-! ## Construction (R133, R134, R150) -/

/-- The tests BNEW puts a configuration of a known family to, in its order (R150). -/
theorem bnew_of_family {s : State} {d : Descriptor} (hr : s.bp.ready = false)
    (hd : familyTable s.bp.cfgFamily = some d) :
    exec .bnew s =
      if s.bp.cfgClkHz = 0 then .next (s.setStatus .bp .errConfig)
      else if s.bp.cfgCapacity = 0 then .next (s.setStatus .bp .errConfig)
      else if s.bp.cfgCapacity.toNat < dataLen d || !Config.fitsTx s.bp.cfgCapacity.toNat then
        .next (s.setStatus .bp .errConfig)
      else if 0x7FFF < maxDur d (resolve d s.bp.cfgClkHz.toNat) then .next (s.setStatus .bp .errConfig)
      else .next (({ forgetTx s with bp := constructBuilder d s.bp } : State).setStatus .bp .ok) := by
  simp only [exec, execBnew, hr, hd, Bool.false_eq_true, if_false, raise, finish]

/-- BNEW refuses a configuration that fails one of its tests (R150). -/
theorem bnew_errConfig {s : State} {d : Descriptor} (hr : s.bp.ready = false)
    (hd : familyTable s.bp.cfgFamily = some d)
    (hbad : s.bp.cfgClkHz.toNat = 0 ∨ s.bp.cfgCapacity.toNat = 0 ∨ s.bp.cfgCapacity.toNat < dataLen d
      ∨ Config.txCap < s.bp.cfgCapacity.toNat ∨ 0x7FFF < maxDur d (resolve d s.bp.cfgClkHz.toNat)) :
    exec .bnew s = .next (s.setStatus .bp .errConfig) := by
  rw [bnew_of_family hr hd]
  split
  · rfl
  · next hz =>
    split
    · rfl
    · next hc =>
      split
      · rfl
      · next hcap =>
        simp only [Bool.or_eq_true, decide_eq_true_eq, Bool.not_eq_true', not_or, Bool.not_eq_false,
          fitsTx_iff, Nat.not_lt] at hcap
        obtain hz' | hc' | hlow | hhigh | hdur := hbad
        · exact absurd (BitVec.eq_of_toNat_eq hz') hz
        · exact absurd (BitVec.eq_of_toNat_eq hc') hc
        · exact absurd hlow (Nat.not_lt.mpr hcap.1)
        · exact absurd hhigh (Nat.not_lt.mpr hcap.2)
        · rw [if_pos hdur]

/-- BNEW constructs from a configuration that passes every test (R150). -/
theorem bnew_ok {s : State} {d : Descriptor} (hr : s.bp.ready = false) (hd : familyTable s.bp.cfgFamily = some d)
    (hz : s.bp.cfgClkHz.toNat ≠ 0) (hlow : dataLen d ≤ s.bp.cfgCapacity.toNat)
    (hhigh : s.bp.cfgCapacity.toNat ≤ Config.txCap) (hdur : maxDur d (resolve d s.bp.cfgClkHz.toNat) ≤ 0x7FFF) :
    exec .bnew s = .next (({ forgetTx s with bp := constructBuilder d s.bp } : State).setStatus .bp .ok) := by
  have hc : s.bp.cfgCapacity.toNat ≠ 0 := by
    have := five_le_dataLen (familyTable_wf hd)
    omega
  have hcap : ¬(s.bp.cfgCapacity.toNat < dataLen d || !Config.fitsTx s.bp.cfgCapacity.toNat) = true := by
    simp only [(fitsTx_iff _).mpr hhigh, Nat.not_lt.mpr hlow, decide_false, Bool.not_true, Bool.or_self,
      Bool.false_eq_true, not_false_eq_true]
  rw [bnew_of_family hr hd, if_neg (fun h => hz (congrArg BitVec.toNat h)),
    if_neg (fun h => hc (congrArg BitVec.toNat h)), if_neg hcap, if_neg (Nat.not_lt.mpr hdur)]

/-- The profile registers hold the resolved durations exactly where MAXDUR fits a register (R29, R134). -/
theorem profileRegs_toNat {d : Descriptor} {hz : Nat} (h : maxDur d (resolve d hz) ≤ 0xFFFFFFFF) :
    let t := resolve d hz
    let p := profileRegs t
    p.leadHi.toNat = t.leadHi ∧ p.leadLo.toNat = t.leadLo ∧ p.l0Hi.toNat = t.l0Hi ∧ p.l0Lo.toNat = t.l0Lo
      ∧ p.l1Hi.toNat = t.l1Hi ∧ p.l1Lo.toNat = t.l1Lo ∧ p.endHi.toNat = t.endHi ∧ p.endLo = 0x7FFF
      ∧ p.repHi.toNat = t.repHi ∧ p.repLo.toNat = t.repLo ∧ p.gapHi.toNat = t.gapHi ∧ p.gapLo.toNat = t.gapLo := by
  have reg {n : Nat} (hn : n ≤ 0xFFFFFFFF) : (BitVec.ofNat 32 n).toNat = n := ofNat_toNat (Nat.lt_succ_of_le hn)
  obtain ⟨h1, h2, h3, h4, h5, h6, h7, h8, h9, h10, h11⟩ := maxDur_parts h
  exact ⟨reg h1, reg h2, reg h3, reg h4, reg h5, reg h6, reg h7, rfl, reg h8, reg h9,
    reg h10, reg h11⟩

/-- Settles O14: the tests of BNEW one by one, and the registers it writes when all of them pass. -/
theorem bnewConstructsBuilder : Obligations.BnewConstructsBuilder := by
  refine fun s => ⟨fun hr => ?_, fun hr hd => ?_, fun d hr hd => ⟨bnew_errConfig hr hd, ?_⟩⟩
  · simp only [exec, execBnew, hr, if_true, raise]
  · simp only [exec, execBnew, hr, hd, Bool.false_eq_true, if_false, raise]
  · intro hz hlow hhigh hdur
    have answer := bnew_ok hr hd hz hlow hhigh hdur
    obtain ⟨h1, h2, h3, h4, h5, h6, h7, h8, h9, h10, h11, h12⟩ :=
      profileRegs_toNat (hdur.trans (by decide : 0x7FFF ≤ 0xFFFFFFFF))
    exact ⟨_, answer, rfl, rfl, rfl, rfl, rfl, rfl, h1, h2, h3, h4, h5, h6, h7, h8, h9, h10, h11, h12,
      ofNat_toNat (dataLen_lt (familyTable_wf hd)), repeatLen_toNat d, rfl, rfl, rfl, rfl,
      exec_sameStaging answer, exec_onlyBuilder rfl answer, fun _ => rfl⟩

/-! ## Release and result (R161, R162) -/

/-- Settles O16: release leaves the idle Builder and no written word of TX. -/
theorem bdelReleasesBuilder : Obligations.BdelReleasesBuilder := by
  refine fun s => ⟨fun hr => ?_, fun hr => ?_⟩
  · simp only [exec, execBdel, hr, Bool.false_eq_true, if_false, raise]
  · have answer : exec .bdel s = .next (({ forgetTx s with bp := releaseBuilder s.bp } : State).setStatus .bp .ok) := by
      simp only [exec, execBdel, hr, if_true, finish]
    exact ⟨_, answer, rfl, rfl, rfl, { releaseBuilder_idle s.bp with }, exec_sameStaging answer,
      exec_onlyBuilder rfl answer, fun _ => rfl⟩

/-- Settles O22: BRESULT writes RESULT and STATUS alone. -/
theorem bresultPublishesCursor : Obligations.BresultPublishesCursor :=
  fun _ => ⟨fun hr => whenReady_idle hr _, fun hr => whenReady_done hr⟩

/-! ## Emissions at the cursor (R151, R153 to R156) -/

/-- What an emission from where the cursor stands leaves (R151). -/
theorem emitted_here (ws : List Word) (s : State) :
    Emitted s.bp.cursor.toNat ws s ((emitted ws s).setStatus .bp .ok) := by
  have h := emitted_spec ws s s.bp.cursor.isLt
  rwa [BitVec.ofNat_toNat, BitVec.setWidth_eq] at h

/-- Words that do not fit below CAPACITY are a state error and none of them is written (R151, R267). -/
theorem whenReady_emit_refused {s : State} {ws : List Word}
    (h : s.bp.ready = false ∨ s.bp.capacity.toNat < s.bp.cursor.toNat + ws.length) :
    whenReady s (emit ws s) = .next (s.setStatus .bp .errState) := by
  cases hr : s.bp.ready with
  | false => exact whenReady_idle hr _
  | true =>
    have full : ¬Fits ws s := Nat.not_le.mpr (h.resolve_left (by simp [hr]))
    rw [emit_of_full full, whenReady_raised hr]

/-- Words that fit below CAPACITY are written at the cursor (R151). -/
theorem whenReady_emit_ok {s : State} {ws : List Word} (hr : s.bp.ready = true) (hf : Fits ws s) :
    ∃ t, whenReady s (emit ws s) = .next t ∧ Emitted s.bp.cursor.toNat ws s t :=
  ⟨_, by rw [emit_of_fits hf, whenReady_done hr], emitted_here ws s⟩

/-- Settles O18: each of the three steps is one emission at the cursor. -/
theorem makeStepsEmitAtCursor : Obligations.MakeStepsEmitAtCursor := by
  intro s inv cases_ i ws hi
  have step : exec i s = whenReady s (emit ws s) := by
    simp only [cases_, List.mem_cons, List.not_mem_nil, or_false, Prod.mk.injEq] at hi
    obtain ⟨rfl, rfl⟩ | ⟨rfl, rfl⟩ | ⟨rfl, rfl⟩ := hi <;> rfl
  rw [step]
  exact ⟨whenReady_emit_refused, whenReady_emit_ok⟩

/-- MKGAP of a Builder for `d` (R156). -/
theorem mkgap_eq {s : State} {d : Descriptor} (hd : familyTable s.bp.family = some d) :
    exec .mkgap s = whenReady s (if d.hasGap then emit [gapSymbol s.bp] s else .raised .errUnsupported s) := by
  rw [exec, execMkgap, builderDescriptor, descriptorAt_of_some hd]

/-- Settles O19: MKGAP is an emission at the cursor on a family with a gap symbol, and raises on any other. -/
theorem mkgapEmitsGap : Obligations.MkgapEmitsGap := by
  intro s d hd
  have emits (hr : s.bp.ready = true) (hg : d.hasGap = true) :
      exec .mkgap s = whenReady s (emit [gapSymbol s.bp] s) := by rw [mkgap_eq (hd hr), if_pos hg]
  refine ⟨fun hr => whenReady_idle hr _, fun hr hg => ?_, fun hr hg hfull => ?_, fun hr hg hfit => ?_⟩
  · rw [mkgap_eq (hd hr), hg]
    exact whenReady_raised hr
  · rw [emits hr hg]
    exact whenReady_emit_refused (.inr hfull)
  · rw [emits hr hg]
    exact whenReady_emit_ok hr hfit

/-! ## Emissions from index 0 (R152, R157, R160) -/

/-- What an emission from index 0 leaves (R152, R160). -/
theorem emitted_home (ws : List Word) (s : State) :
    Emitted 0 ws s ((emitted ws (s.setCursor 0)).setStatus .bp .ok) := emitted_spec ws s (by decide)

theorem fits_home {s : State} {ws : List Word} (h : ws.length ≤ s.bp.capacity.toNat) : Fits ws (s.setCursor 0) :=
  (Nat.zero_add _).trans_le h

/-- MKHEAD writes the head symbol at index 0 (R152). -/
theorem mkhead_ok {s : State} (hs : s.Inv) (hr : s.bp.ready = true) :
    exec .mkhead s = .next ((emitted [headSymbol s.bp] (s.setCursor 0)).setStatus .bp .ok) := by
  have fits : Fits [headSymbol s.bp] (s.setCursor 0) := fits_home ((by decide : 1 ≤ 5).trans (hs.five_le_capacity hr))
  rw [exec, execMkhead, emitHead, emit_of_fits fits, whenReady_done hr]

/-- Settles O17: the head symbol fits at index 0 of every constructed Builder. -/
theorem mkheadStartsFrame : Obligations.MkheadStartsFrame :=
  fun s hs => ⟨fun hr => whenReady_idle hr _, fun hr => ⟨_, mkhead_ok hs hr, emitted_home [headSymbol s.bp] s⟩⟩

/-- The words of a repeat frame, index 0 first (R160). -/
def repeatWords (b : BuilderRegs) : List Word := [repeatSymbol b, endSymbol b, terminator]

/-- BREPEAT of a Builder for `d` (R160). -/
theorem brepeat_eq {s : State} {d : Descriptor} (hd : familyTable s.bp.family = some d) :
    exec .brepeat s = whenReady s (if d.hasRepeat then (emit [repeatSymbol s.bp] (s.setCursor 0)).andThen emitEnd
      else .raised .errUnsupported s) := by
  rw [exec, execBrepeat, builderDescriptor, descriptorAt_of_some hd]

/-- The two emissions of BREPEAT are one of the repeat frame from index 0 (R160). -/
theorem emitRepeat_of_fits {s : State} (hf : Fits (repeatWords s.bp) (s.setCursor 0)) :
    (emit [repeatSymbol s.bp] (s.setCursor 0)).andThen emitEnd = .done (emitted (repeatWords s.bp) (s.setCursor 0)) := by
  have parts : repeatWords s.bp = [repeatSymbol s.bp] ++ [endSymbol s.bp, terminator] := rfl
  rw [parts] at hf ⊢
  rw [emit_of_fits (fits_append hf), ← emitted_append (fits_append hf)]
  exact emit_of_fits (fits_after hf)

/-- Settles O21: a repeat frame has three words, which fit every constructed Builder. -/
theorem brepeatWritesRepeatFrame : Obligations.BrepeatWritesRepeatFrame := by
  refine fun s hs => ⟨fun hr => whenReady_idle hr _, fun d hr hd => ⟨fun hrep => ?_, fun hrep => ?_⟩⟩
  · rw [brepeat_eq hd, hrep]
    exact whenReady_raised hr
  · have fits : Fits (repeatWords s.bp) (s.setCursor 0) :=
      fits_home ((by decide : 3 ≤ 5).trans (hs.five_le_capacity hr))
    have answer : exec .brepeat s = .next ((emitted (repeatWords s.bp) (s.setCursor 0)).setStatus .bp .ok) := by
      rw [brepeat_eq hd, if_pos hrep, emitRepeat_of_fits fits, whenReady_done hr]
    have three : repeatLen d = 3 := if_pos hrep
    exact ⟨_, answer, emitted_home (repeatWords s.bp) s, rfl, three.symm ▸ rfl⟩

/-! ## Data frames (R157) -/

/-- `a`, `c` and `q` are the address, the command and the aux value BFRAME sends on descriptor `d` (R157). -/
structure FrameOperands (s : State) (d : Descriptor) (a c q : Word) : Prop where
  addr : a.toNat = s.bp.arg0.toNat % 2 ^ fieldWidth d.template .addr
  cmd : c.toNat = s.bp.arg1.toNat % 2 ^ fieldWidth d.template .cmd
  aux : q = if 0 < d.auxBits then auxValue d a c else 0

/-- BFRAME of a Builder for `d` (R157). -/
theorem bframe_eq {s : State} {d : Descriptor} {a c q : Word} (hd : familyTable s.bp.family = some d)
    (ho : FrameOperands s d a c q) :
    exec .bframe s = whenReady s (if checksB d (extFlag s.bp.flags) a c then emitTemplate a c q d.template s
      else .raised .errStruct s) := by
  have ha : a = frameAddr s := by
    rw [eq_lowBits ho.addr, frameAddr, builderDescriptor, descriptorAt_of_some hd]
  have hc : c = frameCmd s := by
    rw [eq_lowBits ho.cmd, frameCmd, builderDescriptor, descriptorAt_of_some hd]
  have hq : q = frameAux d (frameAddr s) (frameCmd s) := by rw [ho.aux, ha, hc, frameAux]
  rw [exec, execBframe, builderDescriptor, descriptorAt_of_some hd, ← hq, ← ha, ← hc]

/-- BFRAME whose active checks hold writes the frame from index 0 (R157). -/
theorem bframe_ok {s : State} {d : Descriptor} {a c q : Word} (hs : s.Inv) (hr : s.bp.ready = true)
    (hd : familyTable s.bp.family = some d) (ho : FrameOperands s d a c q)
    (hk : BuilderChecksHold d (extFlag s.bp.flags) a c) :
    exec .bframe s = .next ((emitted (frameWords s.bp d a c q) (s.setCursor 0)).setStatus .bp .ok) := by
  have hw := familyTable_wf hd
  rw [bframe_eq hd ho, if_pos ((checksB_iff hw _ a c).mpr hk),
    emitTemplate_frame hw a c q s (hs.built hr hd).frameFits, whenReady_done hr]

/-- BFRAME with an active check that fails changes STATUS alone (R157, R159). -/
theorem bframe_errStruct {s : State} {d : Descriptor} {a c q : Word} (hr : s.bp.ready = true)
    (hd : familyTable s.bp.family = some d) (ho : FrameOperands s d a c q)
    (hk : ¬BuilderChecksHold d (extFlag s.bp.flags) a c) : exec .bframe s = .next (s.setStatus .bp .errStruct) := by
  rw [bframe_eq hd ho, if_neg (fun h => hk ((checksB_iff (familyTable_wf hd) _ a c).mp h)), whenReady_raised hr]

/-- Settles O20: the template's walk is one emission of DATA_LEN words, which fit every constructed Builder. -/
theorem bframeWritesFrame : Obligations.BframeWritesFrame := by
  refine fun s hs => ⟨fun hr => whenReady_idle hr _, fun d hr hd a c q ha hc hq => ?_⟩
  have ho : FrameOperands s d a c q := ⟨ha, hc, hq⟩
  have hw := familyTable_wf hd
  refine ⟨bframe_errStruct hr hd ho, fun hk => ⟨_, bframe_ok hs hr hd ho hk, emitted_home _ s, ?_⟩⟩
  have length := frameWords_length s.bp hw a c q
  have fits : Fits (frameWords s.bp d a c q) (s.setCursor 0) :=
    fits_home (length.trans_le (hs.built hr hd).frameFits)
  exact (emitted_cursor fits).trans ((Nat.zero_add _).trans length)

end Sys2Proof.Machine
end

section
/-! PROOFS. The make steps follow the walk of BFRAME: issued in template order, they leave the state BFRAME leaves. -/

namespace Sys2Proof.Machine

open Sys2Proof

/-! ## Operations that follow part of a walk (R157, R163) -/

/-- The Builder is constructed for `d` and its last operation succeeded. -/
structure Building (d : Descriptor) (s : State) : Prop where
  ready : s.bp.ready = true
  status : s.bp.status = .ok
  family : familyTable s.bp.family = some d

/-- Emissions leave a Builder constructed (R151). -/
theorem Building.emitOnly {d : Descriptor} {s t : State} (h : Building d s) (ht : EmitOnly s t) : Building d t := by
  obtain ⟨m, c, rfl⟩ := ht
  exact ⟨h.ready, h.status, h.family⟩

/-- Writing OK to a STATUS that is OK changes nothing. -/
theorem Building.setStatus_ok {d : Descriptor} {s : State} (h : Building d s) : s.setStatus .bp .ok = s := by
  rw [State.setStatus, ← h.status]

/-- The operations `is` go where the part `f` of a walk goes when it goes through. -/
def Follows (d : Descriptor) (is : List Instr) (f : State → Attempt) : Prop :=
  ∀ s t, Building d s → f s = .done t → execAll is s = .next t ∧ Building d t

theorem execAll_append {is js : List Instr} {s t : State} (h : execAll is s = .next t) :
    execAll (is ++ js) s = execAll js t := by
  induction is generalizing s with
  | nil => cases h; rfl
  | cons i is ih =>
    obtain ⟨u, hu⟩ := exec_total i s
    simp only [execAll, hu, List.cons_append] at h ⊢
    exact ih h

/-- Nothing to do follows an empty walk. -/
theorem Follows.nil {d : Descriptor} : Follows d [] .done := by
  intro s t hb h
  cases h
  exact ⟨rfl, hb⟩

/-- Following two parts of a walk one after the other. -/
theorem Follows.append {d : Descriptor} {is js : List Instr} {f g : State → Attempt} (hf : Follows d is f)
    (hg : Follows d js g) : Follows d (is ++ js) fun s => (f s).andThen g := by
  intro s t hb h
  cases hu : f s with
  | raised c u => simp only [hu, Attempt.andThen, reduceCtorEq] at h
  | done u =>
    obtain ⟨hi, hb'⟩ := hf s u hb hu
    rw [execAll_append hi]
    simp only [hu, Attempt.andThen] at h
    exact hg u t hb' h

/-- An operation that completes an emitting part of a walk follows it (R263). -/
theorem Follows.single {d : Descriptor} {i : Instr} {f : State → Attempt}
    (hi : ∀ s, Building d s → exec i s = whenReady s (f s)) (hf : ∀ s, EmitOnly s (att (f s))) : Follows d [i] f := by
  intro s t hb h
  have hb' : Building d t := hb.emitOnly (by simpa only [h, att] using hf s)
  refine ⟨?_, hb'⟩
  simp only [execAll, hi s hb, h, whenReady_done hb.ready, hb'.setStatus_ok]

/-! ## The make steps of a segment, of a template and of a frame -/

/-- The make step of one bit (R153, R154). -/
def bitStep (b : Bool) : Instr := if b then .mkl1 else .mkl0

theorem exec_bitStep (b : Bool) (s : State) : exec (bitStep b) s = whenReady s (emit [bitSymbol s.bp b] s) := by
  cases b <;> rfl

/-- The make steps of a field's bits follow EMIT_FIELD (R158). -/
theorem bitSteps_follow (d : Descriptor) (bs : List Bool) : Follows d (bs.map bitStep) (emitBits bs) := by
  induction bs with
  | nil => exact .nil
  | cons b bs ih =>
    have first : Follows d [bitStep b] fun s => emit [bitSymbol s.bp b] s :=
      .single (fun s _ => exec_bitStep b s) fun s => emit_only _ s
    exact first.append ih

/-- The make steps of a field are those of its bits in wire order (R99). -/
theorem segmentSteps_field (a c q : Word) (src : Source) (w : Nat) (o : BitOrder) (inv : Bool) :
    segmentSteps a c q (.field src w o inv) = (fieldBits (pick a c q src) w o inv).map bitStep := by
  rw [fieldBits, List.map_map]
  rfl

/-- The make steps of a segment follow BFRAME's emission of it; a gap needs a family that has one (R157, R163). -/
theorem segmentSteps_follow {d : Descriptor} (a c q : Word) {g : Segment} (hg : g = .gap → d.hasGap = true) :
    Follows d (segmentSteps a c q g) (emitSegment a c q g) := by
  cases g with
  | head => exact .single (fun _ _ => rfl) emitHead_only
  | field src w o inv =>
    rw [segmentSteps_field]
    exact bitSteps_follow d _
  | gap => exact .single (fun s hb => by rw [mkgap_eq hb.family, if_pos (hg rfl)]; rfl) fun s => emit_only _ s
  | endMark => exact .single (fun _ _ => rfl) fun s => emit_only _ s

/-- The make steps of a template's segments follow BFRAME's walk over them (R157, R163). -/
theorem templateSteps_follow {d : Descriptor} (a c q : Word) {gs : List Segment}
    (hgs : Segment.gap ∈ gs → d.hasGap = true) :
    Follows d (gs.flatMap (segmentSteps a c q)) (emitTemplate a c q gs) := by
  induction gs with
  | nil => exact .nil
  | cons g gs ih =>
    have first : Follows d (segmentSteps a c q g) (emitSegment a c q g) :=
      segmentSteps_follow a c q fun h => hgs (h ▸ List.mem_cons_self)
    exact first.append (ih fun h => hgs (List.mem_cons_of_mem g h))

/-- A template with a GAP segment is of a family with a gap symbol (R232). -/
theorem hasGap_of_mem {d : Descriptor} {m n : Nat} (h : d.wf m n = true) (hg : Segment.gap ∈ d.template) :
    d.hasGap = true := by
  obtain ⟨-, -, -, -, -, hdecl, -⟩ := Descriptor.wf_parts h
  simpa [gapDeclared, hg] using hdecl

/-- What STATUS held before does not matter to a frame's make steps: the first of them is MKHEAD (R163). -/
theorem frameSteps_setStatus {s : State} {d : Descriptor} {m n : Nat} (hs : s.Inv) (hr : s.bp.ready = true)
    (hd : d.wf m n = true) (a c q : Word) (k : Status) :
    execAll (frameSteps d a c q) (s.setStatus .bp k) = execAll (frameSteps d a c q) s := by
  obtain ⟨mid, ht, -⟩ := template_shape hd
  have first : exec .mkhead (s.setStatus .bp k) = exec .mkhead s := by
    rw [mkhead_ok hs hr, mkhead_ok (hs.setStatus .bp k) hr]
    rfl
  simp only [frameSteps, ht, List.flatMap_cons, segmentSteps, List.singleton_append, execAll, first]

/-- The make steps of a frame write it from index 0 (R163). -/
theorem frameSteps_ok {s : State} {d : Descriptor} (hs : s.Inv) (hr : s.bp.ready = true)
    (hd : familyTable s.bp.family = some d) (a c q : Word) :
    execAll (frameSteps d a c q) s
      = .next ((emitted (frameWords s.bp d a c q) (s.setCursor 0)).setStatus .bp .ok) := by
  have hw := familyTable_wf hd
  have walk := emitTemplate_frame hw a c q (s.setStatus .bp .ok) (hs.built hr hd).frameFits
  have building : Building d (s.setStatus .bp .ok) := ⟨hr, rfl, hd⟩
  obtain ⟨steps, -⟩ := templateSteps_follow a c q (hasGap_of_mem hw) _ _ building walk
  rw [← frameSteps_setStatus hs hr hw a c q .ok]
  exact steps

/-- Settles O23: both ways write the same words from index 0. -/
theorem makeStepsBuildTheFrame : Obligations.MakeStepsBuildTheFrame :=
  fun _ _ a c q hs hr hd ha hc hq hk => ⟨_, frameSteps_ok hs hr hd a c q, bframe_ok hs hr hd ⟨ha, hc, hq⟩ hk⟩

end Sys2Proof.Machine
end

section
/-! PROOFS. The margin comparator and the classification of a record (R190, R195, R196). -/

namespace Sys2Proof.Machine

open Sys2Proof

/-! ## MATCH (R190) -/

/-- MATCH is a distance below the margin (R190). -/
theorem matchTicks_iff_abs (raw target m : Nat) : matchTicks raw target m = true ↔ |(raw : Int) - target| < m := by
  rw [matchTicks_iff, abs_sub_lt_iff]
  omega

/-- A duration that is not strictly inside the interval does not match (R190). -/
theorem matchTicks_eq_false {raw target m : Nat} (h : raw + m ≤ target ∨ target + m ≤ raw) :
    matchTicks raw target m = false := by
  rw [Bool.eq_false_iff, ne_eq, matchTicks_iff]
  omega

/-- The durations that match a target are those of an open interval (R190). -/
theorem filter_matchTicks {target m : Nat} (h : m ≤ target) :
    (Finset.range (target + m + 1)).filter (fun r => matchTicks r target m = true)
      = Finset.Ioo (target - m) (target + m) := by
  ext r
  simp only [Finset.mem_filter, Finset.mem_range, Finset.mem_Ioo, matchTicks_iff]
  omega

/-- Settles O11, from the strict distance test. -/
theorem matchIsStrictOpenInterval : Obligations.MatchIsStrictOpenInterval := by
  intro raw target m
  refine ⟨?_, matchTicks_iff_abs raw target m, matchTicks_eq_false (.inr le_rfl), fun h => matchTicks_eq_false ?_,
    fun h1 h => ?_, fun h1 => ?_, fun h1 h => ?_, matchTicks_eq_false (Nat.le_total raw target)⟩
  · rw [matchTicks_iff]; omega
  · omega
  · rw [matchTicks_iff]; omega
  · rw [matchTicks_iff]; omega
  · rw [filter_matchTicks h, Nat.card_Ioo]; omega

/-! ## SYM_MATCH and CLASSIFY (R195, R196) -/

/-- The mark duration of a record, as a number (R90). -/
theorem duration0_toNat (w : Word) : (recordOf w).duration0.toNat = w.toNat % 2 ^ 15 := by
  rw [recordOf, BitVec.extractLsb'_toNat, Nat.shiftRight_zero]

/-- The space duration of a record, as a number (R90). -/
theorem duration1_toNat (w : Word) : (recordOf w).duration1.toNat = w.toNat / 2 ^ 16 % 2 ^ 15 := by
  rw [recordOf, BitVec.extractLsb'_toNat, Nat.shiftRight_eq_div_pow]

/-- SYM_MATCH on the bits of the word (R195). -/
theorem symMatch_iff_bits (p : ParserRegs) (w hi lo : Word) :
    symMatch p w hi lo = true ↔ w.getLsbD 15 = !(p.flags.getLsbD 1) ∧ w.getLsbD 31 = p.flags.getLsbD 1
      ∧ |((w.toNat % 2 ^ 15 : Nat) : Int) - hi.toNat| < p.margin.toNat
      ∧ |((w.toNat / 2 ^ 16 % 2 ^ 15 : Nat) : Int) - lo.toNat| < p.margin.toNat := by
  rw [symMatch_iff, matchTicks_iff_abs, matchTicks_iff_abs, duration0_toNat, duration1_toNat]
  rfl

/-- Two targets within a margin of one duration are closer than twice that margin (R196). -/
theorem targets_close {raw x y m : Int} (hx : |raw - x| < m) (hy : |raw - y| < m) : |y - x| < 2 * m - 1 := by
  rw [abs_sub_lt_iff] at *
  omega

/-- The three ways CLASSIFY answers, the logic-0 template tried first (R196). -/
theorem classify_cases (p : ParserRegs) (w : Word) :
    (symMatch p w p.profile.l0Hi p.profile.l0Lo = true ∧ classify p w = some false)
    ∨ (symMatch p w p.profile.l0Hi p.profile.l0Lo = false ∧ symMatch p w p.profile.l1Hi p.profile.l1Lo = true
      ∧ classify p w = some true)
    ∨ (symMatch p w p.profile.l0Hi p.profile.l0Lo = false ∧ symMatch p w p.profile.l1Hi p.profile.l1Lo = false
      ∧ classify p w = none) := by
  unfold classify
  cases symMatch p w p.profile.l0Hi p.profile.l0Lo with
  | true => exact .inl ⟨rfl, rfl⟩
  | false =>
    cases symMatch p w p.profile.l1Hi p.profile.l1Lo with
    | true => exact .inr (.inl ⟨rfl, rfl, rfl⟩)
    | false => exact .inr (.inr ⟨rfl, rfl, rfl⟩)

/-- Settles O12, from SYM_MATCH on the bits and the three results of CLASSIFY. -/
theorem classifyTriesLogicZeroFirst : Obligations.ClassifyTriesLogicZeroFirst := by
  intro p w near sym
  have spelled : ∀ hi lo, symMatch p w hi lo = true ↔ sym hi lo := symMatch_iff_bits p w
  refine ⟨spelled, fun hi lo => ?_, fun h0 h1 => ?_, ?_⟩
  · have fields := recordOf_pulseRec hi lo (p.flags.getLsbD 1)
    exact ⟨congrArg PulseRecord.level0 fields, congrArg PulseRecord.level1 fields⟩
  · obtain ⟨-, -, hhi0, hlo0⟩ := h0
    obtain ⟨-, -, hhi1, hlo1⟩ := h1
    exact ⟨targets_close hhi0 hhi1, targets_close hlo0 hlo1⟩
  · simp only [← spelled]
    rcases classify_cases p w with ⟨h0, hc⟩ | ⟨h0, h1, hc⟩ | ⟨h0, h1, hc⟩
    · simp [h0, hc]
    · simp [h0, h1, hc]
    · simp [h0, h1, hc]

end Sys2Proof.Machine
end

section
/-! PROOFS. Construction and release of the Parser (R192, R193). -/

namespace Sys2Proof.Machine

open Sys2Proof

/-! ## Construction (R192) -/

/-- The tests PNEW puts a configuration of a known family to, in its order (R192). -/
theorem pnew_of_family {s : State} {d : Descriptor} (hr : s.pp.ready = false)
    (hd : familyTable s.pp.cfgFamily = some d) :
    exec .pnew s =
      if s.pp.cfgClkHz = 0 then .next (s.setStatus .pp .errConfig)
      else if 0xFFFFFFFF < maxDur d (resolve d s.pp.cfgClkHz.toNat)
          || 0xFFFFFFFF < ticks s.pp.cfgMarginUs.toNat s.pp.cfgClkHz.toNat then
        .next (s.setStatus .pp .errConfig)
      else .next (({ s with pp := constructParser d s.pp } : State).setStatus .pp .ok) := by
  simp only [exec, execPnew, hr, hd, Bool.false_eq_true, if_false, raise, finish]

/-- PNEW refuses a configuration that fails one of its tests (R192). -/
theorem pnew_errConfig {s : State} {d : Descriptor} (hr : s.pp.ready = false)
    (hd : familyTable s.pp.cfgFamily = some d)
    (hbad : s.pp.cfgClkHz.toNat = 0 ∨ 0xFFFFFFFF < maxDur d (resolve d s.pp.cfgClkHz.toNat)
      ∨ 0xFFFFFFFF < ticks s.pp.cfgMarginUs.toNat s.pp.cfgClkHz.toNat) :
    exec .pnew s = .next (s.setStatus .pp .errConfig) := by
  rw [pnew_of_family hr hd]
  split
  · rfl
  · next hz =>
    have wide := hbad.resolve_left fun h => hz (BitVec.eq_of_toNat_eq h)
    exact if_pos (by simpa only [Bool.or_eq_true, decide_eq_true_eq] using wide)

/-- PNEW constructs from a configuration that passes every test (R192). -/
theorem pnew_ok {s : State} {d : Descriptor} (hr : s.pp.ready = false) (hd : familyTable s.pp.cfgFamily = some d)
    (hz : s.pp.cfgClkHz.toNat ≠ 0) (hdur : maxDur d (resolve d s.pp.cfgClkHz.toNat) ≤ 0xFFFFFFFF)
    (hm : ticks s.pp.cfgMarginUs.toNat s.pp.cfgClkHz.toNat ≤ 0xFFFFFFFF) :
    exec .pnew s = .next (({ s with pp := constructParser d s.pp } : State).setStatus .pp .ok) := by
  have fits : ¬(0xFFFFFFFF < maxDur d (resolve d s.pp.cfgClkHz.toNat)
      || 0xFFFFFFFF < ticks s.pp.cfgMarginUs.toNat s.pp.cfgClkHz.toNat) = true := by
    simp only [Bool.or_eq_true, decide_eq_true_eq, not_or, Nat.not_lt]
    exact ⟨hdur, hm⟩
  rw [pnew_of_family hr hd, if_neg (fun h => hz (congrArg BitVec.toNat h)), if_neg fits]

/-- Settles O24: the tests of PNEW one by one, and the registers it writes when all of them pass. -/
theorem pnewConstructsParser : Obligations.PnewConstructsParser := by
  refine fun s => ⟨fun hr => ?_, fun hr hd => ?_, fun d hr hd => ⟨pnew_errConfig hr hd, fun hz hdur hm => ?_⟩⟩
  · simp only [exec, execPnew, hr, if_true, raise]
  · simp only [exec, execPnew, hr, hd, Bool.false_eq_true, if_false, raise]
  · have answer := pnew_ok hr hd hz hdur hm
    obtain ⟨h1, h2, h3, h4, h5, h6, h7, h8, h9, h10, h11, h12⟩ := profileRegs_toNat hdur
    exact ⟨_, answer, rfl, rfl, rfl, rfl, rfl, ofNat_toNat (Nat.lt_succ_of_le hm), h1, h2, h3, h4, h5, h6, h7, h8, h9,
      h10, h11, h12, ofNat_toNat (dataLen_lt (familyTable_wf hd)), repeatLen_toNat d, rfl, rfl, rfl, rfl, rfl, rfl, rfl,
      rfl, rfl, rfl, rfl, rfl, rfl, rfl, exec_sameStaging answer, exec_onlyParser rfl answer⟩

/-! ## Release (R193) -/

/-- PDEL on a constructed Parser (R193). -/
theorem pdel_ok {s : State} (hr : s.pp.ready = true) :
    exec .pdel s = .next (({ s with pp := releaseParser s.pp } : State).setStatus .pp .ok) := by
  rw [exec, execPdel, if_pos hr, finish]

/-- Settles O25: release leaves the idle Parser and both buffers. -/
theorem pdelReleasesParser : Obligations.PdelReleasesParser := by
  refine fun s => ⟨fun hr => ?_, fun hr => ?_⟩
  · simp only [exec, execPdel, hr, Bool.false_eq_true, if_false, raise]
  · have answer := pdel_ok hr
    exact ⟨_, answer, rfl, rfl, rfl, { releaseParser_idle s.pp with }, exec_sameStaging answer,
      exec_onlyParser rfl answer⟩

end Sys2Proof.Machine
end

section
/-! PROOFS. PINPUT and PSCAN: framing by length, what a scan of a bound buffer of either kind answers, and what a walk
over accepted records decodes to (R194 to R201). -/

namespace Sys2Proof.Machine

open Sys2Proof

/-! ## Framing (R194) -/

/-- PINPUT of a length of the family binds the buffer (R194). -/
theorem pinput_framed {s : State} {d : Descriptor} {k : FrameKind} (hr : s.pp.ready = true)
    (hd : familyTable s.pp.family = some d) (hk : kindOfLength d s.pp.arg0.toNat = some k) :
    exec .pinput s = .next
      (({ s with pp := { unbind s.pp with kind := k, len := s.pp.arg0, bound := true } } : State).setStatus .pp .ok) := by
  simp only [exec, execPinput, if_pos hr, parserDescriptor, descriptorAt_of_some hd, hk, finish]

/-- PINPUT of any other length binds nothing (R194). -/
theorem pinput_unframed {s : State} {d : Descriptor} (hr : s.pp.ready = true) (hd : familyTable s.pp.family = some d)
    (hk : kindOfLength d s.pp.arg0.toNat = none) :
    exec .pinput s =
      .next (({ s with pp := { unbind s.pp with pstate := .failed } } : State).setStatus .pp .errFraming) := by
  simp only [exec, execPinput, if_pos hr, parserDescriptor, descriptorAt_of_some hd, hk, raise]

theorem kindOfLength_repeatLen {d : Descriptor} {n : Nat} (hn : n ≠ dataLen d) (hrep : d.hasRepeat = true)
    (hn' : n = repeatLen d) : kindOfLength d n = some .repeated := by
  rw [kindOfLength, if_neg hn, if_pos (by rw [hrep, hn', beq_self_eq_true, Bool.and_self])]

theorem kindOfLength_eq_none {d : Descriptor} {n : Nat} (hn : n ≠ dataLen d)
    (hn' : ¬(d.hasRepeat = true ∧ n = repeatLen d)) : kindOfLength d n = none := by
  rw [kindOfLength, if_neg hn, if_neg (by rw [Bool.and_eq_true, beq_iff_eq]; exact hn')]

/-- Settles O26, by the length PINPUT is given. -/
theorem pinputFramesByLength : Obligations.PinputFramesByLength := by
  refine fun s => ⟨fun hr => ?_, fun d hr hd => ⟨fun hn => ?_, fun hn hrep hn' => ?_, fun hn hn' => ?_⟩⟩
  · simp only [exec, execPinput, hr, Bool.false_eq_true, if_false, raise]
  · exact pinput_framed hr hd (if_pos hn)
  · exact pinput_framed hr hd (kindOfLength_repeatLen hn hrep hn')
  · exact pinput_unframed hr hd (kindOfLength_eq_none hn hn')

/-! ## The borrow (R66, R198) -/

/-- PSCAN on a bound buffer runs the scan its kind calls for and ends the borrow (R198). -/
theorem pscan_bound {s : State} (hr : s.pp.ready = true) (hb : s.pp.bound = true) :
    exec .pscan s = .next (({ s with pp := { (scan s).2 with bound := false } } : State).setStatus .pp (scan s).1) := by
  simp only [exec, execPscan, hr, hb, Bool.and_self, if_true]

/-- PSCAN with nothing bound is a state error (R66, R198). -/
theorem pscan_unbound {s : State} (hb : s.pp.bound = false) : exec .pscan s = .next (s.setStatus .pp .errState) := by
  simp only [exec, execPscan, hb, Bool.and_false, Bool.false_eq_true, if_false, raise]

/-- Settles O41: the state PSCAN answers has nothing bound, so a second PSCAN finds no borrow. -/
theorem pscanEndsBorrow : Obligations.PscanEndsBorrow := by
  intro s hr hb
  have answer := pscan_bound hr hb
  exact ⟨_, answer, rfl, pscan_frame hr hb answer, pscan_unbound rfl⟩

/-! ## Repeat frames (R197) -/

/-- PSCAN on a bound repeat frame (R197, R198). -/
theorem pscan_repeated {s : State} (hr : s.pp.ready = true) (hb : s.pp.bound = true) (hk : s.pp.kind = .repeated) :
    exec .pscan s =
      .next (({ s with pp := { (scanRepeat s).2 with bound := false } } : State).setStatus .pp (scanRepeat s).1) := by
  rw [pscan_bound hr hb, scan, hk]

/-- Settles O27, by the two tests of SCAN_REPEAT in their order. -/
theorem pscanRepeatReturnsCache : Obligations.PscanRepeatReturnsCache := by
  intro s hr hb hk good
  rw [pscan_repeated hr hb hk]
  refine ⟨fun hg => ?_, fun hg hv => ?_, fun hg hv => ?_⟩
  · have ends : scanRepeat s = (.errTiming, { s.pp with cursor := 1, pstate := .failed }) := by
      rw [scanRepeat, if_neg (Bool.eq_false_iff.mp hg)]
    rw [ends]; rfl
  · have ends : scanRepeat s = (.errNocache, { s.pp with cursor := 1, pstate := .failed }) := by
      rw [scanRepeat, if_pos hg, if_neg (Bool.eq_false_iff.mp hv)]
    rw [ends]; rfl
  · rw [scanRepeat, if_pos hg, if_pos hv]; rfl

/-! ## Data frames whose records all pass (R199) -/

/-- A walk that goes through has read all records of the frame but the last two (R199, R204). -/
theorem walk_matched_cursor {s : State} {d : Descriptor} {m n : Nat} (hw : d.wf m n = true) {k : Walk}
    (h : walkTemplate s d.template (Walk.start s.pp) = .matched k) : k.cursor + 2 = dataLen d := by
  rcases walkTemplate_stops s 0 0 0 d.template (Walk.start s.pp) with ⟨k', he, hcur, -⟩ | ⟨_, _, -, he, -⟩
  · obtain rfl : k' = k := WalkResult.matched.inj (he.symm.trans h)
    rw [← frameExpected_length hw 0 0 0, hcur]
    exact congrArg (· + 2) (Nat.zero_add _)
  · rw [h] at he; cases he

/-- PSCAN on a bound data frame (R198, R199). -/
theorem pscan_data {s : State} (hr : s.pp.ready = true) (hb : s.pp.bound = true) (hk : s.pp.kind = .data) :
    exec .pscan s =
      .next (({ s with pp := { (scanData s).2 with bound := false } } : State).setStatus .pp (scanData s).1) := by
  rw [pscan_bound hr hb, scan, hk]

/-- `t` reports a data frame decoded to `a`, `c` and `q` (R199). -/
def Decoded (a c q : Word) (t : State) : Prop :=
  t.pp.status = .ok ∧ t.pp.pstate = .complete
    ∧ t.pp.resAddr = a ∧ t.pp.resCmd = c ∧ t.pp.resAux = q ∧ t.pp.resRepeat = false
    ∧ t.pp.lastValid = true ∧ t.pp.lastAddr = a ∧ t.pp.lastCmd = c

/-- `t` reports a structural failure and keeps the results and the cache of `s` (R198, R199). -/
def StructFailed (s t : State) : Prop :=
  t.pp.status = .errStruct ∧ t.pp.pstate = .failed ∧ SameResults s.pp t.pp ∧ SameCache s.pp t.pp

/-- CHECKS_P of what a walk gathered (R199, R201). -/
def walkChecks (s : State) (d : Descriptor) (k : Walk) : Bool :=
  checksP d (extFlag s.pp.flags) (k.addr.getD 0) (k.cmd.getD 0) (walkAux d k) k.copyBad

/-- SCAN_DATA after a walk that went through (R199). -/
theorem scanData_matched {s : State} {d : Descriptor} {k : Walk} (hd : familyTable s.pp.family = some d)
    (h : walkTemplate s d.template (Walk.start s.pp) = .matched k) :
    scanData s =
      if walkChecks s d k then
        (.ok, { withWalk s.pp k with
          resAddr := k.addr.getD 0, resCmd := k.cmd.getD 0, resAux := walkAux d k, resRepeat := false
          lastAddr := k.addr.getD 0, lastCmd := k.cmd.getD 0, lastValid := true, pstate := .complete })
      else (.errStruct, { withWalk s.pp k with pstate := .failed }) := by
  rw [scanData, parserDescriptor, descriptorAt_of_some hd, h]
  rfl

/-- PSCAN on a data frame whose walk goes through: the whole frame is read, and CHECKS_P of what was gathered decides
(R198, R199, R201). -/
theorem pscan_matched {s : State} {d : Descriptor} {k : Walk} (hr : s.pp.ready = true) (hb : s.pp.bound = true)
    (hkind : s.pp.kind = .data) (hd : familyTable s.pp.family = some d)
    (h : walkTemplate s d.template (Walk.start s.pp) = .matched k) :
    ∃ t, exec .pscan s = .next t ∧ t.pp.bound = false ∧ t.pp.cursor.toNat + 2 = dataLen d ∧ ScanFrame s t
      ∧ (walkChecks s d k = true → Decoded (k.addr.getD 0) (k.cmd.getD 0) (walkAux d k) t)
      ∧ (walkChecks s d k = false → StructFailed s t) := by
  have hw := familyTable_wf hd
  have cursor : (BitVec.ofNat 32 k.cursor).toNat + 2 = dataLen d := by
    have read := walk_matched_cursor hw h
    have fits := dataLen_lt hw
    rw [ofNat_toNat (by omega), read]
  have answer := pscan_data hr hb hkind
  rw [scanData_matched hd h] at answer
  cases hk : walkChecks s d k with
  | true =>
    rw [hk, if_pos rfl] at answer
    exact ⟨_, answer, rfl, cursor, pscan_frame hr hb answer,
      fun _ => ⟨rfl, rfl, rfl, rfl, rfl, rfl, rfl, rfl, rfl⟩, nofun⟩
  | false =>
    rw [hk, if_neg Bool.false_ne_true] at answer
    exact ⟨_, answer, rfl, cursor, pscan_frame hr hb answer, nofun,
      fun _ => ⟨rfl, rfl, ⟨rfl, rfl, rfl, rfl⟩, rfl, rfl, rfl⟩⟩

/-! ## Accepted data frames (R199 to R201) -/

/-- The fields of a well-formed template are 1 to 32 bits wide and hold values that fit the family's field widths
(R232, R233). -/
theorem pick_fits {d : Descriptor} {m n : Nat} (hw : d.wf m n = true) {a c q : Word} (ha : FitsField d .addr a)
    (hc : FitsField d .cmd c) (hq : FitsField d .aux q) (src : Source) (w : Nat) (o : BitOrder) (inv : Bool)
    (hm : Segment.field src w o inv ∈ d.template) : (1 ≤ w ∧ w ≤ 32) ∧ (pick a c q src).toNat < 2 ^ w := by
  obtain ⟨h1, h32, rfl⟩ := field_width hw hm
  refine ⟨⟨h1, h32⟩, ?_⟩
  cases src with
  | addr => exact ha
  | cmd => exact hc
  | aux => exact hq

/-- A walk with nothing read yet agrees with every frame (R198). -/
theorem Walk.start_agrees (a c q : Word) (p : ParserRegs) : (Walk.start p).Agrees a c q :=
  ⟨fun src u h => (by cases src <;> cases h), rfl⟩

/-- The walk over an accepted data frame gathers address, command and aux value, and no copy differs (R199). -/
theorem walk_accepted {s : State} {d : Descriptor} {m n : Nat} (hw : d.wf m n = true) {a c q : Word}
    (ha : FitsField d .addr a) (hc : FitsField d .cmd c) (hq : FitsField d .aux q)
    (h : AllAccepted s 0 (frameExpected d a c q)) :
    ∃ k, walkTemplate s d.template (Walk.start s.pp) = .matched k
      ∧ k.addr = some a ∧ k.cmd = some c ∧ walkAux d k = q ∧ k.copyBad = false := by
  obtain ⟨k, hk, ⟨-, hcopy⟩, -, -, hfirst⟩ :=
    walkTemplate_accepted s (pick_fits hw ha hc hq) (Walk.start_agrees a c q s.pp) h
  obtain ⟨⟨_, _, _, hma⟩, ⟨_, _, _, hmc⟩, haux⟩ := has_sources hw
  refine ⟨k, hk, hfirst _ _ _ _ hma, hfirst _ _ _ _ hmc, ?_, hcopy⟩
  by_cases hb : 0 < d.auxBits
  · obtain ⟨_, _, _, hmq⟩ := haux.mp hb
    have read : k.aux = some q := hfirst _ _ _ _ hmq
    rw [walkAux, if_pos hb, read, Option.getD_some]
  · have zero : q.toNat < 2 ^ 0 := by simpa only [FitsField, fits_zero_aux hw hb] using hq
    rw [walkAux, if_neg hb]
    exact (BitVec.eq_of_toNat_eq (Nat.lt_one_iff.mp zero)).symm

/-- With no copy that differed, CHECKS_P is the list of checks (R201). -/
theorem checksP_sameCopies (d : Descriptor) (ext : Bool) (a c q : Word) :
    checksP d ext a c q false = d.checks.all (parserCheck d ext a c q) := by
  rw [checksP, Bool.not_false, Bool.true_or, Bool.true_and]

/-- Settles O28: the walk gathers what the records carry, and CHECKS_P of it decides. -/
theorem pscanDecodesAcceptedFrame : Obligations.PscanDecodesAcceptedFrame := by
  intro s d a c q hr hb hkind hd ha hc hq haccepts
  have hw := familyTable_wf hd
  have accepted : AllAccepted s 0 (frameExpected d a c q) := fun n e he => (Nat.zero_add n).symm ▸ haccepts n e he
  obtain ⟨k, hk, haddr, hcmd, haux, hcopy⟩ := walk_accepted hw ha hc hq accepted
  have checks : walkChecks s d k = true ↔ ParserChecksHold d (s.pp.flags.getLsbD 0) a c q := by
    rw [← checksP_iff hw, ← checksP_sameCopies, walkChecks, haddr, hcmd, haux, hcopy]
    rfl
  obtain ⟨t, answer, hbound, hcur, hframe, hok, hbad⟩ := pscan_matched hr hb hkind hd hk
  rw [haddr, hcmd, haux] at hok
  exact ⟨t, answer, hbound, hcur, hframe, fun hh => hok (checks.mpr hh),
    fun hh => hbad (Bool.eq_false_iff.mpr fun ht => hh (checks.mp ht))⟩

/-! ## A copy that differs (R199, R201) -/

/-- A field of width `w` is `w` records (R234). -/
theorem segmentExpected_field_length (a c q : Word) (src : Source) (w : Nat) (o : BitOrder) (inv : Bool) :
    (segmentExpected a c q (.field src w o inv)).length = w := by
  rw [segmentExpected, List.length_map, List.length_range]

/-- A later value of a source that differs from the first is noted (R199). -/
theorem record_copyBad {k : Walk} {src : Source} {u v : Word} (hu : k.first src = some u) (hv : v ≠ u) :
    k.record src v = { k with copyBad := true } := by
  unfold Walk.record
  simp only [hu]
  exact if_pos hv

/-- An accepted field whose value differs from the first of its source is read to its end and noted (R199). -/
theorem walkField_copyBad (s : State) (a c q : Word) {src : Source} {w : Nat} {o : BitOrder} {inv : Bool} {k : Walk}
    {u : Word} (hw : 1 ≤ w ∧ w ≤ 32) (hv : (pick a c q src).toNat < 2 ^ w)
    (h : AllAccepted s k.cursor (segmentExpected a c q (.field src w o inv))) (hu : k.first src = some u)
    (hne : pick a c q src ≠ u) :
    ∃ k', walkSegment s (.field src w o inv) k = .matched k' ∧ k'.cursor = k.cursor + w ∧ k'.copyBad = true := by
  refine ⟨{ k with cursor := k.cursor + w, pstate := .bitsAccumulating, copyBad := true }, ?_, rfl, rfl⟩
  simp only [walkSegment, decodeField_accepted s a c q hw hv k h]
  rw [record_copyBad (u := u) (by cases src <;> exact hu) hne]

/-- A walk goes through over records that all match some template expected of them (R199). -/
theorem walk_of_allPass {s : State} (a c q : Word) {gs : List Segment} {k : Walk}
    (h : AllPass s k.cursor (gs.flatMap (segmentExpected a c q))) : ∃ k', walkTemplate s gs k = .matched k' := by
  obtain ⟨k', hk, -⟩ | ⟨n, _, hbad, -⟩ := walkTemplate_stops s a c q gs k
  · exact ⟨k', hk⟩
  · exact (h.not_bad hbad).elim

/-- The walk over a frame one of whose later fields carries another value than the first of its source notes it (R199). -/
theorem walk_copyMismatch {s : State} {d : Descriptor} {m n : Nat} (hw : d.wf m n = true) {a c q a' c' q' : Word}
    {pre post : List Segment} {src : Source} {w : Nat} {o : BitOrder} {inv : Bool}
    (ha : FitsField d .addr a) (hc : FitsField d .cmd c) (hq : FitsField d .aux q)
    (hq' : FitsField d src (pick a' c' q' src)) (ht : d.template = pre ++ .field src w o inv :: post)
    (hpre : ∃ w₀ o₀ inv₀, Segment.field src w₀ o₀ inv₀ ∈ pre) (hne : pick a' c' q' src ≠ pick a c q src)
    (h : AllAccepted s 0 (pre.flatMap (segmentExpected a c q) ++ segmentExpected a' c' q' (.field src w o inv)
      ++ post.flatMap (segmentExpected a c q))) :
    ∃ k, walkTemplate s d.template (Walk.start s.pp) = .matched k ∧ k.copyBad = true := by
  have fits := pick_fits hw ha hc hq
  rw [ht] at fits ⊢
  obtain ⟨k₁, hk₁, -, hcur₁, -, hfirst⟩ :=
    walkTemplate_accepted s (fun src w o inv hm => fits src w o inv (List.mem_append_left _ hm))
      (Walk.start_agrees a c q s.pp) h.left.left
  obtain ⟨_, _, _, hm₀⟩ := hpre
  have first : k₁.first src = some (pick a c q src) := hfirst _ _ _ _ hm₀
  obtain ⟨h1, h32, hwidth⟩ : 1 ≤ w ∧ w ≤ 32 ∧ w = fieldWidth d.template src :=
    field_width hw (ht ▸ List.mem_append_right pre List.mem_cons_self)
  obtain ⟨k₂, hk₂, hcur₂, hcopy⟩ :=
    walkField_copyBad s a' c' q' ⟨h1, h32⟩ (hwidth ▸ hq') (hcur₁ ▸ h.left.right) first hne
  have read : k₂.cursor = 0 + (pre.flatMap (segmentExpected a c q)
      ++ segmentExpected a' c' q' (.field src w o inv)).length := by
    rw [hcur₂, hcur₁, List.length_append, segmentExpected_field_length]
    exact Nat.add_assoc 0 _ w
  obtain ⟨k, hk⟩ := walk_of_allPass a c q (k := k₂) (read ▸ h.right.allPass)
  refine ⟨k, ?_, walk_copyBad s post k₂ k hk hcopy⟩
  simp only [walkTemplate_append, hk₁, WalkResult.andThen, walkTemplate, hk₂, hk]

/-- Settles O30: the walk goes through with a copy noted, and CHECKS_P fails on it. -/
theorem copyMismatchFailsDecode : Obligations.CopyMismatchFailsDecode := by
  intro s d a c q a' c' q' pre post src w o inv hr hb hkind hd ha hc hq hq' ht hpre hne haccepts hext
  have accepted : AllAccepted s 0 _ := fun n e he => (Nat.zero_add n).symm ▸ haccepts n e he
  obtain ⟨k, hk, hcopy⟩ := walk_copyMismatch (familyTable_wf hd) ha hc hq hq' ht hpre hne accepted
  have fails : walkChecks s d k = false := by
    have active : (extFlag s.pp.flags && d.copyBypassP) = false := by
      rw [Bool.eq_false_iff, ne_eq, Bool.and_eq_true]
      exact hext
    rw [walkChecks, checksP, hcopy, active]
    rfl
  obtain ⟨t, answer, hbound, hcur, hframe, -, hbad⟩ := pscan_matched hr hb hkind hd hk
  obtain ⟨hstatus, hpstate, hresults, hcache⟩ := hbad fails
  exact ⟨t, answer, hstatus, hpstate, hbound, hcur, hresults, hcache, hframe⟩

end Sys2Proof.Machine
end

section
/-! PROOFS. The round trip: the words of a frame are accepted by a Parser of the same configuration, and the host's
ENCODE and LOOPBACK carry a frame from the Builder to the Parser (R104, R205). -/

namespace Sys2Proof.Machine

open Sys2Proof

/-! ## A Parser accepts the frame a Builder of the same configuration writes (R205) -/

/-- The twelve durations but END_LO that a record can carry fit its 15-bit fields (R91). -/
structure Timing.Short (t : Timing Word) : Prop where
  leadHi : t.leadHi.toNat ≤ 0x7FFF
  leadLo : t.leadLo.toNat ≤ 0x7FFF
  l0Hi : t.l0Hi.toNat ≤ 0x7FFF
  l0Lo : t.l0Lo.toNat ≤ 0x7FFF
  l1Hi : t.l1Hi.toNat ≤ 0x7FFF
  l1Lo : t.l1Lo.toNat ≤ 0x7FFF
  gapHi : t.gapHi.toNat ≤ 0x7FFF
  gapLo : t.gapLo.toNat ≤ 0x7FFF

/-- The logic-1 symbol of a Parser is within the margin of its logic-0 template (R196, R205). -/
def LogicOneMatchesZero (p : ParserRegs) : Prop :=
  |(p.profile.l1Hi.toNat : Int) - p.profile.l0Hi.toNat| < p.margin.toNat
    ∧ |(p.profile.l1Lo.toNat : Int) - p.profile.l0Lo.toNat| < p.margin.toNat

/-- A Parser whose comparator tells the symbols of Builder `b` apart: premises (1) to (3) of R205. -/
structure Tuned (b : BuilderRegs) (p : ParserRegs) : Prop where
  profile : p.profile = b.profile
  polarity : invFlag p.flags = invFlag b.flags
  short : p.profile.Short
  margin : 1 ≤ p.margin.toNat
  apart : ¬LogicOneMatchesZero p

/-- A symbol matches the template it was made from as soon as the margin is one tick (R190, R195). -/
theorem symMatch_self {p : ParserRegs} {hi lo : Word} (hhi : hi.toNat ≤ 0x7FFF) (hlo : lo.toNat ≤ 0x7FFF)
    (hm : 1 ≤ p.margin.toNat) : symMatch p (pulseRec hi lo (invFlag p.flags)) hi lo = true := by
  rw [symMatch_pulseRec p hi lo hhi hlo, Bool.and_eq_true]
  exact ⟨(matchTicks_self _ _).mpr hm, (matchTicks_self _ _).mpr hm⟩

/-- The bit symbols are classified as the bits they stand for (R196, R205). -/
theorem Tuned.accepts_bit {b : BuilderRegs} {p : ParserRegs} (h : Tuned b p) (v : Bool) :
    Accepts p (bitSymbol b v) (.bit v) := by
  obtain ⟨hprof, hpol, hs, hm, hapart⟩ := h
  simp only [Accepts, bitSymbol, ← hprof, ← hpol]
  cases v with
  | false => exact if_pos (symMatch_self hs.l0Hi hs.l0Lo hm)
  | true =>
    have other : symMatch p (pulseRec p.profile.l1Hi p.profile.l1Lo (invFlag p.flags)) p.profile.l0Hi p.profile.l0Lo
        = false := by
      rw [symMatch_pulseRec p _ _ hs.l1Hi hs.l1Lo, Bool.eq_false_iff, ne_eq, Bool.and_eq_true, matchTicks_iff_abs,
        matchTicks_iff_abs]
      exact hapart
    simp only [if_true, classify, other, symMatch_self hs.l1Hi hs.l1Lo hm, Bool.false_eq_true, if_false]

/-- The words of a segment other than END are accepted one by one as what they stand for (R205). -/
theorem Tuned.accepts_segment {b : BuilderRegs} {p : ParserRegs} (h : Tuned b p) (a c q : Word) {g : Segment}
    (hg : g ≠ .endMark) : List.Forall₂ (Accepts p) (segmentWords b a c q g) (segmentExpected a c q g) := by
  cases g with
  | head =>
    rw [segmentWords, segmentExpected, ← h.profile, ← h.polarity]
    exact .cons (symMatch_self h.short.leadHi h.short.leadLo h.margin) .nil
  | gap =>
    rw [segmentWords, segmentExpected, ← h.profile, ← h.polarity]
    exact .cons (symMatch_self h.short.gapHi h.short.gapLo h.margin) .nil
  | field src w o inv =>
    simp only [segmentWords, segmentExpected, List.forall₂_map_left_iff, List.forall₂_map_right_iff, List.forall₂_same]
    exact fun k _ => h.accepts_bit _
  | endMark => exact absurd rfl hg

/-- The words of segments other than END are accepted one by one (R205). -/
theorem Tuned.accepts_segments {b : BuilderRegs} {p : ParserRegs} (h : Tuned b p) (a c q : Word) {gs : List Segment}
    (hgs : ∀ g ∈ gs, g ≠ .endMark) :
    List.Forall₂ (Accepts p) (gs.flatMap (segmentWords b a c q)) (gs.flatMap (segmentExpected a c q)) := by
  induction gs with
  | nil => exact .nil
  | cons g gs ih =>
    exact List.rel_append (h.accepts_segment a c q (hgs g List.mem_cons_self))
      (ih fun x hx => hgs x (List.mem_cons_of_mem _ hx))

/-- Every record a Parser reads of a frame finds its word accepted (R204, R205). -/
theorem Tuned.accepts_frame {b : BuilderRegs} {p : ParserRegs} (h : Tuned b p) {d : Descriptor} {m n : Nat}
    (hw : d.wf m n = true) (a c q : Word) {i : Nat} {e : Expected} (he : (frameExpected d a c q)[i]? = some e) :
    ∃ w, (frameWords b d a c q)[i]? = some w ∧ Accepts p w e := by
  obtain ⟨mid, ht, hmid⟩ := template_shape hw
  have noEnd : ∀ g ∈ Segment.head :: mid, g ≠ .endMark := by
    simp only [List.forall_mem_cons]
    exact ⟨nofun, fun g hg => (hmid g hg).2⟩
  have pairs := h.accepts_segments a c q noEnd
  have expected : frameExpected d a c q = (Segment.head :: mid).flatMap (segmentExpected a c q) := by
    rw [frameExpected, ht, ← List.cons_append, List.flatMap_append]
    exact List.append_nil _
  have words : frameWords b d a c q = (Segment.head :: mid).flatMap (segmentWords b a c q)
      ++ segmentWords b a c q .endMark := by
    rw [frameWords, ht, ← List.cons_append, List.flatMap_append, List.flatMap_singleton]
  rw [expected] at he
  obtain ⟨hi, rfl⟩ := List.getElem?_eq_some_iff.mp he
  have hi' := pairs.length_eq.symm ▸ hi
  rw [words, List.getElem?_append_left hi']
  exact ⟨_, List.getElem?_eq_getElem hi', pairs.get hi' hi⟩

/-! ## Runs of host actions (R301) -/

/-- The first step of a run performs the host's next action (R301). -/
theorem run_action {s u : State} {a : HostAction} {rest : List HostAction} (n : Nat) (hs : s.host = a :: rest)
    (h : perform a { s with host := rest } = .next u) : core.run (n + 1) s = core.run n u := by
  have first : core.step s = .next u := by
    show step s = _
    rw [step, hs]
    exact h
  simp only [Host.Core.run, first]

/-- A run that reached a state goes on from there. -/
theorem run_add {m : Nat} {s t : State} (n : Nat) (h : core.run m s = .next t) : core.run (m + n) s = core.run n t := by
  induction m generalizing s with
  | zero => cases h; rw [Nat.zero_add]
  | succ m ih =>
    rw [Nat.succ_add]
    simp only [Host.Core.run] at h ⊢
    cases hs : core.step s with
    | next u => rw [hs] at h; exact ih h
    | fault r => rw [hs] at h; cases h
    | refused r => rw [hs] at h; cases h

/-! ## Two engines of one configuration (R205) -/

/-- The profile of a constructed Builder fits the 15-bit fields of a record (R91, R150). -/
theorem BuilderBuilt.short {b : BuilderRegs} {d : Descriptor} (h : BuilderBuilt b d) : b.profile.Short := by
  obtain ⟨h1, h2, h3, h4, h5, h6, -, -, -, h7, h8⟩ := maxDur_parts h.durations
  obtain ⟨e1, e2, e3, e4, e5, e6, -, -, -, -, e7, e8⟩ :=
    profileRegs_toNat (h.durations.trans (by decide : 0x7FFF ≤ 0xFFFFFFFF))
  rw [h.profile]
  exact ⟨e1.trans_le h1, e2.trans_le h2, e3.trans_le h3, e4.trans_le h4, e5.trans_le h5, e6.trans_le h6,
    e7.trans_le h7, e8.trans_le h8⟩

/-- A constructed Parser is built for the descriptor its FAMILY names. -/
theorem State.Inv.parserBuilt {s : State} {d : Descriptor} (hs : s.Inv) (hr : s.pp.ready = true)
    (hd : familyTable s.pp.family = some d) : ParserBuilt s.pp d := by
  obtain ⟨d', hb⟩ := hs.parser.2 hr
  rwa [Option.some.inj (hd.symm.trans hb.family)]

/-- Engines of one family, frequency and polarity, under a margin that keeps the bit symbols apart, are tuned (R205). -/
theorem tuned_of_built {b : BuilderRegs} {p : ParserRegs} {d : Descriptor} (hb : BuilderBuilt b d)
    (hp : ParserBuilt p d) (hclk : p.clkHz = b.clkHz) (hinv : invFlag p.flags = invFlag b.flags)
    (hm : 1 ≤ p.margin.toNat) (hapart : ¬LogicOneMatchesZero p) : Tuned b p := by
  have profile : p.profile = b.profile := by rw [hp.profile, hb.profile, hclk]
  exact ⟨profile, hinv, profile ▸ hb.short, hm, hapart⟩

/-! ## The aux value of a frame (R157, R232, R235) -/

/-- The aux field of a well-formed family has its aux bits (R232). -/
theorem fieldWidth_aux {d : Descriptor} {m n : Nat} (hw : d.wf m n = true) : fieldWidth d.template .aux = d.auxBits := by
  by_cases hb : 0 < d.auxBits
  · obtain ⟨-, -, -, -, hdecl, -⟩ := Descriptor.wf_parts hw
    have present := List.contains_iff_mem.mpr (mem_source.mpr ((has_sources hw).2.2.mp hb))
    rw [auxDeclared, if_pos present, Bool.and_eq_true, beq_iff_eq] at hdecl
    exact hdecl.2
  · rw [fits_zero_aux hw hb, Nat.eq_zero_of_not_pos hb]

/-- The aux value BFRAME sends fits its field (R157). -/
theorem frameAux_fits {d : Descriptor} {m n : Nat} (hw : d.wf m n = true) (a c : Word) :
    FitsField d .aux (frameAux d a c) := by
  rw [FitsField, fieldWidth_aux hw, frameAux]
  split
  · exact lowBits_lt _ _
  · exact Nat.two_pow_pos _

/-- With the aux value BFRAME sends, the Parser's checks are its INV_HALVES checks (R201, R235). -/
theorem parserChecks_frameAux {d : Descriptor} {m n : Nat} (hw : d.wf m n = true) {ext : Bool} {a c : Word}
    (h : ParserHalvesHold d ext a c) : ParserChecksHold d ext a c (frameAux d a c) := by
  refine ⟨h, fun bypass hmem => .inr ?_⟩
  obtain ⟨-, -, -, -, -, -, hchecks, -⟩ := Descriptor.wf_parts hw
  have hb : 0 < d.auxBits := of_decide_eq_true (List.all_eq_true.mp hchecks _ hmem)
  rw [frameAux, if_pos hb]

/-! ## ENCODE and LOOPBACK (R104) -/

/-- The host's actions of ENCODE (R104). -/
def encodeActions (a c : Word) : List HostAction :=
  [.wr .bp 0x04 a, .wr .bp 0x05 c, .wr .bp 0x06 0x18, .wr .bp 0x06 0x1A]

/-- The host's actions of DECODE (R104). -/
def decodeActions (n : Word) : List HostAction := [.wr .pp 0x04 n, .wr .pp 0x06 0x22, .wr .pp 0x06 0x23]

/-- The host's actions of LOOPBACK (R104). -/
def loopbackActions (n : Word) : List HostAction := .cp n.toNat :: decodeActions n

/-- What ENCODE leaves: the frame of `a` and `c` in TX, its length in RESULT, and the Parser untouched (R104, R157,
R161). -/
structure Encoded (d : Descriptor) (a c : Word) (s u : State) : Prop where
  status : u.bp.status = .ok
  result : u.bp.result.toNat = dataLen d
  parser : u.pp = s.pp
  words : ∀ i w, (frameWords s.bp d a c (frameAux d a c))[i]? = some w → u.txWord i = w

/-- The state with operands in ARG0 and ARG1 of BP (R104). -/
def State.withOperands (s : State) (a c : Word) : State := { s with bp := { s.bp with arg0 := a, arg1 := c } }

theorem State.Inv.withOperands {s : State} (h : s.Inv) (a c : Word) : (s.withOperands a c).Inv :=
  ⟨h.builder.outside .., h.parser, h.buffers.congr rfl rfl rfl⟩

/-- ENCODE of operands that fit and whose checks hold (R104). -/
theorem run_encode {s : State} {d : Descriptor} {a c : Word} {rest : List HostAction} (hs : s.Inv)
    (hr : s.bp.ready = true) (hd : familyTable s.bp.family = some d) (ha : FitsField d .addr a)
    (hc : FitsField d .cmd c) (hk : BuilderChecksHold d (extFlag s.bp.flags) a c)
    (hhost : s.host = encodeActions a c ++ rest) :
    ∃ u, core.run 4 s = .next u ∧ u.host = rest ∧ Encoded d a c s u := by
  have staged : (({ s with host := .wr .bp 0x06 0x1A :: rest } : State).withOperands a c).Inv :=
    (hs.hostSide _ s.lastRead).withOperands a c
  obtain ⟨v, frame, ⟨hwords, -, hregs, hpp, -, hqueue, -⟩, hcur⟩ :=
    ((bframeWritesFrame _ staged).2 d hr hd a c (frameAux d a c) (Nat.mod_eq_of_lt ha).symm (Nat.mod_eq_of_lt hc).symm
      rfl).2 hk
  have ready : v.bp.ready = true := by rw [hregs]; exact hr
  have publish := (bresultPublishesCursor { v with host := rest }).2 ready
  have run : core.run 4 s = .next { v with host := rest, bp := { v.bp with result := v.bp.cursor, status := .ok } } :=
    (run_action 3 hhost (perform_wr (by decide) (by decide) a _)).trans <|
    (run_action 2 rfl (perform_wr (by decide) (by decide) c _)).trans <|
    (run_action 1 rfl ((perform_command (decode_encode .bframe) _).trans frame)).trans <|
    run_action 0 hqueue ((perform_command (decode_encode .bresult) _).trans publish)
  exact ⟨_, run, rfl, rfl, hcur, hpp, fun i w hw => Nat.zero_add i ▸ hwords i w hw⟩

/-- The state once PINPUT has bound a data frame of `n` words, with `m` in RX and no action of the host left (R104,
R194). -/
def State.withBoundFrame (s : State) (n : Word) (m : Memory) : State :=
  { s with
    host := []
    rx := m
    pp := { s.pp with arg0 := n, pstate := .empty, bound := true, kind := .data, len := n, cursor := 0, status := .ok } }

/-- What a Parser accepts depends on its polarity, margin and profile alone (R195). -/
theorem Accepts.congr {p p' : ParserRegs} (hf : p'.flags = p.flags) (hm : p'.margin = p.margin)
    (hprof : p'.profile = p.profile) : Accepts p' = Accepts p := by
  have comparator : symMatch p' = symMatch p := by
    funext w hi lo
    simp only [symMatch, hf, hm]
  funext w e
  cases e <;> simp only [Accepts, classify, comparator, hprof]

/-- LOOPBACK of an accepted frame in TX that passes the Parser's checks (R104). -/
theorem run_loopback {s : State} {d : Descriptor} {a c q n : Word} (hr : s.pp.ready = true)
    (hd : familyTable s.pp.family = some d) (ha : FitsField d .addr a) (hc : FitsField d .cmd c) (hq : FitsField d .aux q)
    (hn : n.toNat = dataLen d) (haccepts : ∀ i e, (frameExpected d a c q)[i]? = some e → Accepts s.pp (s.txWord i) e)
    (hk : ParserChecksHold d (extFlag s.pp.flags) a c q) (hhost : s.host = loopbackActions n) :
    ∃ t, core.run 4 s = .next t ∧ t.bp = s.bp ∧ Decoded a c q t := by
  have hw := familyTable_wf hd
  obtain ⟨m, hm⟩ := copy_form' n.toNat { s with host := decodeActions n }
  have copied : ∀ i, i < dataLen d → (s.withBoundFrame n m).rxWord i = s.txWord i := fun i hi => by
    have word := rxWord_copy (hn.trans_le (dataLen_le_txCap hw)) (hn.trans_le (dataLen_le_rxCap hw)) i
      { s with host := decodeActions n }
    rw [hm, hn, if_pos hi] at word
    exact word
  have accepted : ∀ i e, (frameExpected d a c q)[i]? = some e →
      Accepts (s.withBoundFrame n m).pp ((s.withBoundFrame n m).rxWord i) e := fun i e he => by
    obtain ⟨hi, -⟩ := List.getElem?_eq_some_iff.mp he
    have length := frameExpected_length hw a c q
    rw [copied i (by omega), Accepts.congr rfl rfl rfl]
    exact haccepts i e he
  obtain ⟨t, scanned, -, -, ⟨⟨hbp, -⟩, -⟩, decoded, -⟩ :=
    pscanDecodesAcceptedFrame (s.withBoundFrame n m) d a c q hr rfl rfl hd ha hc hq accepted
  have framed := ((pinputFramesByLength
    { s with host := [.wr .pp 0x06 0x23], rx := m, pp := { s.pp with arg0 := n } }).2 d hr hd).1 hn
  have run : core.run 4 s = .next t :=
    (run_action 3 hhost (congrArg Host.Outcome.next hm)).trans <|
    (run_action 2 rfl (perform_wr (by decide) (by decide) n _)).trans <|
    (run_action 1 rfl ((perform_command (decode_encode .pinput) _).trans framed)).trans <|
    run_action 0 rfl ((perform_command (decode_encode .pscan) _).trans scanned)
  exact ⟨t, run, hbp, decoded hk⟩

/-- Settles O31: ENCODE leaves in TX a frame the Parser accepts, and LOOPBACK decodes it. -/
theorem loopbackRoundTrip : Obligations.LoopbackRoundTrip := by
  intro s d a c n hs hrb hrp hd hfam hclk hinv hm hapart ha hc hkb hkp hn
  have hw := familyTable_wf hd
  have hd' : familyTable s.pp.family = some d := hfam ▸ hd
  have tuned : Tuned s.bp s.pp := tuned_of_built (hs.built hrb hd) (hs.parserBuilt hrp hd') hclk hinv hm hapart
  obtain ⟨u, encode, hhost, ⟨hstatus, hresult, hparser, hwords⟩⟩ :=
    run_encode (s := { s with host := encodeActions a c ++ loopbackActions n }) (hs.hostSide _ s.lastRead) hrb hd ha hc
      hkb rfl
  have accepted : ∀ i e, (frameExpected d a c (frameAux d a c))[i]? = some e → Accepts u.pp (u.txWord i) e :=
    fun i e he => by
      obtain ⟨w, hword, hacc⟩ := tuned.accepts_frame hw a c (frameAux d a c) he
      rw [hwords i w hword, hparser]
      exact hacc
  obtain ⟨t, loopback, hbp, ⟨hok, -, haddr, hcmd, haux, hrep, -⟩⟩ :=
    run_loopback (n := n) (by rw [hparser]; exact hrp) (by rw [hparser]; exact hd') ha hc (frameAux_fits hw a c) hn
      accepted (by rw [hparser]; exact parserChecks_frameAux hw hkp) hhost
  refine ⟨t, (run_add 4 encode).trans loopback, by rw [hbp, hstatus], ?_, hok, haddr, hcmd, haux, hrep⟩
  rw [hbp]
  exact BitVec.eq_of_toNat_eq (hresult.trans hn.symm)

end Sys2Proof.Machine
end

section
/-! PROOFS. The cache: SCAN_DATA is its one writer, and PNEW, PDEL and reset empty it (R202). -/

namespace Sys2Proof.Machine

open Sys2Proof

/-! ## What an operation does to the cache -/

/-- The cache of `p` is empty (R31, R202). -/
def CacheEmpty (p : ParserRegs) : Prop := p.lastValid = false ∧ p.lastAddr = 0 ∧ p.lastCmd = 0

/-- The cache of `p` holds the address and the command of the data frame it reports (R199). -/
def CacheReported (p : ParserRegs) : Prop :=
  p.lastValid = true ∧ p.lastAddr = p.resAddr ∧ p.lastCmd = p.resCmd ∧ p.resRepeat = false

/-- A data scan that fails leaves the cache, one that returns OK stores what it reports (R199, R202). -/
theorem scanData_cache (s : State) :
    SameCache s.pp (scanData s).2 ∨ (scanData s).1 = .ok ∧ CacheReported (scanData s).2 := by
  unfold scanData
  split
  · exact .inl ⟨rfl, rfl, rfl⟩
  · split
    · exact .inr ⟨rfl, rfl, rfl, rfl, rfl⟩
    · exact .inl ⟨rfl, rfl, rfl⟩

/-- A repeat scan leaves the cache (R197, R202). -/
theorem scanRepeat_cache (s : State) : SameCache s.pp (scanRepeat s).2 := by
  unfold scanRepeat
  split
  · split <;> exact ⟨rfl, rfl, rfl⟩
  · exact ⟨rfl, rfl, rfl⟩

/-- Only a scan of a frame that is no repeat frame stores to the cache (R202). -/
theorem scan_cache (s : State) :
    SameCache s.pp (scan s).2 ∨ (scan s).1 = .ok ∧ s.pp.kind ≠ .repeated ∧ CacheReported (scan s).2 := by
  unfold scan
  split
  · exact .inl (scanRepeat_cache s)
  · next hk => exact (scanData_cache s).imp_right fun h => ⟨h.1, hk ▸ nofun, h.2⟩
  · next hk => exact (scanData_cache s).imp_right fun h => ⟨h.1, hk ▸ nofun, h.2⟩

/-- The three things an operation can do to the cache (R202). -/
theorem exec_cache {i : Instr} {s t : State} (h : exec i s = .next t) :
    SameCache s.pp t.pp ∨ (i = .pscan ∧ t.pp.status = .ok ∧ s.pp.kind ≠ .repeated ∧ CacheReported t.pp)
      ∨ (i = .pnew ∨ i = .pdel) ∧ CacheEmpty t.pp := by
  have kept (hp : i.port = .bp) : SameCache s.pp t.pp := by
    obtain ⟨hpp, -⟩ := exec_onlyBuilder hp h
    rw [hpp]
    exact ⟨rfl, rfl, rfl⟩
  cases i with
  | conv p =>
    obtain rfl | ⟨r, rfl⟩ := conv_cases h
    · cases p <;> exact .inl ⟨rfl, rfl, rfl⟩
    · cases p <;> exact .inl ⟨rfl, rfl, rfl⟩
  | pnew =>
    obtain ⟨c, rfl⟩ | ⟨d, -, -, -, rfl⟩ := pnew_cases h
    · exact .inl ⟨rfl, rfl, rfl⟩
    · exact .inr (.inr ⟨.inl rfl, rfl, rfl, rfl⟩)
  | pdel =>
    obtain ⟨-, rfl⟩ | ⟨-, rfl⟩ := pdel_cases h
    · exact .inl ⟨rfl, rfl, rfl⟩
    · exact .inr (.inr ⟨.inr rfl, rfl, rfl, rfl⟩)
  | pinput =>
    obtain rfl | ⟨-, k, -, rfl⟩ | ⟨-, rfl⟩ := pinput_cases h
    · exact .inl ⟨rfl, rfl, rfl⟩
    · exact .inl ⟨rfl, rfl, rfl⟩
    · exact .inl ⟨rfl, rfl, rfl⟩
  | pscan =>
    obtain rfl | ⟨-, -, rfl⟩ := pscan_cases h
    · exact .inl ⟨rfl, rfl, rfl⟩
    · exact (scan_cache s).imp_right fun ⟨hok, hk, hc⟩ => .inl ⟨rfl, hok, hk, hc⟩
  | _ => exact .inl (kept rfl)

/-- Settles O38, by cases on the action: a command word is that of its operation, and the other actions but a reset do
not reach the cache. -/
theorem cacheHasOneWriter : Obligations.CacheHasOneWriter := by
  intro s t h
  obtain ⟨-, rfl⟩ | ⟨p, w, rest, hhost, ⟨i, hdec, he⟩ | rfl⟩ | ⟨p, i, v, rest, -, -, rfl⟩ | ⟨rest, r, -, rfl⟩
    | ⟨b, i, v, rest, -, rfl⟩ | ⟨n, rest, -, rfl⟩ | ⟨rest, hhost, rfl⟩ := step_cases h
  · exact .inl ⟨rfl, rfl, rfl⟩
  · obtain ⟨rfl, rfl⟩ := port_encode_of_decode hdec
    obtain hsame | ⟨rfl, hok, hk, hc⟩ | ⟨rfl | rfl, hempty⟩ := exec_cache he
    · exact .inl hsame
    · exact .inr (.inl ⟨⟨rest, hhost⟩, hok, hk, hc⟩)
    · exact .inr (.inr ⟨.inl ⟨rest, hhost⟩, hempty⟩)
    · exact .inr (.inr ⟨.inr (.inl ⟨rest, hhost⟩), hempty⟩)
  · cases p <;> exact .inl ⟨rfl, rfl, rfl⟩
  · obtain ⟨_, _, _, _, _, _, hpp⟩ := writeReg_pp p i v { s with host := rest }
    rw [hpp]
    exact .inl ⟨rfl, rfl, rfl⟩
  · exact .inl ⟨rfl, rfl, rfl⟩
  · obtain ⟨m, hm, -⟩ := hostWrite_form b i v { s with host := rest }
    rw [hm]
    exact .inl ⟨rfl, rfl, rfl⟩
  · obtain ⟨m, hm⟩ := copy_form' n { s with host := rest }
    rw [hm]
    exact .inl ⟨rfl, rfl, rfl⟩
  · exact .inr (.inr ⟨.inr (.inr ⟨rest, hhost⟩), rfl, rfl, rfl⟩)

end Sys2Proof.Machine
end

section
/-! PROOFS. The family table: the tags that name no family, and the reference descriptors (R237, R243 to R245). -/

namespace Sys2Proof.Machine

open Sys2Proof

/-! ## The tags of the family table (R237) -/

/-- Tag 0 names no family (R237). -/
@[simp] theorem familyTable_zero : familyTable 0 = none := rfl

@[simp] theorem familyTable_refA : familyTable 0x80 = some refA := rfl

@[simp] theorem familyTable_refB : familyTable 0x81 = some refB := rfl

@[simp] theorem familyTable_refC : familyTable 0x82 = some refC := rfl

/-- A tag past the reference descriptors names no family, whether or not it fits 8 bits (R28, R237). -/
theorem familyTable_of_ge {tag : Word} (h : 0x83 ≤ tag.toNat) : familyTable tag = none := by
  rw [familyTable, if_neg (by omega : tag.toNat ≠ 0), if_neg (by omega : ¬ tag.toNat ≤ 0x7F),
    if_neg (by omega : tag.toNat ≠ 0x80), if_neg (by omega : tag.toNat ≠ 0x81), if_neg (by omega : tag.toNat ≠ 0x82)]

/-! ## The lengths and capabilities of the reference descriptors (R234, R238, R243 to R245) -/

/-- 16 + 32 bits and no gap, with a repeat frame (R243). -/
theorem refA_lengths : dataLen refA = 51 ∧ repeatLen refA = 3 ∧ capsWord refA = 0b001 := by decide

/-- Twice 5 + 10 bits with a gap between, and no repeat frame (R244). -/
theorem refB_lengths : dataLen refB = 34 ∧ repeatLen refB = 0 ∧ capsWord refB = 0b010 := by decide

/-- 28 + 28 + 4 bits and no gap, with a repeat frame and an aux field (R245). -/
theorem refC_lengths : dataLen refC = 63 ∧ repeatLen refC = 3 ∧ capsWord refC = 0b101 := by decide

/-- Settles O13, from the table's entries and the three descriptors. -/
theorem referenceFamilies : Obligations.ReferenceFamilies :=
  ⟨familyTable_zero, fun _ => familyTable_of_ge, familyTable_refA, familyTable_refB, familyTable_refC,
    refA_lengths, refB_lengths, refC_lengths⟩

end Sys2Proof.Machine
end

section
/-! PROOFS. Errors: what an operation answers in the end, the code it leaves, and what a failed operation has changed. -/

namespace Sys2Proof.Machine

open Sys2Proof

/-! ## The ways an operation can end (R261 to R268) -/

/-- A legal operation can refuse to start with this code: it raises it before its first write (R261, R265, R268). -/
inductive Refuses : Instr → Status → Prop
  | config {i : Instr} (h : (∃ p, i = .conv p) ∨ i = .bnew ∨ i = .pnew) : Refuses i .errConfig
  | struct : Refuses .bframe .errStruct
  | unsupported {i : Instr} (h : i = .mkgap ∨ i = .brepeat) : Refuses i .errUnsupported

/-- The operations that start a frame at index 0 (R152, R157, R160). -/
def StartsFrame (i : Instr) : Prop := i = .mkhead ∨ i = .bframe ∨ i = .brepeat

/-- How a scan of the registers `p` that returned the code `c` and the registers `q` has failed (R262, R264 to R266). -/
structure ScanFailed (c : Status) (p q : ParserRegs) : Prop where
  code : c = .errTiming ∨ c = .errStruct ∨ c = .errNocache ∧ p.kind = .repeated ∧ p.lastValid = false
  pstate : q.pstate = .failed
  results : SameResults p q
  cache : SameCache p q

/-- What an operation can answer from `s`: one way of success and, for each kind of failure, what it has changed (R263). -/
inductive Answered (s : State) : Instr → State → Prop
  | notLegal {i : Instr} (h : NotLegal s i) : Answered s i (s.setStatus i.port .errState)
  | refused {i : Instr} {c : Status} (h : ¬NotLegal s i) (hc : Refuses i c) : Answered s i (s.setStatus i.port c)
  /-- A frame ran into CAPACITY after words of it were written; `State.Inv.no_overrun` excludes it in reachable states. -/
  | overrun {i : Instr} {t : State} (hi : StartsFrame i) (hr : s.bp.ready = true)
      (ht : t.statusOf i.port = .errState) : Answered s i t
  | unframed (hr : s.pp.ready = true) :
      Answered s .pinput (({ s with pp := { unbind s.pp with pstate := .failed } } : State).setStatus .pp .errFraming)
  | scanFailed {c : Status} {q : ParserRegs} (hr : s.pp.ready = true) (hb : s.pp.bound = true) (hs : scan s = (c, q))
      (h : ScanFailed c s.pp q) :
      Answered s .pscan (({ s with pp := { q with bound := false } } : State).setStatus .pp c)
  | done {i : Instr} {t : State} (h : ¬NotLegal s i) (ht : t.statusOf i.port = .ok) : Answered s i t

/-! ## The Builder -/

theorem conv_answered {p : Port} {s t : State} (h : exec (.conv p) s = .next t) : Answered s (.conv p) t := by
  obtain rfl | ⟨r, rfl⟩ := conv_cases h
  · exact .refused id (.config (.inl ⟨p, rfl⟩))
  · exact .done id (State.statusOf_setStatus _ p .ok)

theorem bnew_answered {s t : State} (h : exec .bnew s = .next t) : Answered s .bnew t := by
  obtain ⟨built, unknown, -⟩ := bnewConstructsBuilder s
  by_cases hr : s.bp.ready = true
  · cases (built hr).symm.trans h
    exact .notLegal hr
  · have hr' : s.bp.ready = false := Bool.eq_false_of_not_eq_true hr
    have refuses (he : exec .bnew s = .next (s.setStatus .bp .errConfig)) : Answered s .bnew t := by
      cases he.symm.trans h
      exact .refused hr (.config (.inr (.inl rfl)))
    cases hd : familyTable s.bp.cfgFamily with
    | none => exact refuses (unknown hr' hd)
    | some d =>
      by_cases hbad : s.bp.cfgClkHz.toNat = 0 ∨ s.bp.cfgCapacity.toNat = 0 ∨ s.bp.cfgCapacity.toNat < dataLen d
          ∨ Config.txCap < s.bp.cfgCapacity.toNat ∨ 0x7FFF < maxDur d (resolve d s.bp.cfgClkHz.toNat)
      · exact refuses (bnew_errConfig hr' hd hbad)
      · simp only [not_or, Nat.not_lt] at hbad
        obtain ⟨hz, -, hlow, hhigh, hdur⟩ := hbad
        cases (bnew_ok hr' hd hz hlow hhigh hdur).symm.trans h
        exact .done hr rfl

theorem bdel_answered {s t : State} (h : exec .bdel s = .next t) : Answered s .bdel t := by
  obtain ⟨hr, rfl⟩ | ⟨hr, rfl⟩ := bdel_cases h
  · exact .notLegal hr
  · exact .done (ne_false_of_eq_true hr) rfl

/-- On an idle Builder the operations of a constructed one are not legal (R267). -/
theorem whenReady_idle_answered {i : Instr} {s t : State} {a : Attempt} (hp : i.port = .bp) (hl : NotLegal s i)
    (hr : s.bp.ready = false) (h : whenReady s a = .next t) : Answered s i t := by
  cases (whenReady_idle hr a).symm.trans h
  exact hp ▸ .notLegal hl

theorem bresult_answered {s t : State} (h : exec .bresult s = .next t) : Answered s .bresult t := by
  cases hr : s.bp.ready with
  | false => exact whenReady_idle_answered rfl hr hr h
  | true =>
    cases (whenReady_done hr).symm.trans h
    exact .done (ne_false_of_eq_true hr) rfl

/-- An operation that refuses on a constructed Builder changes STATUS alone (R263). -/
theorem refusal_answered {i : Instr} {s t : State} {c : Status} (hp : i.port = .bp)
    (hl : NotLegal s i ↔ s.bp.ready = false) (hc : Refuses i c) (h : whenReady s (.raised c s) = .next t) :
    Answered s i t := by
  cases hr : s.bp.ready with
  | false => exact whenReady_idle_answered hp (hl.mpr hr) hr h
  | true =>
    cases (whenReady_raised hr).symm.trans h
    exact hp ▸ .refused (hl.not.mpr (ne_false_of_eq_true hr)) hc

/-- An emission at the cursor is legal exactly where its words fit (R151, R267). -/
theorem emission_answered {i : Instr} {s t : State} {ws : List Word} (hp : i.port = .bp)
    (hl : NotLegal s i ↔ s.bp.ready = false ∨ s.bp.capacity.toNat < s.bp.cursor.toNat + ws.length)
    (h : whenReady s (emit ws s) = .next t) : Answered s i t := by
  by_cases hn : NotLegal s i
  · cases (whenReady_emit_refused (hl.mp hn)).symm.trans h
    exact hp ▸ .notLegal hn
  · obtain ⟨hr, hroom⟩ := not_or.mp (hl.not.mp hn)
    rw [emit_of_fits (Nat.not_lt.mp hroom), whenReady_done (Bool.eq_true_of_not_eq_false hr)] at h
    cases h
    exact .done hn (hp ▸ State.statusOf_setStatus _ i.port .ok)

theorem mkgap_answered {s t : State} (h : exec .mkgap s = .next t) : Answered s .mkgap t := by
  rw [exec, execMkgap] at h
  split at h
  · next hg =>
    have gap : (descriptorAt s.bp.family).hasGap = true := hg
    exact emission_answered rfl (or_congr_right (and_iff_right gap)) h
  · next hg =>
    have legal : NotLegal s .mkgap ↔ s.bp.ready = false := or_iff_left fun hn => hg hn.1
    exact refusal_answered rfl legal (.unsupported (.inl rfl)) h

/-! ## Emissions from index 0 -/

/-- The attempt can fail only for want of room (R151). -/
def Attempt.FailsFull (a : Attempt) : Prop := ∀ c u, a = .raised c u → c = .errState

theorem done_failsFull (s : State) : (Attempt.done s).FailsFull := fun _ _ h => Attempt.noConfusion h

theorem emit_failsFull (ws : List Word) (s : State) : (emit ws s).FailsFull := by
  by_cases hf : Fits ws s
  · rw [emit_of_fits hf]
    exact done_failsFull _
  · rw [emit_of_full hf]
    intro c u h
    cases h
    rfl

theorem andThen_failsFull {a : Attempt} {f : State → Attempt} (ha : a.FailsFull) (hf : ∀ u, (f u).FailsFull) :
    (a.andThen f).FailsFull := by
  cases a with
  | done u => exact hf u
  | raised c u => exact ha

theorem emitBits_failsFull (bs : List Bool) (s : State) : (emitBits bs s).FailsFull := by
  induction bs generalizing s with
  | nil => exact done_failsFull s
  | cons b bs ih => exact andThen_failsFull (emit_failsFull _ s) ih

theorem emitSegment_failsFull (a c q : Word) (g : Segment) (s : State) : (emitSegment a c q g s).FailsFull := by
  cases g with
  | head => exact emit_failsFull _ (s.setCursor 0)
  | field src w o inv => exact emitBits_failsFull _ s
  | gap => exact emit_failsFull _ s
  | endMark => exact emit_failsFull _ s

/-- A walk over a template fails only for want of room (R157). -/
theorem emitTemplate_failsFull (a c q : Word) (gs : List Segment) (s : State) :
    (emitTemplate a c q gs s).FailsFull := by
  induction gs generalizing s with
  | nil => exact done_failsFull s
  | cons g gs ih => exact andThen_failsFull (emitSegment_failsFull a c q g s) ih

theorem StartsFrame.port {i : Instr} (hi : StartsFrame i) : i.port = .bp := by
  obtain rfl | rfl | rfl := hi <;> rfl

theorem StartsFrame.notLegal_iff {i : Instr} (hi : StartsFrame i) (s : State) :
    NotLegal s i ↔ s.bp.ready = false := by
  obtain rfl | rfl | rfl := hi <;> rfl

/-- An operation that starts a frame is legal on every constructed Builder, and ends in success or for want of room. -/
theorem frame_answered {i : Instr} {s t : State} {a : Attempt} (hi : StartsFrame i) (ha : a.FailsFull)
    (h : whenReady s a = .next t) : Answered s i t := by
  cases hr : s.bp.ready with
  | false => exact whenReady_idle_answered hi.port ((hi.notLegal_iff s).mpr hr) hr h
  | true =>
    cases a with
    | done u =>
      cases (whenReady_done hr).symm.trans h
      exact .done ((hi.notLegal_iff s).not.mpr (ne_false_of_eq_true hr))
        (hi.port ▸ State.statusOf_setStatus u .bp .ok)
    | raised c u =>
      obtain rfl := ha c u rfl
      cases (whenReady_raised hr).symm.trans h
      exact .overrun hi hr (hi.port ▸ State.statusOf_setStatus u .bp .errState)

theorem bframe_answered {s t : State} (h : exec .bframe s = .next t) : Answered s .bframe t := by
  rw [exec, execBframe] at h
  split at h
  · exact frame_answered (.inr (.inl rfl)) (emitTemplate_failsFull _ _ _ _ s) h
  · exact refusal_answered rfl Iff.rfl .struct h

theorem brepeat_answered {s t : State} (h : exec .brepeat s = .next t) : Answered s .brepeat t := by
  rw [exec, execBrepeat] at h
  split at h
  · have full := andThen_failsFull (emit_failsFull [repeatSymbol s.bp] (s.setCursor 0)) (f := emitEnd)
      fun u => emit_failsFull _ u
    exact frame_answered (.inr (.inr rfl)) full h
  · exact refusal_answered rfl Iff.rfl (.unsupported (.inr rfl)) h

/-- Every constructed Builder of a reachable state has room for a whole frame (R164). -/
theorem State.Inv.no_overrun {i : Instr} {s t : State} (hs : s.Inv) (hr : s.bp.ready = true) (hi : StartsFrame i)
    (h : exec i s = .next t) : t.bp.status ≠ .errState := by
  obtain ⟨d, hb⟩ := hs.builder.2 hr
  obtain rfl | rfl | rfl := hi
  · cases (mkhead_ok hs hr).symm.trans h
    nofun
  · rw [exec, execBframe, builderDescriptor, descriptorAt_of_some hb.family,
      emitTemplate_frame (familyTable_wf hb.family) _ _ _ s hb.frameFits] at h
    split at h
    · cases (whenReady_done hr).symm.trans h
      nofun
    · cases (whenReady_raised hr).symm.trans h
      nofun
  · have fits : Fits (repeatWords s.bp) (s.setCursor 0) :=
      fits_home ((by decide : 3 ≤ 5).trans (hs.five_le_capacity hr))
    rw [brepeat_eq hb.family, emitRepeat_of_fits fits] at h
    split at h
    · cases (whenReady_done hr).symm.trans h
      nofun
    · cases (whenReady_raised hr).symm.trans h
      nofun

/-! ## The Parser -/

theorem pnew_answered {s t : State} (h : exec .pnew s = .next t) : Answered s .pnew t := by
  obtain ⟨built, unknown, -⟩ := pnewConstructsParser s
  by_cases hr : s.pp.ready = true
  · cases (built hr).symm.trans h
    exact .notLegal hr
  · have hr' : s.pp.ready = false := Bool.eq_false_of_not_eq_true hr
    have refuses (he : exec .pnew s = .next (s.setStatus .pp .errConfig)) : Answered s .pnew t := by
      cases he.symm.trans h
      exact .refused hr (.config (.inr (.inr rfl)))
    cases hd : familyTable s.pp.cfgFamily with
    | none => exact refuses (unknown hr' hd)
    | some d =>
      by_cases hbad : s.pp.cfgClkHz.toNat = 0 ∨ 0xFFFFFFFF < maxDur d (resolve d s.pp.cfgClkHz.toNat)
          ∨ 0xFFFFFFFF < ticks s.pp.cfgMarginUs.toNat s.pp.cfgClkHz.toNat
      · exact refuses (pnew_errConfig hr' hd hbad)
      · simp only [not_or, Nat.not_lt] at hbad
        obtain ⟨hz, hdur, hm⟩ := hbad
        cases (pnew_ok hr' hd hz hdur hm).symm.trans h
        exact .done hr rfl

theorem pdel_answered {s t : State} (h : exec .pdel s = .next t) : Answered s .pdel t := by
  obtain ⟨hr, rfl⟩ | ⟨hr, rfl⟩ := pdel_cases h
  · exact .notLegal hr
  · exact .done (ne_false_of_eq_true hr) rfl

theorem pinput_answered {s t : State} (h : exec .pinput s = .next t) : Answered s .pinput t := by
  cases hr : s.pp.ready with
  | false =>
    cases ((pinputFramesByLength s).1 hr).symm.trans h
    exact .notLegal hr
  | true =>
    rw [exec, execPinput, if_pos hr] at h
    split at h
    · cases h
      exact .done (ne_false_of_eq_true hr) rfl
    · cases h
      exact .unframed hr

/-- A repeat scan fails on its record or on an empty cache (R197). -/
theorem scanRepeat_failed (s : State) (hk : s.pp.kind = .repeated) :
    (scanRepeat s).1 = .ok ∨ ScanFailed (scanRepeat s).1 s.pp (scanRepeat s).2 := by
  unfold scanRepeat
  split
  · split
    · exact .inl rfl
    · next hv =>
      exact .inr ⟨.inr (.inr ⟨rfl, hk, Bool.eq_false_of_not_eq_true hv⟩), rfl, ⟨rfl, rfl, rfl, rfl⟩, rfl, rfl, rfl⟩
  · exact .inr ⟨.inl rfl, rfl, ⟨rfl, rfl, rfl, rfl⟩, rfl, rfl, rfl⟩

/-- A data scan fails on a record or on the checks (R199). -/
theorem scanData_failed (s : State) :
    (scanData s).1 = .ok ∨ ScanFailed (scanData s).1 s.pp (scanData s).2 := by
  unfold scanData
  split
  · next k hk => exact .inr ⟨.inl rfl, walk_ends_failed s _ _ k hk, ⟨rfl, rfl, rfl, rfl⟩, rfl, rfl, rfl⟩
  · split
    · exact .inl rfl
    · exact .inr ⟨.inr (.inl rfl), rfl, ⟨rfl, rfl, rfl, rfl⟩, rfl, rfl, rfl⟩

theorem scan_failed (s : State) : (scan s).1 = .ok ∨ ScanFailed (scan s).1 s.pp (scan s).2 := by
  unfold scan
  split
  · next hk => exact scanRepeat_failed s hk
  · exact scanData_failed s
  · exact scanData_failed s

/-- PSCAN without a constructed Parser and a bound buffer is a state error (R198, R267). -/
theorem pscan_notLegal {s : State} (h : NotLegal s .pscan) : exec .pscan s = .next (s.setStatus .pp .errState) := by
  have closed : (s.pp.ready && s.pp.bound) = false := Bool.and_eq_false_iff.mpr h
  rw [exec, execPscan, closed]
  rfl

theorem pscan_answered {s t : State} (h : exec .pscan s = .next t) : Answered s .pscan t := by
  by_cases hn : NotLegal s .pscan
  · cases (pscan_notLegal hn).symm.trans h
    exact .notLegal hn
  · obtain ⟨hr, hb⟩ := not_or.mp hn
    rw [Bool.not_eq_false] at hr hb
    cases (pscan_bound hr hb).symm.trans h
    exact (scan_failed s).elim (fun hok => .done hn hok) (.scanFailed hr hb rfl)

/-- Every operation answers in one of these ways (R263). -/
theorem exec_answered {i : Instr} {s t : State} (h : exec i s = .next t) : Answered s i t := by
  cases i with
  | conv p => exact conv_answered h
  | bnew => exact bnew_answered h
  | bdel => exact bdel_answered h
  | mkhead => exact frame_answered (.inl rfl) (emit_failsFull _ (s.setCursor 0)) h
  | mkl0 => exact emission_answered rfl Iff.rfl h
  | mkl1 => exact emission_answered rfl Iff.rfl h
  | mkend => exact emission_answered rfl Iff.rfl h
  | mkgap => exact mkgap_answered h
  | bframe => exact bframe_answered h
  | brepeat => exact brepeat_answered h
  | bresult => exact bresult_answered h
  | pnew => exact pnew_answered h
  | pdel => exact pdel_answered h
  | pinput => exact pinput_answered h
  | pscan => exact pscan_answered h

/-! ## Which operation leaves which code (R261 to R268) -/

/-- A legal operation does not refuse with ERR_STATE (R267). -/
theorem Refuses.ne_errState {i : Instr} {c : Status} (h : Refuses i c) : c ≠ .errState := by
  cases h <;> nofun

/-- PINPUT and PSCAN, once started, have written before they fail (R263). -/
theorem Refuses.ne_pinput_pscan {i : Instr} {c : Status} (h : Refuses i c) : i ≠ .pinput ∧ i ≠ .pscan := by
  cases h with
  | config hi => obtain ⟨p, rfl⟩ | rfl | rfl := hi <;> exact ⟨nofun, nofun⟩
  | struct => exact ⟨nofun, nofun⟩
  | unsupported hi => obtain rfl | rfl := hi <;> exact ⟨nofun, nofun⟩

/-- A scan does not fail with ERR_STATE (R267). -/
theorem ScanFailed.ne_errState {c : Status} {p q : ParserRegs} (h : ScanFailed c p q) : c ≠ .errState := by
  obtain rfl | rfl | ⟨rfl, -⟩ := h.code <;> nofun

/-- Settles O34, code by code over the ways an operation can end. -/
theorem statusNamesItsOperations : Obligations.StatusNamesItsOperations := by
  intro i s t h
  cases exec_answered h with
  | notLegal hn =>
    rw [State.statusOf_setStatus]
    exact ⟨nofun, nofun, nofun, nofun, nofun⟩
  | refused hn hc =>
    rw [State.statusOf_setStatus]
    cases hc with
    | config hi => exact ⟨fun _ => hi, nofun, nofun, nofun, nofun⟩
    | struct => exact ⟨nofun, nofun, fun _ => .inl rfl, nofun, nofun⟩
    | unsupported hi => exact ⟨nofun, nofun, nofun, nofun, fun _ => hi⟩
  | overrun hi hr ht =>
    rw [ht]
    exact ⟨nofun, nofun, nofun, nofun, nofun⟩
  | unframed hr => exact ⟨nofun, fun _ => rfl, nofun, nofun, nofun⟩
  | scanFailed hr hb hscan hf =>
    obtain rfl | rfl | ⟨rfl, hk, hv⟩ := hf.code
    · exact ⟨nofun, nofun, nofun, nofun, nofun⟩
    · exact ⟨nofun, nofun, fun _ => .inr rfl, nofun, nofun⟩
    · exact ⟨nofun, nofun, nofun, fun _ => ⟨rfl, hk, hv⟩, nofun⟩
  | done hn ht =>
    rw [ht]
    exact ⟨nofun, nofun, nofun, nofun, nofun⟩

/-- A timing error is a scan's (R264). -/
theorem pscan_of_errTiming {i : Instr} {s t : State} (h : exec i s = .next t) (ht : t.statusOf i.port = .errTiming) :
    i = .pscan := by
  cases exec_answered h with
  | notLegal hn => rw [State.statusOf_setStatus] at ht; cases ht
  | refused hn hc => rw [State.statusOf_setStatus] at ht; subst ht; cases hc
  | overrun hi hr hst => rw [hst] at ht; cases ht
  | unframed hr => cases ht
  | scanFailed hr hb hscan hf => rfl
  | done hn hok => rw [hok] at ht; cases ht

/-! ## State errors (R267) -/

/-- Settles O32: of the ways an operation can end, only that of an illegal one leaves ERR_STATE, since in a reachable
state no frame runs into CAPACITY. -/
theorem stateErrorExactlyWhenNotLegal : Obligations.StateErrorExactlyWhenNotLegal := by
  intro i s t hs h
  have legal (hn : ¬NotLegal s i) (hst : t.statusOf i.port ≠ .errState) :
      (t.statusOf i.port = .errState ↔ NotLegal s i) ∧ (NotLegal s i → t = s.setStatus i.port .errState) :=
    ⟨iff_of_false hst hn, fun h => absurd h hn⟩
  cases exec_answered h with
  | notLegal hn => exact ⟨iff_of_true (State.statusOf_setStatus s i.port .errState) hn, fun _ => rfl⟩
  | refused hn hc => exact legal hn (by rw [State.statusOf_setStatus]; exact hc.ne_errState)
  | overrun hi hr ht =>
    rw [hi.port] at ht
    exact absurd ht (hs.no_overrun hr hi h)
  | unframed hr => exact legal (ne_false_of_eq_true hr) nofun
  | scanFailed hr hb hscan hf =>
    have scans : ¬NotLegal s .pscan :=
      not_or.mpr ⟨ne_false_of_eq_true hr, ne_false_of_eq_true hb⟩
    exact legal scans hf.ne_errState
  | done hn ht => exact legal hn (by rw [ht]; nofun)

/-! ## The effects of a failure (R263) -/

/-- The cursor register holds the number of records a walk over a frame has read (R24). -/
theorem withWalk_cursor {s : State} {d : Descriptor} {k : Walk} (hd : familyTable s.pp.family = some d)
    (h : walkTemplate s d.template (Walk.start s.pp) = .matched k
      ∨ walkTemplate s d.template (Walk.start s.pp) = .mismatch k) : (withWalk s.pp k).cursor.toNat = k.cursor :=
  ofNat_toNat ((walk_cursor_le (familyTable_wf hd) h).trans_lt (dataLen_lt (familyTable_wf hd)))

/-- SCAN_DATA after a walk that a record ended (R199). -/
theorem scanData_mismatch {s : State} {d : Descriptor} {k : Walk} (hd : familyTable s.pp.family = some d)
    (h : walkTemplate s d.template (Walk.start s.pp) = .mismatch k) : scanData s = (.errTiming, withWalk s.pp k) := by
  rw [scanData, parserDescriptor, descriptorAt_of_some hd, h]

/-- A data scan reads at least one record (R199). -/
theorem scanData_cursor_pos {s : State} {d : Descriptor} (hd : familyTable s.pp.family = some d) :
    1 ≤ (scanData s).2.cursor.toNat := by
  obtain ⟨k, hk, -⟩ | ⟨n, k, -, hk, hcur, -⟩ := walkTemplate_stops s 0 0 0 d.template (Walk.start s.pp)
  · have read := withWalk_cursor hd (.inl hk)
    have full := walk_matched_cursor (familyTable_wf hd) hk
    have five := five_le_dataLen (familyTable_wf hd)
    rw [scanData_matched hd hk]
    split <;> (change 1 ≤ (withWalk s.pp k).cursor.toNat; omega)
  · rw [scanData_mismatch hd hk, withWalk_cursor hd (.inr hk), hcur]
    exact Nat.le_add_left 1 _

/-- A scan reads at least one record (R197, R199). -/
theorem scan_cursor_pos {s : State} {d : Descriptor} (hd : familyTable s.pp.family = some d) :
    1 ≤ (scan s).2.cursor.toNat := by
  unfold scan
  split
  · unfold scanRepeat
    split
    · split <;> exact Nat.le_refl 1
    · exact Nat.le_refl 1
  · exact scanData_cursor_pos hd
  · exact scanData_cursor_pos hd

/-- A word that decodes to no operation changes STATUS alone (R98, R268). -/
theorem issue_illegal {p : Port} {w : Word} (h : ∀ i, decode p w ≠ .ok i) (s : State) :
    issue p w s = .next (s.setStatus p .errUnsupported) := by
  have answer := perform_illegal h s
  rwa [perform, if_pos rfl] at answer

/-- Settles O33, over the ways an operation can end. -/
theorem failureEffects : Obligations.FailureEffects := by
  refine ⟨fun p w s h => issue_illegal h s, fun i s t hs h hne => ?_⟩
  cases exec_answered h with
  | notLegal hn =>
    rw [State.statusOf_setStatus]
    refine ⟨fun _ _ => rfl, fun _ => rfl, ?_, ?_⟩
    · rintro rfl hst
      exact absurd rfl hst
    · rintro rfl hst
      exact absurd rfl hst
  | refused hn hc =>
    rw [State.statusOf_setStatus]
    obtain ⟨hinput, hscan⟩ := hc.ne_pinput_pscan
    exact ⟨fun _ _ => rfl, fun hst => absurd hst hc.ne_errState, fun hi => absurd hi hinput, fun hi => absurd hi hscan⟩
  | overrun hi hr ht =>
    rw [hi.port] at ht
    exact absurd ht (hs.no_overrun hr hi h)
  | unframed hr => exact ⟨fun hi => absurd rfl hi, nofun, fun _ _ => rfl, nofun⟩
  | scanFailed hr hb hscan hf =>
    obtain ⟨d, hd⟩ := hs.parser.2 hr
    have read := scan_cursor_pos hd.family
    rw [hscan] at read
    refine ⟨fun _ hi => absurd rfl hi, fun hst => absurd hst hf.ne_errState, nofun, fun _ _ => ?_⟩
    exact ⟨hf.code.imp_right (Or.imp_right And.left), read, hf.pstate, rfl, hf.results, hf.cache, pscan_frame hr hb h⟩
  | done hn ht => exact absurd ht hne

/-! ## Timing errors (R264) -/

/-- `t` reports a timing error at the record before `cursor` and keeps all that PSCAN does not report (R264). -/
def TimingFailed (cursor : Nat) (s t : State) : Prop :=
  t.pp.status = .errTiming ∧ t.pp.cursor.toNat = cursor ∧ t.pp.pstate = .failed
    ∧ t.pp.bound = false ∧ SameResults s.pp t.pp ∧ SameCache s.pp t.pp ∧ ScanFrame s t

/-- PSCAN on a data frame with a record that matches nothing expected there stops at the first such (R199, R264). -/
theorem pscan_firstBad {s : State} {d : Descriptor} {n : Nat} (hr : s.pp.ready = true) (hb : s.pp.bound = true)
    (hkind : s.pp.kind = .data) (hd : familyTable s.pp.family = some d)
    (hbad : FirstBad s 0 n (frameExpected d 0 0 0)) : ∃ t, exec .pscan s = .next t ∧ TimingFailed (n + 1) s t := by
  obtain ⟨k, -, -, hall⟩ | ⟨m, k, hbad', hk, hcur, hfailed⟩ := walkTemplate_stops s 0 0 0 d.template (Walk.start s.pp)
  · exact (AllPass.not_bad hall hbad).elim
  · obtain rfl : m = n := FirstBad.unique hbad' hbad
    have answer := pscan_data hr hb hkind
    rw [scanData_mismatch hd hk] at answer
    have cursor : (withWalk s.pp k).cursor.toNat = m + 1 := by
      rw [withWalk_cursor hd (.inr hk), hcur]
      exact congrArg (· + 1) (Nat.zero_add m)
    exact ⟨_, answer, rfl, cursor, hfailed, rfl, ⟨rfl, rfl, rfl, rfl⟩, ⟨rfl, rfl, rfl⟩, pscan_frame hr hb answer⟩

/-- PSCAN on a data frame whose records all match leaves no timing error and has read the whole frame (R199, R264). -/
theorem pscan_allPass {s : State} {d : Descriptor} (hr : s.pp.ready = true) (hb : s.pp.bound = true)
    (hkind : s.pp.kind = .data) (hd : familyTable s.pp.family = some d) (hall : AllPass s 0 (frameExpected d 0 0 0)) :
    ∃ t, exec .pscan s = .next t ∧ t.pp.status ≠ .errTiming ∧ t.pp.cursor.toNat + 2 = dataLen d ∧ ScanFrame s t := by
  obtain ⟨k, hk⟩ := walk_of_allPass 0 0 0 (k := Walk.start s.pp) hall
  obtain ⟨t, answer, -, hcur, hframe, hok, hstruct⟩ := pscan_matched hr hb hkind hd hk
  refine ⟨t, answer, ?_, hcur, hframe⟩
  cases hc : walkChecks s d k with
  | true => rw [(hok hc).1]; nofun
  | false => rw [(hstruct hc).1]; nofun

/-- Settles O29: the walk stops at the first record that matches nothing expected there, and nowhere else. -/
theorem timingErrorAtFirstBadRecord : Obligations.TimingErrorAtFirstBadRecord := by
  refine ⟨fun i s t h => pscan_of_errTiming h, fun s d hr hb hd => ⟨fun hk hbad => ?_, fun hk n e he hbad hfirst => ?_,
    fun hk hall => ?_⟩⟩
  · have answer := (pscanRepeatReturnsCache s hr hb hk).1 hbad
    exact ⟨_, answer, rfl, rfl, rfl, rfl, ⟨rfl, rfl, rfl, rfl⟩, ⟨rfl, rfl, rfl⟩, pscan_frame hr hb answer⟩
  · refine pscan_firstBad hr hb hk hd ⟨⟨e, he, (Nat.zero_add n).symm ▸ hbad⟩, fun m f hm hf => ?_⟩
    exact (Nat.zero_add m).symm ▸ hfirst m f hm hf
  · exact pscan_allPass hr hb hk hd fun n e he => (Nat.zero_add n).symm ▸ hall n e he

end Sys2Proof.Machine
end

section
/-! PROOFS. Reset and hazards: every operation completes, a constructed engine keeps its configuration, no record is the
terminator, REF_A's largest clock, and the reset action. -/

namespace Sys2Proof.Machine

open Sys2Proof

/-! ## Where a step stops (R60, R274, R301) -/

/-- An index outside a port's register file cannot be read (R60). -/
theorem readReg_eq_none {p : Port} {i : Nat} (h : hasRegister p i = false) (s : State) : readReg p i s = none := by
  have outside : ¬ i < (regFile p s).length := fun hi => Bool.false_ne_true (h ▸ (hasRegister_iff p i s).mpr hi)
  rw [readReg_eq, List.getElem?_eq_none (Nat.le_of_not_lt outside)]

/-- A host write outside a port's register file is the model's one fault (R60). -/
theorem perform_wr_outside {p : Port} {i : Nat} (h : hasRegister p i = false) (v : Word) (s : State) :
    perform (.wr p i v) s = .fault (.noSuchRegister p i) := by
  have notCommand : i ≠ commandIndex := by
    rintro rfl
    cases p <;> exact absurd h (by decide)
  rw [perform, if_neg notCommand, h, if_neg Bool.false_ne_true]

/-- A host read outside a port's register file is the same fault (R60). -/
theorem perform_rd_outside {p : Port} {i : Nat} (h : hasRegister p i = false) (s : State) :
    perform (.rd p i) s = .fault (.noSuchRegister p i) := by
  rw [perform, readReg_eq_none h]

/-- A command word completes, whether it names an operation or not (R96, R98, R274). -/
theorem perform_command_total (p : Port) (w : Word) (s : State) : ∃ t, perform (.wr p commandIndex w) s = .next t := by
  by_cases hd : ∃ i, decode p w = .ok i
  · obtain ⟨i, hi⟩ := hd
    rw [perform_command hi]
    exact exec_total i s
  · exact ⟨_, perform_illegal (not_exists.mp hd) s⟩

/-- The action accesses an index outside the register file of `p` (R60). -/
def AccessesOutside (a : HostAction) (p : Port) (i : Nat) : Prop :=
  hasRegister p i = false ∧ ((∃ v, a = .wr p i v) ∨ a = .rd p i)

/-- A host action completes, or accesses a register that does not exist and faults (R60, R274, R301). -/
theorem perform_completes_or_faults (a : HostAction) (s : State) :
    (∃ t, perform a s = .next t) ∨ ∃ p i, perform a s = .fault (.noSuchRegister p i) ∧ AccessesOutside a p i := by
  cases a with
  | wr p i v =>
    by_cases hc : i = commandIndex
    · exact .inl (hc ▸ perform_command_total p v s)
    · cases hr : hasRegister p i with
      | true => exact .inl ⟨_, perform_wr hc hr v s⟩
      | false => exact .inr ⟨p, i, perform_wr_outside hr v s, hr, .inl ⟨v, rfl⟩⟩
  | rd p i =>
    cases hr : hasRegister p i with
    | true =>
      obtain ⟨v, hv⟩ := readReg_of_hasRegister hr s
      exact .inl ⟨_, perform_rd hv⟩
    | false => exact .inr ⟨p, i, perform_rd_outside hr s, hr, .inr rfl⟩
  | rdb b i => exact .inl ⟨_, rfl⟩
  | wrb b i v => exact .inl ⟨_, rfl⟩
  | cp n => exact .inl ⟨_, rfl⟩
  | reset => exact .inl ⟨_, rfl⟩

/-- Settles O35: operations are total, and a step is the host's next action performed, or none. -/
theorem operationsAlwaysComplete : Obligations.OperationsAlwaysComplete := by
  refine ⟨exec_total, fun s => ?_⟩
  rw [step]
  cases s.host with
  | nil => exact .inl ⟨s, rfl⟩
  | cons a rest =>
    obtain completes | ⟨p, i, faults, outside, access⟩ := perform_completes_or_faults a { s with host := rest }
    · exact .inl completes
    · refine .inr ⟨p, i, faults, outside, ?_⟩
      obtain ⟨v, rfl⟩ | rfl := access
      · exact .inl ⟨v, rest, rfl⟩
      · exact .inr ⟨rest, rfl⟩

/-! ## The configuration of a constructed engine (R70, R299) -/

/-- An engine constructed in both states has the same latched configuration in both (R299). -/
def KeepsConfiguration (s t : State) : Prop :=
  (s.bp.ready = true → t.bp.ready = true → SameBuilderConfig s.bp t.bp)
  ∧ (s.pp.ready = true → t.pp.ready = true → SameParserConfig s.pp t.pp)

theorem SameBuilderConfig.refl (b : BuilderRegs) : SameBuilderConfig b b :=
  ⟨rfl, rfl, rfl, rfl, rfl, rfl, rfl, rfl, rfl⟩

theorem SameParserConfig.refl (p : ParserRegs) : SameParserConfig p p :=
  ⟨rfl, rfl, rfl, rfl, rfl, rfl, rfl, rfl⟩

theorem KeepsConfiguration.of_same {s t : State} (hbp : SameBuilderConfig s.bp t.bp)
    (hpp : SameParserConfig s.pp t.pp) : KeepsConfiguration s t :=
  ⟨fun _ _ => hbp, fun _ _ => hpp⟩

/-- Neither engine's registers differ, so neither configuration does. -/
theorem KeepsConfiguration.of_engines {s t : State} (hbp : t.bp = s.bp) (hpp : t.pp = s.pp) : KeepsConfiguration s t :=
  .of_same (hbp ▸ .refl s.bp) (hpp ▸ .refl s.pp)

/-- An operation does not write the configuration of its own engine while that stays constructed, and never that of the
other engine (R20, R299). -/
theorem exec_keepsConfiguration {i : Instr} {s t : State} (h : exec i s = .next t) : KeepsConfiguration s t := by
  cases hp : i.port with
  | bp =>
    obtain ⟨b, m, e, rfl, -, -, -, -, -, -, hconfig⟩ := bp_op hp h
    exact ⟨hconfig, fun _ _ => .refl s.pp⟩
  | pp =>
    obtain ⟨q, rfl, -, hconfig⟩ := pp_op hp h
    exact ⟨fun _ _ => .refl s.bp, hconfig⟩

/-- STATUS is no part of a configuration. -/
theorem setStatus_keepsConfiguration (s : State) (p : Port) (c : Status) : KeepsConfiguration s (s.setStatus p c) := by
  cases p
  · exact .of_same (.refl s.bp) (.refl s.pp)
  · exact .of_same (.refl s.bp) (.refl s.pp)

/-- A host write reaches the staging registers, never what a construction has latched from them (R21, R28). -/
theorem writeReg_keepsConfiguration (p : Port) (i : Nat) (v : Word) (s : State) :
    KeepsConfiguration s (writeReg p i v s) := by
  obtain ⟨_, _, _, _, _, _, hbp⟩ := writeReg_bp p i v s
  obtain ⟨_, _, _, _, _, _, hpp⟩ := writeReg_pp p i v s
  exact .of_same (hbp ▸ .refl s.bp) (hpp ▸ .refl s.pp)

/-- A reset leaves no engine constructed (R34, R290). -/
theorem resetBlock_keepsConfiguration (s : State) : KeepsConfiguration s (resetBlock s) := ⟨nofun, nofun⟩

/-- Settles O39, by cases on the action: besides a command only a reset reaches a latched register, and it leaves no
engine constructed. -/
theorem configurationImmutable : Obligations.ConfigurationImmutable := by
  intro s t h
  obtain ⟨-, rfl⟩ | ⟨p, w, rest, -, ⟨i, -, he⟩ | rfl⟩ | ⟨p, i, v, rest, -, -, rfl⟩ | ⟨rest, r, -, rfl⟩
    | ⟨b, i, v, rest, -, rfl⟩ | ⟨n, rest, -, rfl⟩ | ⟨rest, -, rfl⟩ := step_cases h
  · exact KeepsConfiguration.of_engines rfl rfl
  · exact exec_keepsConfiguration (s := { s with host := rest }) he
  · exact setStatus_keepsConfiguration { s with host := rest } p _
  · exact writeReg_keepsConfiguration p i v { s with host := rest }
  · exact KeepsConfiguration.of_engines rfl rfl
  · obtain ⟨m, hm, -⟩ := hostWrite_form b i v { s with host := rest }
    exact hm ▸ KeepsConfiguration.of_engines rfl rfl
  · obtain ⟨m, hm⟩ := copy_form' n { s with host := rest }
    exact hm ▸ KeepsConfiguration.of_engines rfl rfl
  · exact resetBlock_keepsConfiguration { s with host := rest }

/-! ## Records and the terminator (R92, R93, R297) -/

/-- The mark and the space of a record the Builder writes are at opposite levels (R93). -/
theorem pulseRec_levels_differ (hi lo : Word) (inv : Bool) :
    (recordOf (pulseRec hi lo inv)).level0 ≠ (recordOf (pulseRec hi lo inv)).level1 := by
  rw [recordOf_pulseRec]
  exact Bool.not_ne_self inv

/-- Settles O9: both levels of the terminator are 0, and those of a record differ. -/
theorem recordIsNeverTerminator : Obligations.RecordIsNeverTerminator := by
  intro hi lo inv h
  have differ := pulseRec_levels_differ hi lo inv
  rw [h] at differ
  exact differ (by decide)

/-! ## The largest clock of REF_A (R298) -/

/-- The used durations of REF_A are nine of its times, in ticks (R134, R243). -/
theorem refA_usedDurations (hz : Nat) :
    usedDurations refA (resolve refA hz) = [9000, 4500, 560, 560, 560, 1690, 560, 9000, 2250].map (ticks · hz) := rfl

/-- MAXDUR of REF_A is its lead mark of 9000 µs (R134, R243). -/
theorem refA_maxDur_le_iff (hz n : Nat) : maxDur refA (resolve refA hz) ≤ n ↔ ticks 9000 hz ≤ n := by
  have longest : ∀ us ∈ [9000, 4500, 560, 560, 560, 1690, 560, 9000, 2250], us ≤ 9000 := by decide
  refine ⟨fun h => (maxDur_parts h).1, fun h => (maxDur_le_iff _ _ n).mpr fun x hx => ?_⟩
  rw [refA_usedDurations] at hx
  obtain ⟨us, hus, rfl⟩ := List.mem_map.mp hx
  exact (ticks_mono (longest us hus) (Nat.le_refl hz)).trans h

/-- The durations of REF_A fit a record exactly up to 3640888 Hz (R91, R298). -/
theorem refA_fits_iff (hz : Nat) : maxDur refA (resolve refA hz) ≤ 0x7FFF ↔ hz ≤ 3640888 := by
  rw [refA_maxDur_le_iff, ← Nat.lt_succ_iff, ticks_lt_iff]
  omega

/-- Settles O15: the frequency is the one test of BNEW still open, and it bounds REF_A's lead mark. -/
theorem refALargestClock : Obligations.RefALargestClock := by
  intro s hr hfamily hlow hhigh hz
  have hd : familyTable s.bp.cfgFamily = some refA := hfamily ▸ familyTable_refA
  obtain hclock | hclock := le_or_gt s.bp.cfgClkHz.toNat 3640888
  · have hlen : dataLen refA ≤ s.bp.cfgCapacity.toNat := refA_lengths.1 ▸ hlow
    have hz' : s.bp.cfgClkHz.toNat ≠ 0 := fun h0 => hz (BitVec.eq_of_toNat_eq h0)
    have answer := bnew_ok hr hd hz' hlen hhigh ((refA_fits_iff _).mpr hclock)
    exact ⟨_, answer, iff_of_true rfl hclock, iff_of_false nofun (Nat.not_lt.mpr hclock)⟩
  · have hlong := Nat.lt_of_not_le (mt (refA_fits_iff _).mp (Nat.not_le.mpr hclock))
    have answer := bnew_errConfig hr hd (.inr (.inr (.inr (.inr hlong))))
    have idle : (s.setStatus .bp .errConfig).bp.ready ≠ true := fun h => Bool.false_ne_true (hr.symm.trans h)
    exact ⟨_, answer, iff_of_false idle (Nat.not_le.mpr hclock), iff_of_true rfl hclock⟩

/-! ## The reset action (R34, R290) -/

/-- A reset of the block leaves every register reading as after reset (R34). -/
theorem readReg_resetBlock (p : Port) (i : Nat) (s : State) : readReg p i (resetBlock s) = readReg p i State.reset := by
  cases p <;> rfl

/-- Settles O50: the action leaves the registers of reset, empty buffers and the host's side as it was. -/
theorem resetActionResetsTheBlock : Obligations.ResetActionResetsTheBlock := fun s =>
  ⟨resetBlock s, step_withNextAction .reset s, fun p i h => (readReg_resetBlock p i s).trans (readReg_reset h),
    rfl, rfl, Memory.read_nil, Memory.read_nil, resetBlock_host s⟩

end Sys2Proof.Machine
end
